-- ==== Sys2Proof/Word.lean ====
section
/-!
DEFINITION. The words of the Huffman codec block: the byte (a symbol, SYM_W = 8, rule R5) and the
32-bit header field (LEN_W = 32, rule R5). Every value of the block is unsigned (rule R9).
-/
namespace Sys2Proof

/-- A symbol, a byte of `IN` or of `OUT`: SYM_W = 8 bits, bit 7 the most significant (R9). -/
abbrev Byte := BitVec 8

/-- A header field: LEN_W = 32 bits, unsigned (R5, R61). -/
abbrev Word32 := BitVec 32

end Sys2Proof
end

