-- ==== Sys2Proof/Config.lean ====
section
/-!
DEFINITION. What the design fixes once (rule R5): the constants of the block, the default of the one
parameter the model keeps (NODE_CAP), and what a byte of a stream that nobody has written reads as.
The model has no opaque free value: the spec leaves no result of an operation open.
-/
namespace Sys2Proof.Config

/-- ALPHABET: number of symbol values (R5). -/
def alphabet : Nat := 256

/-- HDR_BYTES = HDR_BITS / 8: the header's size in bytes (R5), where `ENCODE` seeks to (R134). -/
def hdrBytes : Nat := 8

/-- LEN_W: the width of a header field in bits (R5). -/
def lenW : Nat := 32

/-- SYM_W: the width of a symbol in bits (R5). -/
def symW : Nat := 8

/-- RB_MAX: the largest count of `RBITS` (R5, R82) and, by D25, of `WBITS` (R85). -/
def rbMax : Nat := 64

/-- The default of the parameter NODE_CAP (R5, D15). A run's own value stands in `State.nodeCap`. -/
def nodeCapDefault : Nat := 511

/-- The sentinel leaf's symbol byte (R5, R104, D7). -/
def sentinelSym : Byte := 0x00

/-- `ord` of the first internal node `BUILD` makes (R100, R101). -/
def firstInternalOrd : Nat := 256

/-- What a byte of `IN` or `OUT` that nobody has written reads as.
DESIGN CHOICE (log entry 4), unsafe: the spec says "unspecified" (R25, U2). -/
def unlistedByte : Byte := 0x00

end Sys2Proof.Config
end

