-- ==== Sys2Proof/Syntax.lean ====
section
/-!
DEFINITION. The operations of the block (rule R3, written form R74) and the records of the container
(rules R61 to R66), one constructor per row of spec/opcode_table.json; the tree nodes they speak of
(rule R21); and the encoded form an operation has: a format, its bits in travelling order, and the
operand registers that hold a micro-operation's operands (rule R69: they are not in the code).
-/
namespace Sys2Proof

/-- A node of a Huffman tree: a full binary tree by construction (R21). -/
inductive Node where
  /-- A leaf: its symbol, and whether it is the sentinel of R104. -/
  | leaf (sym : Byte) (sentinel : Bool)
  /-- An internal node with exactly two children: left is reached by a 0 bit, right by a 1 bit. -/
  | internal (left right : Node)
deriving DecidableEq, Repr

/-- The operations. The first two are the host's commands, the next fifteen the sequencer's
micro-operations, the last seven the records of the container as the decoder takes them in. -/
inductive Instr where
  /-- `ENCODE` (R131), command code OP = 0. -/
  | encode
  /-- `DECODE` (R140), command code OP = 1. -/
  | decode
  /-- `b <- RBIT()` (R81). -/
  | rbit
  /-- `v <- RBITS(count)` (R82). -/
  | rbits (count : Nat)
  /-- `WBIT(b)` (R84). -/
  | wbit (b : Bool)
  /-- `WBITS(value, count)` (R85). -/
  | wbits (value count : Nat)
  /-- `n <- WTELL()` (R86). -/
  | wtell
  /-- `WSEEK(byteOffset)` (R87). -/
  | wseek (byteOffset : Nat)
  /-- `WFLUSH()` (R88). -/
  | wflush
  /-- `TREE <- BUILD(FREQ)` (R100). -/
  | build
  /-- `SERIALIZE(node)` (R110). -/
  | serialize (node : Node)
  /-- `TREE <- DESERIALIZE()` (R112). -/
  | deserialize
  /-- `CODE <- DERIVE(TREE)` (R115). -/
  | derive
  /-- `sym <- RDSYM(TREE, limit)` (R117). -/
  | rdsym (limit : Nat)
  /-- `COUNT()` (R132). -/
  | count
  /-- `EMIT()` (R136). -/
  | emit
  /-- `PATCH(tb, db)` (R137). -/
  | patch (tb db : Nat)
  /-- Record `HDR.TREEBITLEN` (R61), container bits 0 to 31. -/
  | hdrTreebitlen (v : Word32)
  /-- Record `HDR.DATABITLEN` (R61), container bits 32 to 63. -/
  | hdrDatabitlen (v : Word32)
  /-- Record `NODE.INTERNAL` (R63). -/
  | nodeInternal
  /-- Record `NODE.LEAF` (R63). -/
  | nodeLeaf (sym : Byte)
  /-- Record `PATH.LEFT` (R65). -/
  | pathLeft
  /-- Record `PATH.RIGHT` (R65). -/
  | pathRight
  /-- Record `PAD` (R66). -/
  | pad
deriving DecidableEq, Repr

/-- Which kind of word a string of bits is read as. The patterns of different kinds overlap and are
told apart by position only (R60, R61, R65, R66): `CTRL` holds a command, `UOPSEL` a micro-operation,
the container its records in the order of R46. -/
inductive Format where
  /-- `CMD`: one bit, `OP` (R68). -/
  | cmd
  /-- `UOP`: four bits, `UOPSEL` (R69). -/
  | uop
  /-- `HDR` at container bit 0 (R61). -/
  | hdrTree
  /-- `HDR` at container bit 32 (R61). -/
  | hdrData
  /-- `NODE.INTERNAL` or `NODE.LEAF`, in the tree region (R63). -/
  | node
  /-- `PATH.LEFT` or `PATH.RIGHT`, in the payload region (R65). -/
  | path
  /-- `PAD`, after the payload region (R66). -/
  | pad
deriving DecidableEq, Repr

/-- An encoded word: its format and its bits, the first bit travelling first (R9). -/
structure IWord where
  fmt : Format
  bits : List Bool
deriving DecidableEq, Repr

/-- The operand registers of the micro-operations (R69: operands are held in registers, not in the
code), one per operand of the written forms of R74. -/
structure Operands where
  /-- `b` of `WBIT`. -/
  bit : Bool
  /-- `value` of `WBITS`. -/
  value : Nat
  /-- `count` of `RBITS` and `WBITS`, a number of bits (R180). -/
  count : Nat
  /-- `byteOffset` of `WSEEK`. -/
  offset : Nat
  /-- The node of `SERIALIZE`. -/
  node : Node
  /-- The bit limit of `RDSYM`. -/
  limit : Nat
  /-- `tb` of `PATCH`. -/
  tb : Nat
  /-- `db` of `PATCH`. -/
  db : Nat
deriving DecidableEq, Repr

end Sys2Proof
end

