-- ==== Sys2Proof/WellFormed.lean ====
section
/-!
DEFINITION. Which operations are well formed: the operand ranges of the rules. A count is 1 to 64
bits (R82, R85, D25); the two lengths of `PATCH` are below 2^32 (R137).
-/
namespace Sys2Proof

/-- A legal count operand: 1 to RB_MAX bits (R82; R85 with D25). -/
abbrev countOk (n : Nat) : Prop := 1 ≤ n ∧ n ≤ Config.rbMax

/-- A length that a 32-bit header field can state (R137, R138). -/
abbrev lengthOk (n : Nat) : Prop := n < 2 ^ Config.lenW

/-- Every operand in the range its rule gives. The other operands have no illegal value. -/
def Instr.wellFormed : Instr → Bool
  | .rbits n => decide (countOk n)
  | .wbits _ n => decide (countOk n)
  | .patch tb db => decide (lengthOk tb) && decide (lengthOk db)
  | .encode => true
  | .decode => true
  | .rbit => true
  | .wbit _ => true
  | .wtell => true
  | .wseek _ => true
  | .wflush => true
  | .build => true
  | .serialize _ => true
  | .deserialize => true
  | .derive => true
  | .rdsym _ => true
  | .count => true
  | .emit => true
  | .hdrTreebitlen _ => true
  | .hdrDatabitlen _ => true
  | .nodeInternal => true
  | .nodeLeaf _ => true
  | .pathLeft => true
  | .pathRight => true
  | .pad => true

end Sys2Proof
end

