-- ==== Sys2Proof/Decode.lean ====
section
/-!
DEFINITION. The decoder and the encoder of the words of 30_encoding.md. The decoder is directed by
the format, because the patterns of different formats are told apart by position only (R60, R61). It
is total: a string of bits gives an operation with the bits left over, or a rejection by name. A
micro-operation's operands come from the operand registers (R69).
-/
namespace Sys2Proof

/-- The `n` low bits of `v`, most significant first: `bitsN(v)` of R9, R67. -/
def bitsN : Nat → Nat → List Bool
  | 0, _ => []
  | n + 1, v => v.testBit n :: bitsN n v

/-- The unsigned value of a bit string, first bit most significant (R9, R67). -/
def bitsVal (bs : List Bool) : Nat :=
  bs.foldl (fun v b => 2 * v + b.toNat) 0

/-- Why a string of bits is no operation. -/
inductive DecodeError where
  /-- Fewer bits than the format's record has (R61, R63, R65, R68, R69). -/
  | short (fmt : Format)
  /-- `UOPSEL = 0000`, which selects no micro-operation (R69, U5). -/
  | uopNone
deriving DecidableEq, Repr

/-- What decoding gives. -/
inductive Decoded where
  /-- An operation and the bits after it. -/
  | ok (i : Instr) (rest : List Bool)
  /-- A rejection by name. -/
  | reject (e : DecodeError)
deriving DecidableEq, Repr

/-- The micro-operation a 4-bit `UOPSEL` selects, with its operands from the operand registers
(table of R69). -/
def decodeUop (sel : Nat) (r : Operands) : Option Instr :=
  match sel with
  | 0b0001 => some .rbit
  | 0b0010 => some (.rbits r.count)
  | 0b0011 => some (.wbit r.bit)
  | 0b0100 => some (.wbits r.value r.count)
  | 0b0101 => some .wtell
  | 0b0110 => some (.wseek r.offset)
  | 0b0111 => some .wflush
  | 0b1000 => some .build
  | 0b1001 => some (.serialize r.node)
  | 0b1010 => some .deserialize
  | 0b1011 => some .derive
  | 0b1100 => some (.rdsym r.limit)
  | 0b1101 => some .count
  | 0b1110 => some .emit
  | 0b1111 => some (.patch r.tb r.db)
  | _ => none

/-- The command bit (R68): 0 is `ENCODE`, 1 is `DECODE`; there is no unassigned value. -/
def decodeCmd : List Bool → Decoded
  | [] => .reject (.short .cmd)
  | false :: rest => .ok .encode rest
  | true :: rest => .ok .decode rest

/-- A node record: the first bit tells its kind and so its length (R63). -/
def decodeNode : List Bool → Decoded
  | [] => .reject (.short .node)
  | true :: rest => .ok .nodeInternal rest
  | false :: rest =>
    if rest.length < Config.symW then .reject (.short .node)
    else .ok (.nodeLeaf (BitVec.ofNat 8 (bitsVal (rest.take Config.symW)))) (rest.drop Config.symW)

/-- One bit of a code word (R65). -/
def decodePath : List Bool → Decoded
  | [] => .reject (.short .path)
  | false :: rest => .ok .pathLeft rest
  | true :: rest => .ok .pathRight rest

/-- A padding bit (R66). It is not checked: a padding bit of 1 is taken too (R72 (a)). -/
def decodePad : List Bool → Decoded
  | [] => .reject (.short .pad)
  | _ :: rest => .ok .pad rest

/-- A 32-bit header field, at the position `fmt` (R61). -/
def decodeHdr (fmt : Format) (mk : Word32 → Instr) (bs : List Bool) : Decoded :=
  if bs.length < Config.lenW then .reject (.short fmt)
  else .ok (mk (BitVec.ofNat 32 (bitsVal (bs.take Config.lenW)))) (bs.drop Config.lenW)

/-- A 4-bit micro-operation select (R69). -/
def decodeSel (bs : List Bool) (r : Operands) : Decoded :=
  if bs.length < 4 then .reject (.short .uop)
  else
    match decodeUop (bitsVal (bs.take 4)) r with
    | some i => .ok i (bs.drop 4)
    | none => .reject .uopNone

/-- The decoder: a word of some format and the operand registers give an operation and the bits left
over, or a rejection by name. -/
def decode (w : IWord) (r : Operands) : Decoded :=
  match w.fmt with
  | .cmd => decodeCmd w.bits
  | .uop => decodeSel w.bits r
  | .hdrTree => decodeHdr .hdrTree .hdrTreebitlen w.bits
  | .hdrData => decodeHdr .hdrData .hdrDatabitlen w.bits
  | .node => decodeNode w.bits
  | .path => decodePath w.bits
  | .pad => decodePad w.bits

/-- An operation's encoded form: its word, and the operand registers that carry its operands. -/
structure Encoded where
  word : IWord
  opnd : Operands
deriving DecidableEq, Repr

/-- Operand registers that carry no operand. -/
def noOperands : Operands :=
  { bit := false, value := 0, count := 0, offset := 0, node := .leaf 0 false, limit := 0, tb := 0, db := 0 }

/-- The word of a micro-operation select code. -/
def uopWord (sel : Nat) : IWord := { fmt := .uop, bits := bitsN 4 sel }

/-- The encoder, from the tables of R61, R63, R65, R66, R68 and R69. -/
def encode : Instr → Encoded
  | .encode => ⟨⟨.cmd, [false]⟩, noOperands⟩
  | .decode => ⟨⟨.cmd, [true]⟩, noOperands⟩
  | .rbit => ⟨uopWord 0b0001, noOperands⟩
  | .rbits n => ⟨uopWord 0b0010, { noOperands with count := n }⟩
  | .wbit b => ⟨uopWord 0b0011, { noOperands with bit := b }⟩
  | .wbits v n => ⟨uopWord 0b0100, { noOperands with value := v, count := n }⟩
  | .wtell => ⟨uopWord 0b0101, noOperands⟩
  | .wseek a => ⟨uopWord 0b0110, { noOperands with offset := a }⟩
  | .wflush => ⟨uopWord 0b0111, noOperands⟩
  | .build => ⟨uopWord 0b1000, noOperands⟩
  | .serialize n => ⟨uopWord 0b1001, { noOperands with node := n }⟩
  | .deserialize => ⟨uopWord 0b1010, noOperands⟩
  | .derive => ⟨uopWord 0b1011, noOperands⟩
  | .rdsym e => ⟨uopWord 0b1100, { noOperands with limit := e }⟩
  | .count => ⟨uopWord 0b1101, noOperands⟩
  | .emit => ⟨uopWord 0b1110, noOperands⟩
  | .patch tb db => ⟨uopWord 0b1111, { noOperands with tb := tb, db := db }⟩
  | .hdrTreebitlen v => ⟨⟨.hdrTree, bitsN 32 v.toNat⟩, noOperands⟩
  | .hdrDatabitlen v => ⟨⟨.hdrData, bitsN 32 v.toNat⟩, noOperands⟩
  | .nodeInternal => ⟨⟨.node, [true]⟩, noOperands⟩
  | .nodeLeaf s => ⟨⟨.node, false :: bitsN 8 s.toNat⟩, noOperands⟩
  | .pathLeft => ⟨⟨.path, [false]⟩, noOperands⟩
  | .pathRight => ⟨⟨.path, [true]⟩, noOperands⟩
  | .pad => ⟨⟨.pad, [false]⟩, noOperands⟩

/-- The format an operation's word has. -/
def Instr.format : Instr → Format
  | .encode => .cmd
  | .decode => .cmd
  | .rbit => .uop
  | .rbits _ => .uop
  | .wbit _ => .uop
  | .wbits _ _ => .uop
  | .wtell => .uop
  | .wseek _ => .uop
  | .wflush => .uop
  | .build => .uop
  | .serialize _ => .uop
  | .deserialize => .uop
  | .derive => .uop
  | .rdsym _ => .uop
  | .count => .uop
  | .emit => .uop
  | .patch _ _ => .uop
  | .hdrTreebitlen _ => .hdrTree
  | .hdrDatabitlen _ => .hdrData
  | .nodeInternal => .node
  | .nodeLeaf _ => .node
  | .pathLeft => .path
  | .pathRight => .path
  | .pad => .pad

/-- The length in bits the opcode table gives an operation's word (R61, R63, R65, R66, R68, R69). -/
def Instr.width : Instr → Nat
  | .encode => 1
  | .decode => 1
  | .rbit => 4
  | .rbits _ => 4
  | .wbit _ => 4
  | .wbits _ _ => 4
  | .wtell => 4
  | .wseek _ => 4
  | .wflush => 4
  | .build => 4
  | .serialize _ => 4
  | .deserialize => 4
  | .derive => 4
  | .rdsym _ => 4
  | .count => 4
  | .emit => 4
  | .patch _ _ => 4
  | .hdrTreebitlen _ => 32
  | .hdrDatabitlen _ => 32
  | .nodeInternal => 1
  | .nodeLeaf _ => 9
  | .pathLeft => 1
  | .pathRight => 1
  | .pad => 1

/-- The word a row of the opcode table stands for when only its number of bits and its value are
given. Rows with equal words cannot be told apart by them (R61, R65): of those the command, then the
micro-operation, then the first record of the table is taken. DESIGN CHOICE (log entry 9). -/
def tableWord (nbits w : Nat) : IWord :=
  if nbits ≤ 8 then
    if nbits = 4 then uopWord w
    else if w < 2 then ⟨.cmd, bitsN 1 w⟩
    else if w < 16 then uopWord w
    else ⟨.uop, []⟩
  else if nbits ≤ 16 then ⟨.node, bitsN 9 w⟩
  else ⟨.hdrTree, bitsN 32 w⟩

/-- The operand registers that go with a bare table word: zeros, but for a count of 8 bits, since a
count of 0 is no operand (R82). DESIGN CHOICE (log entry 9). -/
def tableOperands : Operands := { noOperands with count := 8 }

/-- What the decoder reads from a row of the opcode table. -/
def decodeTableWord (nbits w : Nat) : Option Instr :=
  match decode (tableWord nbits w) tableOperands with
  | .ok i _ => some i
  | .reject _ => none

end Sys2Proof
end

