-- ==== Sys2Proof/Machine/State.lean ====
section
/-!
DEFINITION. The state of the block (rule R10) and its reset values (rule R28); the reasons a step can
stop. Beside the spec's state stand the sequencer's working latches (the local names of R131 and
R140), the instruction latch with the operand registers of R69, and the inputs of a run that R30 says
the step takes as arguments: NODE_CAP, the failure pattern of the streams, and the host's actions.
-/
namespace Sys2Proof.Machine

/-- `STATUS` (R12). -/
inductive Status where
  | idle
  | busy
  | done
  | fault
deriving DecidableEq, Repr

/-- `ERR` (R13): no fault, or the kind of the fault that ended the command (R150). -/
inductive Err where
  | none
  | ioError
  | truncatedContainer
  | invalidHeader
  | lengthOverflow
  | capacityExceeded
deriving DecidableEq, Repr

/-- `PHASE` (R17), the sequencer's position. -/
inductive Phase where
  | idle
  | eCount
  | eBuild
  | eEmpty
  | eReserve
  | eTree
  | eDerive
  | eEmit
  | ePatch
  | dHeader
  | dTree
  | dPayload
  | halt
deriving DecidableEq, Repr

/-- A table with one entry per symbol value: 256 entries (R10, R20, R23). -/
structure Table (α : Type) where
  entries : List α
  size : entries.length = 256
deriving DecidableEq, Repr

/-- An entry of `CODE` (R23). `len` is the length of `bits`, so it is stored once. -/
structure CodeEntry where
  valid : Bool
  /-- The code word, root end first. -/
  bits : List Bool
deriving DecidableEq, Repr

/-- An entry of `FOREST` (R22). -/
structure ForestEntry where
  weight : Nat
  ord : Nat
  node : Node
deriving DecidableEq, Repr

/-- An entry of `STACK` (R24): an internal node of the pre-order walk that is not complete yet. -/
inductive Frame where
  /-- Its left child is being read. -/
  | needLeft
  /-- Its left child is read, its right child is being read. -/
  | needRight (left : Node)
deriving DecidableEq, Repr

/-- The contents of a byte-addressed stream: pairs of an index and a byte, indices strictly rising,
no byte equal to what an unlisted index reads as (`Mem.wf` in Machine/Ops.lean). -/
abbrev Mem := List Host.Cell

/-- The host's registers (R29). -/
inductive HostReg where
  | ctrl
  | status
  | err
  | hdrTree
  | hdrData
  | outLen
  | inLen
  | phase
deriving DecidableEq, Repr

/-- What the host does in one step (R181). -/
inductive HostAct where
  /-- Nothing: the block advances. -/
  | wait
  /-- Assert reset (R170, R171). -/
  | reset
  /-- Read a register (R29). -/
  | readReg (r : HostReg)
  /-- Write a register (R29); a write to `CTRL` is `START` (R130). -/
  | writeReg (r : HostReg) (v : Nat)
  /-- Place a byte in `IN` (R173). -/
  | placeIn (a : Nat) (v : Byte)
  /-- Prepare a byte of `OUT` (R181). -/
  | placeOut (a : Nat) (v : Byte)
  /-- Read a byte of `OUT` (R8). -/
  | readOut (a : Nat)
deriving DecidableEq, Repr

/-- The machine stops with a fault. The block's own five faults (R150) are no such stop: they end the
command in a next state (R156). -/
inductive Fault where
  /-- A read of `IN` at an index beyond `IN_LEN`, which is no address of `IN` (R40, R54: "there is no
  read at IN_POS > IN_LEN"). Raised by `inbyte` (Machine/Ops.lean) in states no run reaches. Safe. -/
  | inBeyondEnd
deriving DecidableEq, Repr

/-- The model has no move: the situation lies outside the domain the spec gives the operation. -/
inductive Refusal where
  /-- An instruction that has no meaning yet; raised by `exec` only. Safe. -/
  | notModelled (mnemonic : String)
  /-- The instruction latch holds no operation (R69, U5); raised by `step`. Safe. -/
  | undecodable (e : DecodeError)
  /-- `RBITS` or `WBITS` with a count outside 1 to 64 (R82, R85, U6: "a model refuses it"). Safe. -/
  | countOutOfRange (count : Nat)
  /-- `WSEEK` with bits pending in `WR_ACC` (R87, U8: "a model refuses a WSEEK"). Safe. -/
  | seekWithBitsPending
  /-- `DERIVE` with `TREE` absent (R115: "which must be present"). Safe. -/
  | deriveWithoutTree
  /-- `RDSYM` on an absent or leaf root, or with no payload bit left (R117, R118, U18). Safe. -/
  | rdsymOutsideDomain
  /-- A `PATH` record where there is no internal node to step from (R65, R118, U18). Safe. -/
  | pathWithoutNode
  /-- `EMIT` met a byte that has no code word (R52, U7: "no rule gives a result"). Safe. -/
  | emitWithoutCode (sym : Byte)
  /-- The sequencer stands where no rule puts it: `BUSY` in a phase that runs nothing, or in a phase
  without the tree that phase works on (R148). Raised by `sequence`. Safe. -/
  | noSequencerMove
  /-- The host touched `IN`, `IN_LEN` or `OUT` while `BUSY` (R181, U7: no move in the model). Safe. -/
  | hostWhileBusy
  /-- The host read `OUT` at or beyond `OUT_LEN` (R181, U2: no move in the model). Safe. -/
  | hostReadBeyondOutLen
deriving DecidableEq, Repr

/-- The state (R10). -/
structure State where
  /-- `OP` (R11). -/
  op : BitVec 1
  /-- `STATUS` (R12). -/
  status : Status
  /-- `ERR` (R13). -/
  err : Err
  /-- `HDR_TREE` (R14). -/
  hdrTree : Word32
  /-- `HDR_DATA` (R14). -/
  hdrData : Word32
  /-- `OUT_LEN` (R15). -/
  outLen : Nat
  /-- `PHASE` (R17). -/
  phase : Phase
  /-- `IN_POS` (R18). -/
  inPos : Nat
  /-- `RD_BYTE` (R18). -/
  rdByte : Byte
  /-- `RD_NBITS` (R18). -/
  rdNbits : Nat
  /-- `RD_BITCNT` (R18). -/
  rdBitcnt : Nat
  /-- `OUT_POS` (R19). -/
  outPos : Nat
  /-- `WR_ACC` (R19), oldest bit first; `WR_NBITS` is its length (`State.wrNbits`). -/
  wrAcc : List Bool
  /-- `WR_BITCNT` (R19). -/
  wrBitcnt : Nat
  /-- `FREQ[0..255]` (R20). -/
  freq : Table Nat
  /-- `TREE` (R21). -/
  tree : Option Node
  /-- `FOREST` (R22), kept in the order of R101. -/
  forest : List ForestEntry
  /-- `NEXT_ORD` (R22). -/
  nextOrd : Nat
  /-- `CODE[0..255]` (R23). -/
  code : Table CodeEntry
  /-- `CUR` (R24). -/
  cur : Node
  /-- `STACK` (R24), innermost entry first. -/
  stack : List Frame
  /-- `NODE_CNT` (R24). -/
  nodeCnt : Nat
  /-- `IN` (R25). -/
  inp : Mem
  /-- `IN_LEN` (R25). -/
  inLen : Nat
  /-- `OUT` (R25). -/
  out : Mem
  /-- Model's own: how far the sequencer is within the phase. -/
  useq : Nat
  /-- `t0` of R131 and R140. -/
  t0 : Nat
  /-- `d0` of R131. -/
  d0 : Nat
  /-- `tb` of R131 and R140. -/
  tb : Nat
  /-- `db` of R131 and R140. -/
  db : Nat
  /-- `end` of R140. -/
  payEnd : Nat
  /-- Model's own: the number the last micro-operation returned (R74). -/
  res : Nat
  /-- Model's own: the instruction latch, `UOPSEL` when it holds a micro-operation (R69). -/
  ir : Option IWord
  /-- The operand registers (R69). -/
  opnd : Operands
  /-- Input of the run: NODE_CAP (R5, R30). -/
  nodeCap : Nat
  /-- Input of the run: the outcomes of the stream accesses to come, `true` for *fail* (R53, R30); an
  access beyond the list's end does not fail. -/
  envFail : List Bool
  /-- Input of the run: the host's actions, one a step (R181); beyond the list's end it waits. -/
  hostQ : List HostAct
  /-- Model's own: the number the last host read returned. -/
  hostRd : Nat
deriving DecidableEq, Repr

/-- `WR_NBITS` (R19): how many bits `WR_ACC` holds. -/
def State.wrNbits (s : State) : Nat := s.wrAcc.length

/-- A table with every entry equal. -/
def tableOf {α : Type} (v : α) : Table α := ⟨List.replicate 256 v, List.length_replicate⟩

/-- The state right after reset (R28, R170). The registers R28 leaves unspecified hold the values of
log entry 3; `IN`, `IN_LEN` and `OUT`, which reset does not touch, are empty (log entry 4).
DESIGN CHOICE (log entry 20), unsafe: of the model's own latches, which no table of the spec lists, the
operand registers hold no operand (`noOperands`), `res`, `useq` and `hostRd` hold 0 and `ir` is empty. -/
def State.reset : State :=
  { op := 0#1, status := .idle, err := .none, hdrTree := 0#32, hdrData := 0#32, outLen := 0
    phase := .idle
    inPos := 0, rdByte := 0#8, rdNbits := 0, rdBitcnt := 0
    outPos := 0, wrAcc := [], wrBitcnt := 0
    freq := tableOf 0, tree := none, forest := [], nextOrd := Config.firstInternalOrd
    code := tableOf ⟨false, []⟩, cur := .leaf 0 false, stack := [], nodeCnt := 0
    inp := [], inLen := 0, out := []
    useq := 0, t0 := 0, d0 := 0, tb := 0, db := 0, payEnd := 0, res := 0
    ir := none, opnd := noOperands
    nodeCap := Config.nodeCapDefault, envFail := [], hostQ := [], hostRd := 0 }

end Sys2Proof.Machine
end

