-- ==== Sys2Proof/Machine/Operands.lean ====
section
/-!
DEFINITION. The assembly of operands (R9, R67) beyond `bitsN` and `bitsVal` of Decode.lean: the byte
of a bit string, the numbered bit of a byte, and the entries of the tables by symbol (R9: `T[i]`).
-/
namespace Sys2Proof.Machine

/-- The byte whose top bits are the string, oldest in bit 7, and whose other bits are 0 (R84, R88). -/
def byteOfBits (bs : List Bool) : Byte :=
  BitVec.ofNat 8 (bitsVal (bs ++ List.replicate (8 - bs.length) false))

/-- `v[i]` of a byte (R9). -/
def bitOf (v : Byte) (i : Nat) : Bool := v.getLsbD i

/-- The bits of a byte in travelling order, bit 7 first (R9, R41). -/
def byteBits (v : Byte) : List Bool := bitsN 8 v.toNat

/-- `T[s]` (R9). -/
def Table.get {α : Type} (t : Table α) (s : Byte) : α :=
  t.entries[s.toNat]'(by rw [t.size]; exact s.isLt)

/-- `T[s] <- v` (R9). -/
def Table.put {α : Type} (t : Table α) (s : Byte) (v : α) : Table α :=
  ⟨t.entries.set s.toNat v, by rw [List.length_set, t.size]⟩

/-- Change every entry of a table. -/
def Table.mapAll {α : Type} (t : Table α) (f : α → α) : Table α :=
  ⟨t.entries.map f, by rw [List.length_map, t.size]⟩

/-- The symbol values in ascending order, 0 to 255. -/
def symbols : List Byte := (List.range Config.alphabet).map (BitVec.ofNat 8)

end Sys2Proof.Machine
end

