-- ==== Sys2Proof/Machine/Ops.lean ====
section
/-!
DEFINITION. The shared operations: reading and writing one byte of a stream's contents, the result of
an operation, fault entry (R156), the two port primitives (R80, R83), command start (R130),
completion, and reset (R170).
-/
namespace Sys2Proof.Machine

/-! ### The contents of a stream -/

/-- The byte at an index (`MemRead` of R9). -/
def Mem.read : Mem → Nat → Byte
  | [], _ => Config.unlistedByte
  | c :: m, a => if c.1 = a then c.2 else Mem.read m a

/-- Puts a pair in its place by index, before the first larger index. -/
def Mem.insert (a : Nat) (v : Byte) : Mem → Mem
  | [] => [(a, v)]
  | c :: m => if a < c.1 then (a, v) :: c :: m else c :: Mem.insert a v m

/-- The contents without the index. -/
def Mem.erase (m : Mem) (a : Nat) : Mem := m.filter (fun c => c.1 != a)

/-- Stores a byte at an index (`MemWrite` of R9, R45): a later write replaces an earlier one. -/
def Mem.write (m : Mem) (a : Nat) (v : Byte) : Mem :=
  if v = Config.unlistedByte then m.erase a else (m.erase a).insert a v

/-- The canonical form: indices strictly rising, nothing listed that an unlisted index reads as. -/
abbrev Mem.wf (m : Mem) : Prop :=
  m.Pairwise (fun c d => c.1 < d.1) ∧ ∀ c ∈ m, c.2 ≠ Config.unlistedByte

/-! ### Results of operations -/

/-- How an operation ends. -/
inductive Res (α : Type) where
  /-- It completes with a result. -/
  | ok (a : α) (s : State)
  /-- It raised one of the block's faults and the command has ended (R156). -/
  | halted (s : State)
  /-- The machine stops. -/
  | fault (f : Fault)
  /-- The model has no move. -/
  | refused (r : Refusal)

/-- Then do `f` with the result; a fault ends the caller too (`call` of R9). -/
def Res.bind {α β : Type} (r : Res α) (f : α → State → Res β) : Res β :=
  match r with
  | .ok a s => f a s
  | .halted s => .halted s
  | .fault e => .fault e
  | .refused e => .refused e

/-- The step an operation makes: its result goes where `k` puts it; after fault entry the state is the
next state as it stands. -/
def Res.toStep {α : Type} (r : Res α) (k : α → State → State) :
    Host.Outcome State Fault Refusal :=
  match r with
  | .ok a s => .next (k a s)
  | .halted s => .next s
  | .fault e => .fault e
  | .refused e => .refused e

/-- Put the number an operation returns into the result latch. -/
def State.setRes (s : State) (n : Nat) : State := { s with res := n }

/-! ### Fault entry and completion -/

/-- Fault entry (R156): `ERR`, `STATUS` and `PHASE` and nothing else. -/
def State.faultEntry (s : State) (kind : Err) : State :=
  { s with err := kind, status := .fault, phase := .halt }

/-- `raise Fault(kind)` (R9, R156). -/
def raise {α : Type} (kind : Err) (s : State) : Res α := .halted (s.faultEntry kind)

/-- A command's end without a fault (R131, R140): `STATUS <- DONE ; PHASE <- HALT`. -/
def State.complete (s : State) : State := { s with status := .done, phase := .halt }

/-! ### The streams -/

/-- One stream access takes one outcome of the environment (R53). -/
def State.popEnv (s : State) : State := { s with envFail := s.envFail.tail }

/-- Does the environment fail the next access (R53)? -/
def State.envFails (s : State) : Bool := s.envFail.headD false

/-- `INBYTE()` (R80): `none` is the token `end`. *fail* is tested before *end* (R53, R157). -/
def inbyte (s : State) : Res (Option Byte) :=
  if s.envFails then raise .ioError s.popEnv
  else if s.inPos = s.inLen then .ok none s.popEnv
  else if s.inLen < s.inPos then .fault .inBeyondEnd
  else .ok (some (s.inp.read s.inPos)) { s.popEnv with inPos := s.inPos + 1 }

/-- `MemWrite(OUT, OUT_POS, 1, v)` and the cursor's step (R83, R9). -/
def State.storeOut (s : State) (v : Byte) : State :=
  { s with
    out := s.out.write s.outPos v
    outLen := max s.outLen (s.outPos + 1)
    outPos := s.outPos + 1 }

/-- `OUTBYTE(v)` (R83). -/
def outbyte (v : Byte) (s : State) : Res Unit :=
  if s.envFails then raise .ioError s.popEnv
  else .ok () (s.popEnv.storeOut v)

/-! ### Command start and reset -/

/-- The effect of an accepted `START(op)` (R130). -/
def State.begin (s : State) (op : BitVec 1) : State :=
  { s with
    op := op, status := .busy, err := .none
    hdrTree := 0#32, hdrData := 0#32, outLen := 0
    inPos := 0, rdByte := 0#8, rdNbits := 0, rdBitcnt := 0
    outPos := 0, wrAcc := [], wrBitcnt := 0
    tree := none
    phase := if op = 0#1 then .eCount else .dHeader
    useq := 0, ir := none }

/-- `START(op)` (R130): ignored while `BUSY`. -/
def start (op : BitVec 1) (s : State) : State :=
  if s.status = .busy then s else s.begin op

/-- Reset (R170, R171): every register to its reset value, in any state; `IN`, `IN_LEN` and `OUT` stay.
The tables, which R28 leaves unspecified, take the values of log entry 3 (U1).
DESIGN CHOICE (log entry 20), unsafe: the model's own latches `useq`, `res`, `ir` and `opnd` take their
values of `State.reset`, while the inputs of the run and the host's own `hostRd` stay. -/
def State.doReset (s : State) : State :=
  { State.reset with
    inp := s.inp, inLen := s.inLen, out := s.out
    nodeCap := s.nodeCap, envFail := s.envFail, hostQ := s.hostQ, hostRd := s.hostRd }

end Sys2Proof.Machine
end

