-- ==== Sys2Proof/Machine/Bitstream.lean ====
section
/-!
DEFINITION. The bit stream unit (40_bitstream.md): the bit reader and the bit writer, and the meanings
of `RBIT`, `RBITS`, `WBIT`, `WBITS`, `WTELL`, `WSEEK` and `WFLUSH`.
-/
namespace Sys2Proof.Machine

/-! ### The bit reader -/

/-- The reader takes the next bit of `RD_BYTE` (R81, the lines after the byte read). -/
def State.takeBit (s : State) : State :=
  { s with rdNbits := s.rdNbits - 1, rdBitcnt := s.rdBitcnt + 1 }

/-- `RBIT()` (R81). -/
def rbit (s : State) : Res Bool :=
  if s.rdNbits = 0 then
    (inbyte s).bind fun r s =>
      match r with
      | none => raise .truncatedContainer s
      | some v => .ok (bitOf v 7) { s with rdByte := v, rdNbits := 8 }.takeBit
  else .ok (bitOf s.rdByte (s.rdNbits - 1)) s.takeBit

/-- The loop of `RBITS`: `n` more bits after the value `v` (R82). -/
def rbitsFrom : Nat → Nat → State → Res Nat
  | 0, v, s => .ok v s
  | n + 1, v, s => (rbit s).bind fun b s => rbitsFrom n (2 * v + b.toNat) s

/-- `RBITS(count)` (R82). A count outside 1 to 64 is refused (U6). -/
def rbits (count : Nat) (s : State) : Res Nat :=
  if countOk count then rbitsFrom count 0 s else .refused (.countOutOfRange count)

/-! ### The bit writer -/

/-- The partial-byte buffer becomes empty (R84, R88). -/
def State.clearAcc (s : State) : State := { s with wrAcc := [] }

/-- The writer takes in a bit (R84, its first three lines). -/
def State.appendBit (s : State) (b : Bool) : State :=
  { s with wrAcc := s.wrAcc ++ [b], wrBitcnt := s.wrBitcnt + 1 }

/-- `WBIT(b)` (R84). -/
def wbit (b : Bool) (s : State) : Res Unit :=
  let s := s.appendBit b
  if s.wrNbits = 8 then (outbyte (byteOfBits s.wrAcc) s).bind fun _ s => .ok () s.clearAcc
  else .ok () s

/-- `WBIT` of each bit of a string in turn. -/
def wbitAll : List Bool → State → Res Unit
  | [], s => .ok () s
  | b :: bs, s => (wbit b s).bind fun _ s => wbitAll bs s

/-- `WBITS(value, count)` (R85). A count outside 1 to 64 is refused (U6). -/
def wbits (value count : Nat) (s : State) : Res Unit :=
  if countOk count then wbitAll (bitsN count value) s else .refused (.countOutOfRange count)

/-- `WSEEK(byteOffset)` (R87): refused with bits pending (R87, R175, U8). -/
def wseek (byteOffset : Nat) (s : State) : Res Unit :=
  if s.wrNbits = 0 then .ok () { s with outPos := byteOffset } else .refused .seekWithBitsPending

/-- `WFLUSH()` (R88). -/
def wflush (s : State) : Res Unit :=
  if s.wrNbits = 0 then .ok () s
  else (outbyte (byteOfBits s.wrAcc) s).bind fun _ s => .ok () s.clearAcc

/-! ### The meanings -/

/-- `RBIT` (R81): the bit goes to the result latch. -/
def execRbit (s : State) : Host.Outcome State Fault Refusal :=
  (rbit s).toStep fun b s => s.setRes b.toNat

/-- `RBITS` (R82): the value goes to the result latch. -/
def execRbits (count : Nat) (s : State) : Host.Outcome State Fault Refusal :=
  (rbits count s).toStep fun v s => s.setRes v

/-- `WBIT` (R84). -/
def execWbit (b : Bool) (s : State) : Host.Outcome State Fault Refusal :=
  (wbit b s).toStep fun _ s => s

/-- `WBITS` (R85). -/
def execWbits (value count : Nat) (s : State) : Host.Outcome State Fault Refusal :=
  (wbits value count s).toStep fun _ s => s

/-- `WTELL` (R86): the bit cursor goes to the result latch. -/
def execWtell (s : State) : Host.Outcome State Fault Refusal :=
  .next (s.setRes s.wrBitcnt)

/-- `WSEEK` (R87). -/
def execWseek (byteOffset : Nat) (s : State) : Host.Outcome State Fault Refusal :=
  (wseek byteOffset s).toStep fun _ s => s

/-- `WFLUSH` (R88). -/
def execWflush (s : State) : Host.Outcome State Fault Refusal :=
  (wflush s).toStep fun _ s => s

end Sys2Proof.Machine
end

