-- ==== Sys2Proof/Machine/Tree.lean ====
section
/-!
DEFINITION. The tree unit (41_tree.md): the meanings of `BUILD`, `SERIALIZE`, `DESERIALIZE`, `DERIVE`
and `RDSYM`, over shared operations that the container records of Machine/Records.lean use too.
-/
namespace Sys2Proof.Machine

/-! ### BUILD -/

/-- The order of extraction (R101). -/
def ForestEntry.before (x y : ForestEntry) : Bool :=
  decide (x.weight < y.weight) || (decide (x.weight = y.weight) && decide (x.ord < y.ord))

/-- Add an entry to a forest kept in the order of R101. -/
def insertForest (e : ForestEntry) : List ForestEntry → List ForestEntry
  | [] => [e]
  | x :: xs => if e.before x then e :: x :: xs else x :: insertForest e xs

/-- Step 1 of R100: a leaf entry for each symbol with a count. -/
def leafEntries (freq : Table Nat) (syms : List Byte) : List ForestEntry :=
  match syms with
  | [] => []
  | b :: bs =>
    if 0 < freq.get b then
      insertForest { weight := freq.get b, ord := b.toNat, node := .leaf b false } (leafEntries freq bs)
    else leafEntries freq bs

/-- One merge of R100: the first two entries, the first extracted on the left (R102). -/
def mergeEntries (a b : ForestEntry) (ord : Nat) : ForestEntry :=
  { weight := a.weight + b.weight, ord := ord, node := .internal a.node b.node }

/-- Step 2 of R100: merge until one entry is left; at most `n` merges. -/
def mergeForest : Nat → List ForestEntry → Nat → List ForestEntry × Nat
  | n + 1, a :: b :: rest, ord => mergeForest n (insertForest (mergeEntries a b ord) rest) (ord + 1)
  | _, forest, ord => (forest, ord)

/-- The tree of the single-symbol case (R104, D7). -/
def sentinelTree (n : Node) : Node := .internal n (.leaf Config.sentinelSym true)

/-- `BUILD(FREQ)` (R100). -/
def State.build (s : State) : State :=
  match leafEntries s.freq symbols with
  | [] => { s with forest := [], nextOrd := Config.firstInternalOrd, tree := none }
  | [e] => { s with forest := [e], nextOrd := Config.firstInternalOrd, tree := some (sentinelTree e.node) }
  | forest =>
    let r := mergeForest forest.length forest Config.firstInternalOrd
    { s with forest := r.1, nextOrd := r.2, tree := r.1.head?.map (·.node) }

/-! ### SERIALIZE -/

/-- `SERIALIZE(n)` (R110): pre-order, 1 for an internal node, 0 and the symbol for a leaf. -/
def serialize : Node → State → Res Unit
  | .internal l r, s =>
    (wbit true s).bind fun _ s => (serialize l s).bind fun _ s => serialize r s
  | .leaf sym _, s =>
    (wbit false s).bind fun _ s => wbits sym.toNat Config.symW s

/-! ### DESERIALIZE -/

/-- A node is complete: it becomes the left child of the innermost open node, or completes it as its
right child, and so on outwards. What is left of the stack, and the root if it is complete. -/
def closeFrames : List Frame → Node → List Frame × Option Node
  | [], n => ([], some n)
  | .needLeft :: st, n => (.needRight n :: st, none)
  | .needRight l :: st, n => closeFrames st (.internal l n)

/-- An internal record opens a node (R112, `b = 1`). -/
def State.openNode (s : State) : State := { s with stack := .needLeft :: s.stack }

/-- A leaf record completes a node (R112, `b = 0`); a complete root goes to `TREE`. -/
def State.closeNode (s : State) (n : Node) : State :=
  { s with
    stack := (closeFrames s.stack n).1
    tree := match (closeFrames s.stack n).2 with
      | some root => some root
      | none => s.tree }

/-- The count of node records started, from 0 at the root's record (R112, R113). -/
def State.countNode (s : State) : State :=
  { s with nodeCnt := if s.stack = [] then 1 else s.nodeCnt + 1 }

/-- The start of a node record: its flag bit, then the node count and its limit (R112, R113). -/
def nodeFlag (s : State) : Res Bool :=
  (rbit s).bind fun b s =>
    let s := s.countNode
    if s.nodeCap < s.nodeCnt then raise .capacityExceeded s else .ok b s

/-- Node records until the root is complete; at most `n` of them. -/
def nodeRecords : Nat → State → Res Unit
  | 0, s => .ok () s
  | n + 1, s =>
    (nodeFlag s).bind fun b s =>
      if b then nodeRecords n s.openNode
      else
        (rbits Config.symW s).bind fun v s =>
          let s := s.closeNode (.leaf (BitVec.ofNat 8 v) false)
          if s.stack = [] then .ok () s else nodeRecords n s

/-- `DESERIALIZE()` (R112), with the recursion held in `STACK` (R24, R119). The limit of R113 ends it
within NODE_CAP + 1 records. -/
def deserialize (s : State) : Res Unit :=
  nodeRecords (s.nodeCap + 1) { s with stack := [], nodeCnt := 0 }

/-! ### DERIVE -/

/-- `WALK(n, path)` (R115): the sentinel gets no code. -/
def walkCodes : Node → List Bool → Table CodeEntry → Table CodeEntry
  | .internal l r, path, t => walkCodes r (path ++ [true]) (walkCodes l (path ++ [false]) t)
  | .leaf sym false, path, t => t.put sym ⟨true, path⟩
  | .leaf _ true, _, t => t

/-- Every entry invalid (R115, first line). -/
def clearCodes (t : Table CodeEntry) : Table CodeEntry := t.mapAll fun e => { e with valid := false }

/-- `DERIVE(TREE)` (R115); `TREE` must be present. -/
def derive (s : State) : Res Unit :=
  match s.tree with
  | some root => .ok () { s with code := walkCodes root [] (clearCodes s.code) }
  | none => .refused .deriveWithoutTree

/-! ### RDSYM -/

/-- The walk of `RDSYM` from a node (R117), `CUR` going along. -/
def walkSymbol : Node → Nat → State → Res Byte
  | .leaf sym _, _, s => .ok sym s
  | .internal l r, limit, s =>
    if s.rdBitcnt = limit then raise .invalidHeader s
    else
      (rbit s).bind fun b s =>
        if b then walkSymbol r limit { s with cur := r } else walkSymbol l limit { s with cur := l }

/-- `RDSYM(root, end)` (R117), with its precondition: an internal root and a payload bit left
(R118, U18). -/
def rdsym (limit : Nat) (s : State) : Res Byte :=
  match s.tree with
  | some (.internal l r) =>
    if s.rdBitcnt < limit then walkSymbol (.internal l r) limit { s with cur := .internal l r }
    else .refused .rdsymOutsideDomain
  | some (.leaf _ _) => .refused .rdsymOutsideDomain
  | none => .refused .rdsymOutsideDomain

/-! ### The meanings -/

/-- `BUILD` (R100). It touches no stream and raises no fault. -/
def execBuild (s : State) : Host.Outcome State Fault Refusal := .next s.build

/-- `SERIALIZE` (R110). -/
def execSerialize (node : Node) (s : State) : Host.Outcome State Fault Refusal :=
  (serialize node s).toStep fun _ s => s

/-- `DESERIALIZE` (R112): the node goes to `TREE` (R140). -/
def execDeserialize (s : State) : Host.Outcome State Fault Refusal :=
  (deserialize s).toStep fun _ s => s

/-- `DERIVE` (R115). -/
def execDerive (s : State) : Host.Outcome State Fault Refusal :=
  (derive s).toStep fun _ s => s

/-- `RDSYM` (R117): the symbol goes to the result latch. -/
def execRdsym (limit : Nat) (s : State) : Host.Outcome State Fault Refusal :=
  (rdsym limit s).toStep fun v s => s.setRes v.toNat

end Sys2Proof.Machine
end

