-- ==== Sys2Proof/Machine/Codec.lean ====
section
/-!
DEFINITION. The container codec (42_codec.md): the meanings of `COUNT`, `EMIT` and `PATCH`, and the two
commands as one transition each (R7, D18): `ENCODE` (R131) and `DECODE` (R140), line by line.
-/
namespace Sys2Proof.Machine

/-! ### The sequencer's own micro-operations -/

/-- `FREQ[r] <- FREQ[r] + 1` (R132). -/
def State.tally (s : State) (r : Byte) : State :=
  { s with freq := s.freq.put r (s.freq.get r + 1) }

/-- The loop of `COUNT` (R132); at most `n` byte reads. -/
def countLoop : Nat → State → Res Unit
  | 0, s => .ok () s
  | n + 1, s =>
    (inbyte s).bind fun r s =>
      match r with
      | none => .ok () s
      | some v => countLoop n (s.tally v)

/-- `COUNT()` (R132). -/
def countIn (s : State) : Res Unit :=
  countLoop (s.inLen + 1) { s with freq := tableOf 0, inPos := 0 }

/-- The code word of a byte goes to the writer (R136). A byte without one is refused (R52, U7). -/
def emitSymbol (v : Byte) (s : State) : Res Unit :=
  if (s.code.get v).valid then wbitAll (s.code.get v).bits s else .refused (.emitWithoutCode v)

/-- The loop of `EMIT` (R136); at most `n` byte reads. -/
def emitLoop : Nat → State → Res Unit
  | 0, s => .ok () s
  | n + 1, s =>
    (inbyte s).bind fun r s =>
      match r with
      | none => .ok () s
      | some v => (emitSymbol v s).bind fun _ s => emitLoop n s

/-- `EMIT()` (R136). -/
def emit (s : State) : Res Unit := emitLoop (s.inLen + 1) { s with inPos := 0 }

/-- `PATCH(tb, db)` (R137). -/
def patch (tb db : Nat) (s : State) : Res Unit :=
  (wflush s).bind fun _ s =>
  (wseek 0 s).bind fun _ s =>
  (wbits tb Config.lenW s).bind fun _ s =>
  (wbits db Config.lenW s).bind fun _ s =>
  wflush s

/-! ### The latches between the steps of a command -/

/-- `HDR_TREE <- tb` with `tb` the growth of the bit cursor since `t0` (R131, R135). -/
def State.latchTree (s : State) (now : Nat) : State :=
  { s with tb := now - s.t0, hdrTree := BitVec.ofNat 32 (now - s.t0) }

/-- `db` is the growth of the bit cursor since `d0` (R131, R136). -/
def State.latchData (s : State) (now : Nat) : State := { s with db := now - s.d0 }

/-- Both header fields as read (R140, R141, D33). -/
def State.latchHeader (s : State) (db : Nat) : State :=
  { s with db := db, hdrTree := BitVec.ofNat 32 s.tb, hdrData := BitVec.ofNat 32 db }

/-! ### ENCODE -/

/-- `E_EMPTY` (R131, R133). -/
def encodeEmpty (s : State) : Res Unit :=
  (wbits 0 Config.lenW s).bind fun _ s =>
  (wbits 0 Config.lenW s).bind fun _ s =>
  (wflush s).bind fun _ s =>
  .ok () s.complete

/-- `E_PATCH` (R131, R137, R138). -/
def encodePatch (s : State) : Res Unit :=
  if 2 ^ Config.lenW ≤ s.db then raise .lengthOverflow s
  else
    (patch s.tb s.db { s with hdrData := BitVec.ofNat 32 s.db }).bind fun _ s => .ok () s.complete

/-- The seven steps of `ENCODE` from the state `START(0)` leaves (R131). -/
def encodeBody (s : State) : Res Unit :=
  (countIn s).bind fun _ s =>
  let s := s.build
  match s.tree with
  | none => encodeEmpty s
  | some root =>
    (wseek Config.hdrBytes s).bind fun _ s =>
    (serialize root { s with t0 := s.wrBitcnt }).bind fun _ s =>
    (derive (s.latchTree s.wrBitcnt)).bind fun _ s =>
    (emit { s with d0 := s.wrBitcnt }).bind fun _ s =>
    encodePatch (s.latchData s.wrBitcnt)

/-! ### DECODE -/

/-- The symbol loop of `D_PAYLOAD` (R140, R143); at most `n` symbols. -/
def payloadLoop : Nat → State → Res Unit
  | 0, s => .ok () s
  | n + 1, s =>
    if s.rdBitcnt < s.payEnd then
      (rdsym s.payEnd s).bind fun v s => (outbyte v s).bind fun _ s => payloadLoop n s
    else .ok () s

/-- Is the root of `TREE` a leaf (R118)? -/
def rootIsLeaf (s : State) : Bool :=
  match s.tree with
  | some (.leaf _ _) => true
  | some (.internal _ _) => false
  | none => false

/-- `D_PAYLOAD` (R140, R143). Each symbol takes at least one of the `db` bits. -/
def decodePayload (s : State) : Res Unit :=
  if s.db ≠ 0 ∧ rootIsLeaf s then raise .invalidHeader s
  else
    (payloadLoop s.db { s with payEnd := s.rdBitcnt + s.db }).bind fun _ s => .ok () s.complete

/-- `D_TREE` with its cross-check (R140, R142), and what follows. -/
def decodeTree (s : State) : Res Unit :=
  (deserialize { s with t0 := s.rdBitcnt }).bind fun _ s =>
  if s.rdBitcnt - s.t0 ≠ s.tb then raise .invalidHeader s else decodePayload s

/-- The steps of `DECODE` from the state `START(1)` leaves (R140, R141). -/
def decodeBody (s : State) : Res Unit :=
  (rbits Config.lenW s).bind fun tb s =>
  (rbits Config.lenW { s with tb := tb }).bind fun db s =>
  let s := s.latchHeader db
  if s.tb = 0 then
    if s.db ≠ 0 then raise .invalidHeader s else .ok () s.complete
  else decodeTree s

/-! ### The meanings -/

/-- `COUNT` (R132). -/
def execCount (s : State) : Host.Outcome State Fault Refusal :=
  (countIn s).toStep fun _ s => s

/-- `EMIT` (R136). -/
def execEmit (s : State) : Host.Outcome State Fault Refusal :=
  (emit s).toStep fun _ s => s

/-- `PATCH` (R137). -/
def execPatch (tb db : Nat) (s : State) : Host.Outcome State Fault Refusal :=
  (patch tb db s).toStep fun _ s => s

/-- `ENCODE` (R131) as one transition: `START(0)` (R130), ignored while `BUSY`, then the steps. -/
def execEncode (s : State) : Host.Outcome State Fault Refusal :=
  if s.status = .busy then .next s
  else (encodeBody (start 0#1 s)).toStep fun _ s => s

/-- `DECODE` (R140) as one transition: `START(1)` (R130), ignored while `BUSY`, then the steps. -/
def execDecode (s : State) : Host.Outcome State Fault Refusal :=
  if s.status = .busy then .next s
  else (decodeBody (start 1#1 s)).toStep fun _ s => s

end Sys2Proof.Machine
end

