-- ==== Sys2Proof/Machine/Records.lean ====
section
/-!
DEFINITION. The container's records (30_encoding.md) as the decoder takes them in: a record advances
the bit reader by its length and then has the effect its content has in `RBITS(32)`, `DESERIALIZE` or
`RDSYM`. Those micro-operations read the same records bit by bit; the shared operations are theirs.
-/
namespace Sys2Proof.Machine

/-- The reader passes `n` bits of the record at its position. -/
def skipBits : Nat → State → Res Unit
  | 0, s => .ok () s
  | n + 1, s => (rbit s).bind fun _ s => skipBits n s

/-- `HDR.TREEBITLEN` (R61): the first header field (R141, `tb <- RBITS(32)`). -/
def execHdrTreebitlen (v : Word32) (s : State) : Host.Outcome State Fault Refusal :=
  (skipBits Config.lenW s).toStep fun _ s => { s with tb := v.toNat }

/-- `HDR.DATABITLEN` (R61): the second header field; both are latched once both are read, before any
check (R141, D33). -/
def execHdrDatabitlen (v : Word32) (s : State) : Host.Outcome State Fault Refusal :=
  (skipBits Config.lenW s).toStep fun _ s =>
    { s with db := v.toNat, hdrTree := BitVec.ofNat 32 s.tb, hdrData := v }

/-- `NODE.INTERNAL` (R63): `DESERIALIZE` opens a node and goes to its left child (R112). -/
def execNodeInternal (s : State) : Host.Outcome State Fault Refusal :=
  (nodeFlag s).toStep fun _ s => s.openNode

/-- `NODE.LEAF` (R63): `DESERIALIZE` makes a leaf that is no sentinel (R112). -/
def execNodeLeaf (sym : Byte) (s : State) : Host.Outcome State Fault Refusal :=
  ((nodeFlag s).bind fun _ s => skipBits Config.symW s).toStep fun _ s => s.closeNode (.leaf sym false)

/-- The internal node a bit of a code word is taken at: `CUR`, or the root of `TREE` when `CUR` is a
leaf, where a code word has ended and the next begins (R64, R65, R117). -/
def pathNode (s : State) : Option (Node × Node) :=
  match s.cur with
  | .internal l r => some (l, r)
  | .leaf _ _ =>
    match s.tree with
    | some (.internal l r) => some (l, r)
    | some (.leaf _ _) => none
    | none => none

/-- One turn of the loop of `RDSYM` (R117) with the bit `b`. -/
def pathStep (b : Bool) (s : State) : Res Unit :=
  match pathNode s with
  | some (l, r) =>
    if s.rdBitcnt = s.payEnd then raise .invalidHeader s
    else (rbit s).bind fun _ s => .ok () { s with cur := if b then r else l }
  | none => .refused .pathWithoutNode

/-- `PATH.LEFT` (R65): step to the left child. -/
def execPathLeft (s : State) : Host.Outcome State Fault Refusal :=
  (pathStep false s).toStep fun _ s => s

/-- `PATH.RIGHT` (R65): step to the right child. -/
def execPathRight (s : State) : Host.Outcome State Fault Refusal :=
  (pathStep true s).toStep fun _ s => s

/-- `PAD` (R66): the decoder never reads the padding (R72 (a)), so nothing changes. -/
def execPad (s : State) : Host.Outcome State Fault Refusal := .next s

end Sys2Proof.Machine
end

