-- ==== Sys2Proof/Machine/Dispatch.lean ====
section
/-!
DEFINITION. One arm per operation of the opcode table: a direct call of its meaning.
-/
namespace Sys2Proof.Machine

def exec (i : Instr) (s : State) : Host.Outcome State Fault Refusal :=
  match i with
  | .encode => Sys2Proof.Machine.execEncode s
  | .decode => Sys2Proof.Machine.execDecode s
  | .rbit => Sys2Proof.Machine.execRbit s
  | .rbits n => Sys2Proof.Machine.execRbits n s
  | .wbit b => Sys2Proof.Machine.execWbit b s
  | .wbits v n => Sys2Proof.Machine.execWbits v n s
  | .wtell => Sys2Proof.Machine.execWtell s
  | .wseek a => Sys2Proof.Machine.execWseek a s
  | .wflush => Sys2Proof.Machine.execWflush s
  | .build => Sys2Proof.Machine.execBuild s
  | .serialize n => Sys2Proof.Machine.execSerialize n s
  | .deserialize => Sys2Proof.Machine.execDeserialize s
  | .derive => Sys2Proof.Machine.execDerive s
  | .rdsym e => Sys2Proof.Machine.execRdsym e s
  | .count => Sys2Proof.Machine.execCount s
  | .emit => Sys2Proof.Machine.execEmit s
  | .patch tb db => Sys2Proof.Machine.execPatch tb db s
  | .hdrTreebitlen v => Sys2Proof.Machine.execHdrTreebitlen v s
  | .hdrDatabitlen v => Sys2Proof.Machine.execHdrDatabitlen v s
  | .nodeInternal => Sys2Proof.Machine.execNodeInternal s
  | .nodeLeaf b => Sys2Proof.Machine.execNodeLeaf b s
  | .pathLeft => Sys2Proof.Machine.execPathLeft s
  | .pathRight => Sys2Proof.Machine.execPathRight s
  | .pad => Sys2Proof.Machine.execPad s

end Sys2Proof.Machine
end

