-- ==== Sys2Proof/Machine/Flags.lean ====
section
/-!
DEFINITION. The block has no flags, no condition codes and no predicates (R27), so no operation
writes one. What stands here is what the host sees of STATUS, ERR and PHASE: their numbers (R12, R13,
R17) and the two level outputs derived from STATUS (R159).
-/
namespace Sys2Proof.Machine

/-- The number of a `STATUS` value (R12). -/
def Status.code : Status → Nat
  | .idle => 0
  | .busy => 1
  | .done => 2
  | .fault => 3

/-- The number of an `ERR` value (R13). -/
def Err.code : Err → Nat
  | .none => 0
  | .ioError => 1
  | .truncatedContainer => 2
  | .invalidHeader => 3
  | .lengthOverflow => 4
  | .capacityExceeded => 5

/-- The number of a `PHASE` value (R17). -/
def Phase.code : Phase → Nat
  | .idle => 0
  | .eCount => 1
  | .eBuild => 2
  | .eEmpty => 3
  | .eReserve => 4
  | .eTree => 5
  | .eDerive => 6
  | .eEmit => 7
  | .ePatch => 8
  | .dHeader => 9
  | .dTree => 10
  | .dPayload => 11
  | .halt => 12

/-- The level output `done` (R159). -/
def State.doneOut (s : State) : Bool := decide (s.status = .done)

/-- The level output `fault` (R159). -/
def State.faultOut (s : State) : Bool := decide (s.status = .fault)

end Sys2Proof.Machine
end

