-- ==== Sys2Proof/Machine/HostPort.lean ====
section
/-!
DEFINITION. The host's side of the block: the register numbers, reads and writes of R29, and what the
host may do in each state of the block (R181).
-/
namespace Sys2Proof.Machine

/-- The register numbers (R29). -/
def HostReg.index : HostReg → Nat
  | .ctrl => 0
  | .status => 1
  | .err => 2
  | .hdrTree => 3
  | .hdrData => 4
  | .outLen => 5
  | .inLen => 6
  | .phase => 7

/-- What a read of a register returns (R29). Reads have no side effects. -/
def readReg (r : HostReg) (s : State) : Nat :=
  match r with
  | .ctrl => s.op.toNat
  | .status => s.status.code
  | .err => s.err.code
  | .hdrTree => s.hdrTree.toNat
  | .hdrData => s.hdrData.toNat
  | .outLen => s.outLen
  | .inLen => s.inLen
  | .phase => s.phase.code

/-- A write to `IN_LEN` (R29), which the host must not make while `BUSY` (R181). -/
def writeInLen (v : Nat) (s : State) : Host.Outcome State Fault Refusal :=
  if s.status = .busy then .refused .hostWhileBusy else .next { s with inLen := v }

/-- A write to a register (R29): `CTRL` starts a command with bit 0 of the value (R130), `IN_LEN`
takes it, a write to a read-only register is ignored. -/
def writeReg (r : HostReg) (v : Nat) (s : State) : Host.Outcome State Fault Refusal :=
  match r with
  | .ctrl => .next (start (BitVec.ofBool (v.testBit 0)) s)
  | .status => .next s
  | .err => .next s
  | .hdrTree => .next s
  | .hdrData => .next s
  | .outLen => .next s
  | .inLen => writeInLen v s
  | .phase => .next s

/-- The host places a byte of `IN` (R173), not while `BUSY` (R176, R181). -/
def placeIn (a : Nat) (v : Byte) (s : State) : Host.Outcome State Fault Refusal :=
  if s.status = .busy then .refused .hostWhileBusy else .next { s with inp := s.inp.write a v }

/-- The host prepares a byte of `OUT`, not while `BUSY` (R181). -/
def placeOut (a : Nat) (v : Byte) (s : State) : Host.Outcome State Fault Refusal :=
  if s.status = .busy then .refused .hostWhileBusy else .next { s with out := s.out.write a v }

/-- The host reads a byte of the result, below `OUT_LEN` and not while `BUSY` (R8, R181). -/
def readOut (a : Nat) (s : State) : Host.Outcome State Fault Refusal :=
  if s.status = .busy then .refused .hostWhileBusy
  else if a < s.outLen then .next { s with hostRd := (s.out.read a).toNat }
  else .refused .hostReadBeyondOutLen

end Sys2Proof.Machine
end

