-- ==== Sys2Proof/Machine/Sequencer.lean ====
section
/-!
DEFINITION. The sequencer (42_codec.md): what it does between two micro-operations of a running
command. It issues the next micro-operation of R131 or R140 into the instruction latch and the operand
registers (R69), takes in the result of the one before, and moves `PHASE` by the table of R148.
-/
namespace Sys2Proof.Machine

/-- Issue a micro-operation: its select code and its operands (R69); the phase's next step is `k`. -/
def State.issue (s : State) (i : Instr) (k : Nat) : State :=
  { s with ir := some (encode i).word, opnd := (encode i).opnd, useq := k }

/-- Move to a phase (R148). -/
def State.goTo (s : State) (p : Phase) : State := { s with phase := p, useq := 0 }

/-- `E_BUILD` after `BUILD` returned (R148). -/
def afterBuild (s : State) : State :=
  match s.tree with
  | none => s.goTo .eEmpty
  | some _ => s.goTo .eReserve

/-- `E_TREE` issues `SERIALIZE(TREE)` (R131, R135). -/
def issueSerialize (s : State) : Host.Outcome State Fault Refusal :=
  match s.tree with
  | some root => .next ({ s with t0 := s.res }.issue (.serialize root) 2)
  | none => .refused .noSequencerMove

/-- `E_PATCH` tests the length, latches it and issues `PATCH` (R131, R138). -/
def issuePatch (s : State) : State :=
  if 2 ^ Config.lenW ≤ s.db then s.faultEntry .lengthOverflow
  else { s with hdrData := BitVec.ofNat 32 s.db }.issue (.patch s.tb s.db) 1

/-- `D_HEADER` after both fields are read (R140, R141). -/
def afterHeader (s : State) : State :=
  let s := s.latchHeader s.res
  if s.tb = 0 then
    if s.db ≠ 0 then s.faultEntry .invalidHeader else s.complete
  else s.goTo .dTree

/-- `D_TREE` after `DESERIALIZE` returned: the cross-check (R142). -/
def afterTree (s : State) : State :=
  if s.rdBitcnt - s.t0 ≠ s.tb then s.faultEntry .invalidHeader else s.goTo .dPayload

/-- `D_PAYLOAD` before the symbol loop (R143). -/
def beforePayload (s : State) : State :=
  if s.db ≠ 0 ∧ rootIsLeaf s then s.faultEntry .invalidHeader
  else { s with payEnd := s.rdBitcnt + s.db, useq := 1 }

/-- The head of the symbol loop (R143). -/
def payloadHead (s : State) : State :=
  if s.rdBitcnt < s.payEnd then s.issue (.rdsym s.payEnd) 2 else s.complete

/-- The tail of the symbol loop: `OUTBYTE(s)` (R140, R143). -/
def payloadTail (s : State) : Host.Outcome State Fault Refusal :=
  (outbyte (BitVec.ofNat 8 s.res) s).toStep fun _ s => { s with useq := 1 }

/-- The sequencer's move in a running command, by phase and place within the phase (R131, R140,
R148). -/
def sequence (s : State) : Host.Outcome State Fault Refusal :=
  match s.phase, s.useq with
  | .eCount, 0 => .next (s.issue .count 1)
  | .eCount, 1 => .next (s.goTo .eBuild)
  | .eBuild, 0 => .next (s.issue .build 1)
  | .eBuild, 1 => .next (afterBuild s)
  | .eEmpty, 0 => .next (s.issue (.wbits 0 Config.lenW) 1)
  | .eEmpty, 1 => .next (s.issue (.wbits 0 Config.lenW) 2)
  | .eEmpty, 2 => .next (s.issue .wflush 3)
  | .eEmpty, 3 => .next s.complete
  | .eReserve, 0 => .next (s.issue (.wseek Config.hdrBytes) 1)
  | .eReserve, 1 => .next (s.goTo .eTree)
  | .eTree, 0 => .next (s.issue .wtell 1)
  | .eTree, 1 => issueSerialize s
  | .eTree, 2 => .next (s.issue .wtell 3)
  | .eTree, 3 => .next ((s.latchTree s.res).goTo .eDerive)
  | .eDerive, 0 => .next (s.issue .derive 1)
  | .eDerive, 1 => .next (s.goTo .eEmit)
  | .eEmit, 0 => .next (s.issue .wtell 1)
  | .eEmit, 1 => .next ({ s with d0 := s.res }.issue .emit 2)
  | .eEmit, 2 => .next (s.issue .wtell 3)
  | .eEmit, 3 => .next ((s.latchData s.res).goTo .ePatch)
  | .ePatch, 0 => .next (issuePatch s)
  | .ePatch, 1 => .next s.complete
  | .dHeader, 0 => .next (s.issue (.rbits Config.lenW) 1)
  | .dHeader, 1 => .next ({ s with tb := s.res }.issue (.rbits Config.lenW) 2)
  | .dHeader, 2 => .next (afterHeader s)
  | .dTree, 0 => .next ({ s with t0 := s.rdBitcnt }.issue .deserialize 1)
  | .dTree, 1 => .next (afterTree s)
  | .dPayload, 0 => .next (beforePayload s)
  | .dPayload, 1 => .next (payloadHead s)
  | .dPayload, 2 => payloadTail s
  | _, _ => .refused .noSequencerMove

end Sys2Proof.Machine
end

