-- ==== Sys2Proof/Machine/Fetch.lean ====
section
/-!
DEFINITION. What one step does: the operation in the instruction latch, a move of the sequencer, or an
action of the host (R181). A micro-operation is one step (D18).
-/
namespace Sys2Proof.Machine

/-- Run the operation in the instruction latch, which is emptied. -/
def runLatch (w : IWord) (s : State) : Host.Outcome State Fault Refusal :=
  match decode w s.opnd with
  | .ok i _ => exec i { s with ir := none }
  | .reject e => .refused (.undecodable e)

/-- The block advances by one micro-operation or one move of its sequencer (D18). -/
def advance (s : State) : Host.Outcome State Fault Refusal :=
  match s.ir with
  | some w => runLatch w s
  | none => if s.status = .busy then sequence s else .next s

/-- The host acts (R181). -/
def hostAct (a : HostAct) (s : State) : Host.Outcome State Fault Refusal :=
  match a with
  | .wait => advance s
  | .reset => .next s.doReset
  | .readReg r => .next { s with hostRd := readReg r s }
  | .writeReg r v => writeReg r v s
  | .placeIn a v => placeIn a v s
  | .placeOut a v => placeOut a v s
  | .readOut a => readOut a s

end Sys2Proof.Machine
end

