-- ==== Sys2Proof/Machine/Step.lean ====
section
/-!
DEFINITION. One step of the machine. The host's action comes first, where it has one for this step;
else the operation in the instruction latch is decoded and run; else, while `BUSY`, the sequencer
moves; else nothing changes (R8).
-/
namespace Sys2Proof.Machine

/-- One step. -/
def step (s : State) : Host.Outcome State Fault Refusal :=
  match s.hostQ with
  | a :: q => hostAct a { s with hostQ := q }
  | [] => advance s

/-- `s` with the operation of an opcode-table row where the next step fetches: in the instruction
latch and the operand registers, with no action of the host before it (log entry 9). -/
def State.withFetchWord (s : State) (nbits w : Nat) : State :=
  { s with ir := some (tableWord nbits w), opnd := tableOperands, hostQ := [] }

end Sys2Proof.Machine
end

