-- ==== Sys2Proof/Safety.lean ====
section
/-!
DEFINITION. The terms the claims use: the bits a tree, a stream or an input stands for (R9, R62, R64,
R65), a run in which no stream access fails (R53), what appending bits to the writer leaves (R89), and
the invariant of the machine (R12, R13, R17, R18, R19).
-/
namespace Sys2Proof.Machine

/-! ### Trees as the container writes them -/

/-- How many leaves a tree has. -/
def leafCount : Node → Nat
  | .leaf _ _ => 1
  | .internal l r => leafCount l + leafCount r

/-- How many nodes a tree has. -/
def nodeCount : Node → Nat
  | .leaf _ _ => 1
  | .internal l r => nodeCount l + nodeCount r + 1

/-- The depth of a tree (R21). -/
def depth : Node → Nat
  | .leaf _ _ => 0
  | .internal l r => max (depth l) (depth r) + 1

/-- The leaves of a tree from left to right: symbol and sentinel flag. -/
def leavesOf : Node → List (Byte × Bool)
  | .leaf sym sentinel => [(sym, sentinel)]
  | .internal l r => leavesOf l ++ leavesOf r

/-- The symbols of the leaves that are no sentinel, from left to right. -/
def realSymbols (n : Node) : List Byte := ((leavesOf n).filter fun p => !p.2).map Prod.fst

/-- The serialization of a tree (R62, R63). -/
def serialBits : Node → List Bool
  | .internal l r => true :: (serialBits l ++ serialBits r)
  | .leaf sym _ => false :: byteBits sym

/-- The grammar of R62: the bit strings that are a serialized node. -/
inductive SerializedNode : List Bool → Prop where
  | leaf (sym : Byte) : SerializedNode (false :: byteBits sym)
  | internal (l r : List Bool) : SerializedNode l → SerializedNode r → SerializedNode (true :: (l ++ r))

/-- The tree with every sentinel flag off: what a decoder can know of it (R63, R112). -/
def plainTree : Node → Node
  | .leaf sym _ => .leaf sym false
  | .internal l r => .internal (plainTree l) (plainTree r)

/-- The node a path leads to, 0 for left and 1 for right, root end first (R65). -/
def nodeAt : List Bool → Node → Option Node
  | [], n => some n
  | true :: path, .internal _ r => nodeAt path r
  | false :: path, .internal l _ => nodeAt path l
  | _ :: _, .leaf _ _ => none

/-- The sum over symbols of count times depth of the leaf (R105 (g)): what a tree costs in bits. -/
def costFrom (freq : Table Nat) : Node → Nat → Nat
  | .leaf sym _, d => freq.get sym * d
  | .internal l r, d => costFrom freq l (d + 1) + costFrom freq r (d + 1)

/-! ### Streams as bits and bytes -/

/-- The bytes of `IN` (R25). -/
def inBytes (s : State) : List Byte := (List.range s.inLen).map s.inp.read

/-- The bytes of `OUT` the command made valid (R15). -/
def outBytes (s : State) : List Byte := (List.range s.outLen).map s.out.read

/-- A byte sequence read as a bit string (R9). -/
def bytesBits (bs : List Byte) : List Bool := bs.flatMap byteBits

/-- The bits the bit reader has before it: what is left of `RD_BYTE`, then the bytes of `IN` from
`IN_POS` on (R18, R9). -/
def readerBits (s : State) : List Bool :=
  (List.range s.rdNbits).reverse.map (bitOf s.rdByte) ++ bytesBits ((inBytes s).drop s.inPos)

/-- The code words of a byte sequence, one after the other (R64). -/
def payloadBits (code : Table CodeEntry) (bs : List Byte) : List Bool :=
  bs.flatMap fun b => (code.get b).bits

/-- How often a symbol occurs, by symbol (R20). -/
def tallies (bs : List Byte) (b : Byte) : Nat := bs.count b

/-- How many symbols have a count (L of R105). -/
def symbolCount (freq : Table Nat) : Nat := (symbols.filter fun b => decide (0 < freq.get b)).length

/-- The sum of all counts (R20). -/
def freqTotal (freq : Table Nat) : Nat := (symbols.map freq.get).sum

/-! ### What an input encodes to -/

/-- The counts of a byte sequence (R132). -/
def freqOf (bs : List Byte) : Table Nat := bs.foldl (fun t b => t.put b (t.get b + 1)) (tableOf 0)

/-- `BUILD` of the counts of `IN`: T of R139. -/
def inputTree (s : State) : Option Node := { s with freq := freqOf (inBytes s) }.build.tree

/-- S of R139: the serialization of T, empty for the absent tree (R62). -/
def inputTreeBits (s : State) : List Bool :=
  match inputTree s with
  | some root => serialBits root
  | none => []

/-- P of R139: the code words of the bytes of `IN` by the paths of T. -/
def inputPayload (s : State) : List Bool :=
  match inputTree s with
  | some root => payloadBits (walkCodes root [] (tableOf ⟨false, []⟩)) (inBytes s)
  | none => []

/-- The zero bits up to the next byte boundary: Z of R139 (R66). -/
def padBits (n : Nat) : List Bool := List.replicate ((8 - n % 8) % 8) false

/-- A payload: pieces that are each the path from the root to a leaf, with the leaf's symbol (R64, R65,
R144). -/
def codeWords (root : Node) (words : List (List Bool × Byte)) : Prop :=
  ∀ w ∈ words, ∃ flag, nodeAt w.1 root = some (.leaf w.2 flag)

/-- The bits of a payload in pieces. -/
def wordBits (words : List (List Bool × Byte)) : List Bool := words.flatMap Prod.fst

/-- The node records of a tree in pre-order (R62, R63). -/
def treeRecords : Node → List Instr
  | .leaf sym _ => [.nodeLeaf sym]
  | .internal l r => .nodeInternal :: (treeRecords l ++ treeRecords r)

/-- Run operations one after the other, stopping at a fault or a refusal. -/
def execAll : List Instr → State → Host.Outcome State Fault Refusal
  | [], s => .next s
  | i :: is, s =>
    match exec i s with
    | .next t => execAll is t
    | .fault e => .fault e
    | .refused e => .refused e

/-! ### A run's premises -/

/-- No stream access to come fails (R53): the premise of every claim that a command ends in `DONE`. -/
abbrev noFail (s : State) : Prop := ∀ b ∈ s.envFail, b = false

/-- The bit reader holds less than a byte and its cursor is within `IN` (R18, R54). -/
abbrev readerOk (s : State) : Prop := s.rdNbits ≤ 7 ∧ s.inPos ≤ s.inLen

/-- `t` is `s` but for the bit reader's registers, which only `RBIT` writes (R18), and the environment's
outcomes used up. -/
abbrev readOnly (s t : State) : Prop :=
  t = { s with rdByte := t.rdByte, rdNbits := t.rdNbits, rdBitcnt := t.rdBitcnt, inPos := t.inPos, envFail := t.envFail }

/-- `t` is `s` after the bit reader took the bits `bs`, with `rest` before it (R81, R9). -/
def consumed (bs rest : List Bool) (s t : State) : Prop :=
  readerBits s = bs ++ rest ∧ readerBits t = rest ∧ t.rdBitcnt = s.rdBitcnt + bs.length

/-- A command ended with the fault `k` (R156). -/
abbrev endedIn (k : Err) (t : State) : Prop := t.status = .fault ∧ t.err = k ∧ t.phase = .halt

/-- A command ended without a fault (R8). -/
abbrev endedOk (t : State) : Prop := t.status = .done ∧ t.err = .none ∧ t.phase = .halt

/-- The bit reader stands where only it has moved `IN_POS` (R90), with a byte of `IN` in `RD_BYTE`. -/
abbrev readerAligned (s : State) : Prop :=
  s.rdBitcnt + s.rdNbits = 8 * s.inPos ∧ s.rdNbits < 8 ∧ s.inPos ≤ s.inLen ∧
    (0 < s.rdNbits → s.rdByte = s.inp.read (s.inPos - 1))

/-! ### The writer -/

/-- The bytes complete in a bit string that starts on a byte boundary, packed first bit in bit 7
(R41, R89). -/
def packedByte (bs : List Bool) (i : Nat) : Byte := byteOfBits ((bs.drop (8 * i)).take 8)

/-- `t` is `s` after the bits `bs` went to the writer (R89): the bits pending before and these, packed
into bytes from `OUT_POS` on, what does not fill a byte pending, the cursors moved on; and nothing
else. Only the environment's outcomes used up and `IN_POS` are left to the statement that uses it. -/
def appended (bs : List Bool) (s t : State) : Prop :=
  t = { s with
        out := t.out, envFail := t.envFail, inPos := t.inPos
        outPos := s.outPos + (s.wrAcc ++ bs).length / 8
        outLen := if (s.wrAcc ++ bs).length < 8 then s.outLen
          else max s.outLen (s.outPos + (s.wrAcc ++ bs).length / 8)
        wrAcc := (s.wrAcc ++ bs).drop (8 * ((s.wrAcc ++ bs).length / 8))
        wrBitcnt := s.wrBitcnt + bs.length } ∧
  ∀ a, t.out.read a =
    if s.outPos ≤ a ∧ a < s.outPos + (s.wrAcc ++ bs).length / 8 then packedByte (s.wrAcc ++ bs) (a - s.outPos)
    else s.out.read a

/-! ### The invariant -/

/-- The phases in which a command runs (R17). -/
def Phase.runs : Phase → Bool
  | .idle => false
  | .halt => false
  | .eCount => true
  | .eBuild => true
  | .eEmpty => true
  | .eReserve => true
  | .eTree => true
  | .eDerive => true
  | .eEmit => true
  | .ePatch => true
  | .dHeader => true
  | .dTree => true
  | .dPayload => true

/-- `STATUS`, `ERR` and `PHASE` agree (R12, R13, R17): `ERR` names a fault exactly in `FAULT`, and a
phase runs exactly while `BUSY`. -/
abbrev statusOk (s : State) : Prop :=
  match s.status with
  | .idle => s.err = .none ∧ s.phase = .idle
  | .busy => s.err = .none ∧ s.phase.runs = true
  | .done => s.err = .none ∧ s.phase = .halt
  | .fault => s.err ≠ .none ∧ s.phase = .halt

/-- `WR_NBITS` is 0 to 7 (R19), but for a `WBIT` whose byte write failed, which ends the command with
the eighth bit in the buffer (R84, R156). -/
abbrev writerOk (s : State) : Prop := s.wrNbits ≤ 7 ∨ (s.status = .fault ∧ s.ir = none)

/-- The invariant every step keeps. -/
abbrev Inv (s : State) : Prop :=
  s.inp.wf ∧ s.out.wf ∧ statusOk s ∧ writerOk s ∧ s.rdNbits ≤ 7

/-- The moves of `PHASE` between the phases of a running command (R148). -/
def phaseMoves : List (Phase × Phase) :=
  [(.eCount, .eBuild), (.eBuild, .eEmpty), (.eBuild, .eReserve), (.eReserve, .eTree), (.eTree, .eDerive),
    (.eDerive, .eEmit), (.eEmit, .ePatch), (.dHeader, .dTree), (.dTree, .dPayload)]

/-- The phases that end a command in `DONE` (R148). -/
def donePhases : List Phase := [.eEmpty, .ePatch, .dHeader, .dPayload]

/-- The spec's own state (R10), the model's own latches blanked: what a command's run as one
transition and its run step by step have in common (R7, D18). -/
def State.block (s : State) : State := { s with useq := 0, res := 0, ir := none, opnd := noOperands }

/-- `n` steps, stopping at a fault or a refusal. -/
def steps : Nat → State → Host.Outcome State Fault Refusal
  | 0, s => .next s
  | n + 1, s =>
    match step s with
    | .next t => steps n t
    | .fault e => .fault e
    | .refused e => .refused e

end Sys2Proof.Machine
end

