-- ==== Sys2Proof/Certificates/Slice0/Obligations.lean ====
section
/-!
DEFINITION. The statements for the provers. Each docstring names the rules it formalises; a clause that
rests on a choice of the model names the log entry.
-/
open Sys2Proof Sys2Proof.Machine

/-! ### Encodings and the step -/

/-- R61, R63, R65, R66, R68, R69 and R73: decoding an operation's word, whatever bits follow, gives the
operation back with every operand, and leaves exactly the bits that follow. -/
def Obligations.EncodeThenDecodeGivesTheOperation : Prop :=
  ∀ (i : Instr) (rest : List Bool), i.wellFormed = true →
    decode ⟨(encode i).word.fmt, (encode i).word.bits ++ rest⟩ (encode i).opnd = .ok i rest

/-- R63 and R73: the other direction. What the decoder reads from a word is an operation of the word's
format, and the bits it took are that operation's word; a padding bit may also be 1 (R72 (a)). -/
def Obligations.DecodedBitsAreTheOperationsWord : Prop :=
  ∀ (w : IWord) (r : Operands) (i : Instr) (rest : List Bool), decode w r = .ok i rest →
    i.format = w.fmt ∧ w.bits.length = i.width + rest.length ∧
      (i ≠ .pad → w.bits = (encode i).word.bits ++ rest)

/-- Words written out from the tables of R61, R63, R65, R68 and R69 decode to what they stand for: 19 as
either header field, both node records, both bits of a code word, both commands and some select codes;
and `UOPSEL = 0000` selects nothing. -/
def Obligations.WordsOfTheSpecDecode : Prop :=
  decode ⟨.cmd, [false]⟩ noOperands = .ok .encode [] ∧
  decode ⟨.cmd, [true]⟩ noOperands = .ok .decode [] ∧
  decode ⟨.uop, [false, false, false, true]⟩ noOperands = .ok .rbit [] ∧
  decode ⟨.uop, [true, true, false, false]⟩ { noOperands with limit := 87 } = .ok (.rdsym 87) [] ∧
  decode ⟨.uop, [true, true, true, true]⟩ { noOperands with tb := 19, db := 4 } = .ok (.patch 19 4) [] ∧
  decode ⟨.hdrTree, List.replicate 27 false ++ [true, false, false, true, true]⟩ noOperands =
    .ok (.hdrTreebitlen 19) [] ∧
  decode ⟨.hdrData, List.replicate 27 false ++ [true, false, false, true, true]⟩ noOperands =
    .ok (.hdrDatabitlen 19) [] ∧
  decode ⟨.node, [true, false]⟩ noOperands = .ok .nodeInternal [false] ∧
  decode ⟨.node, [false, false, true, true, false, false, false, true, false, true]⟩ noOperands =
    .ok (.nodeLeaf 0x62) [true] ∧
  decode ⟨.path, [false]⟩ noOperands = .ok .pathLeft [] ∧
  decode ⟨.path, [true]⟩ noOperands = .ok .pathRight [] ∧
  decode ⟨.uop, [false, false, false, false]⟩ noOperands = .reject .uopNone

/-- The next step of a silent host (or one that waits) runs the operation in the instruction latch, which
it empties; and the operation the sequencer issues is the one the next step runs. R69 gives the select
codes and D18 makes a micro-operation one step. That the operation and its operands stand in latches is
the model's (log entry 18), and so is that the latched operation runs whatever `STATUS` is (log entry
17): by R3 only the sequencer of a running command issues one. -/
def Obligations.StepRunsTheLatchedOperation : Prop :=
  (∀ (s : State) (w : IWord) (i : Instr) (rest : List Bool),
    s.ir = some w → decode w s.opnd = .ok i rest →
      (s.hostQ = [] → step s = exec i { s with ir := none }) ∧
      (∀ q, s.hostQ = .wait :: q → step s = exec i { s with ir := none, hostQ := q })) ∧
  (∀ (s : State) (i : Instr) (k : Nat), i.wellFormed = true → s.hostQ = [] →
    step (s.issue i k) = exec i { s with opnd := (encode i).opnd, useq := k, ir := none })

/-! ### The port primitives -/

/-- R80: `INBYTE`. A failed access raises `IOError` and has no other effect than that its outcome is
used up; at the end of `IN` it returns `end` and the cursor stays; else it returns the byte and the
cursor goes on by one. -/
def Obligations.InbyteReadsTheNextByte : Prop :=
  ∀ s : State,
    (s.envFails = true → inbyte s = .halted
      { s with envFail := s.envFail.tail, err := .ioError, status := .fault, phase := .halt }) ∧
    (s.envFails = false → s.inPos = s.inLen → inbyte s = .ok none { s with envFail := s.envFail.tail }) ∧
    (s.envFails = false → s.inPos < s.inLen → inbyte s = .ok (some (s.inp.read s.inPos))
      { s with envFail := s.envFail.tail, inPos := s.inPos + 1 })

/-- R83: `OUTBYTE`. A failed access raises `IOError` and stores nothing; else the byte stands at the
write cursor, every other byte is what it was, `OUT_LEN` is raised if the index is not below it, and
the cursor goes on by one. -/
def Obligations.OutbyteWritesAtTheCursor : Prop :=
  ∀ (s : State) (v : Byte),
    (s.envFails = true → outbyte v s = .halted
      { s with envFail := s.envFail.tail, err := .ioError, status := .fault, phase := .halt }) ∧
    (s.envFails = false → ∃ t, outbyte v s = .ok () t ∧
      t = { s with
            envFail := s.envFail.tail, out := t.out, outPos := s.outPos + 1
            outLen := if s.outPos < s.outLen then s.outLen else s.outPos + 1 } ∧
      t.out.read s.outPos = v ∧ ∀ a, a ≠ s.outPos → t.out.read a = s.out.read a)

/-! ### The bit reader -/

/-- R81: `RBIT`, by what the reader holds, the access and what is left of `IN`. Nothing else changes. -/
def Obligations.RbitTakesTheNextBit : Prop :=
  ∀ s : State,
    (0 < s.rdNbits → exec .rbit s = .next
      { s with
        rdNbits := s.rdNbits - 1, rdBitcnt := s.rdBitcnt + 1
        res := (bitOf s.rdByte (s.rdNbits - 1)).toNat }) ∧
    (s.rdNbits = 0 → s.envFails = true → exec .rbit s = .next
      { s with envFail := s.envFail.tail, err := .ioError, status := .fault, phase := .halt }) ∧
    (s.rdNbits = 0 → s.envFails = false → s.inPos = s.inLen → exec .rbit s = .next
      { s with envFail := s.envFail.tail, err := .truncatedContainer, status := .fault, phase := .halt }) ∧
    (s.rdNbits = 0 → s.envFails = false → s.inPos < s.inLen → exec .rbit s = .next
      { s with
        envFail := s.envFail.tail, inPos := s.inPos + 1, rdByte := s.inp.read s.inPos
        rdNbits := 7, rdBitcnt := s.rdBitcnt + 1, res := (bitOf (s.inp.read s.inPos) 7).toNat })

/-- R90, R9: command start leaves the reader aligned, and from an aligned reader `RBIT` returns stream
bit RD_BITCNT, that is bit 7 - (k mod 8) of byte k div 8, and leaves the reader aligned. -/
def Obligations.ReaderFollowsTheBitString : Prop :=
  (∀ (s : State) (op : BitVec 1), readerAligned (s.begin op)) ∧
  (∀ s : State, readerAligned s → noFail s → s.rdBitcnt < 8 * s.inLen →
    ∃ t, exec .rbit s = .next t ∧
      t.res = (bitOf (s.inp.read (s.rdBitcnt / 8)) (7 - s.rdBitcnt % 8)).toNat ∧
      t.rdBitcnt = s.rdBitcnt + 1 ∧ readerAligned t ∧ readOnly { s with res := t.res } t)

/-- R82, R67: `RBITS(count)` assembles the next `count` bits, the first most significant; the result
fits `count` bits; only the reader's registers and the result latch change. -/
def Obligations.RbitsAssemblesTheNextBits : Prop :=
  ∀ (s : State) (n : Nat) (bs rest : List Bool), countOk n → readerOk s → noFail s →
    readerBits s = bs ++ rest → bs.length = n →
    ∃ t, exec (.rbits n) s = .next t ∧ t.res = bitsVal bs ∧ t.res < 2 ^ n ∧ consumed bs rest s t ∧
      readerOk t ∧ readOnly { s with res := t.res } t

/-- R82, R152: when fewer than `count` bits are left, `RBITS` ends in `TruncatedContainer`; the bits
there were stay consumed and no value is returned. -/
def Obligations.RbitsRunsOutOfBits : Prop :=
  ∀ (s : State) (n : Nat), countOk n → readerOk s → noFail s → (readerBits s).length < n →
    ∃ t, exec (.rbits n) s = .next t ∧ endedIn .truncatedContainer t ∧
      consumed (readerBits s) [] s t ∧
      readOnly { s with status := .fault, err := .truncatedContainer, phase := .halt } t

/-! ### The bit writer -/

/-- R84: `WBIT`. The bit joins the pending ones; the eighth completes a byte, which is stored, oldest
bit in bit 7. That the eight bits stay in the buffer when the store fails is the model's reading of R84
with R156 (log entry 10), against which stands that R19 calls 8 never a resting value. -/
def Obligations.WbitAppendsOneBit : Prop :=
  ∀ (s : State) (b : Bool),
    (s.wrAcc.length ≠ 7 → exec (.wbit b) s = .next
      { s with wrAcc := s.wrAcc ++ [b], wrBitcnt := s.wrBitcnt + 1 }) ∧
    (s.wrAcc.length = 7 → s.envFails = false → exec (.wbit b) s = .next
      { s with
        wrAcc := [], wrBitcnt := s.wrBitcnt + 1, envFail := s.envFail.tail
        out := s.out.write s.outPos (byteOfBits (s.wrAcc ++ [b]))
        outLen := max s.outLen (s.outPos + 1), outPos := s.outPos + 1 }) ∧
    (s.wrAcc.length = 7 → s.envFails = true → exec (.wbit b) s = .next
      { s with
        wrAcc := s.wrAcc ++ [b], wrBitcnt := s.wrBitcnt + 1, envFail := s.envFail.tail
        err := .ioError, status := .fault, phase := .halt }) ∧
    (∀ i, i < 8 → s.wrAcc.length = 7 →
      bitOf (byteOfBits (s.wrAcc ++ [b])) (7 - i) = (s.wrAcc ++ [b]).getD i false)

/-- R85, R89: `WBITS(value, count)` appends the `count` low bits of the value, the highest of them
first, and ignores the bits above. -/
def Obligations.WbitsAppendsTheLowBits : Prop :=
  ∀ (s : State) (v n : Nat), countOk n → noFail s → s.wrAcc.length < 8 →
    (∃ t bs, exec (.wbits v n) s = .next t ∧ bs.length = n ∧ bitsVal bs = v % 2 ^ n ∧ appended bs s t ∧
      t.inPos = s.inPos ∧ t.envFail = s.envFail.drop ((s.wrAcc.length + n) / 8)) ∧
    exec (.wbits v n) s = exec (.wbits (v % 2 ^ n) n) s

/-- R86: `WTELL` returns the bit cursor and changes nothing. -/
def Obligations.WtellReturnsTheBitCursor : Prop :=
  ∀ s : State, exec .wtell s = .next { s with res := s.wrBitcnt }

/-- R87, R175: `WSEEK` with no bits pending moves the byte cursor and nothing else. -/
def Obligations.WseekMovesTheByteCursor : Prop :=
  ∀ (s : State) (a : Nat), s.wrAcc = [] → exec (.wseek a) s = .next { s with outPos := a }

/-- R88: `WFLUSH` with nothing pending does nothing; else it stores one byte with the pending bits on
top and zeros below, and empties the buffer; the bit cursor stays. -/
def Obligations.WflushPadsThePartialByte : Prop :=
  ∀ s : State,
    (s.wrAcc = [] → exec .wflush s = .next s) ∧
    (s.wrAcc ≠ [] → s.envFails = false → exec .wflush s = .next
      { s with
        wrAcc := [], envFail := s.envFail.tail, out := s.out.write s.outPos (byteOfBits s.wrAcc)
        outLen := max s.outLen (s.outPos + 1), outPos := s.outPos + 1 }) ∧
    (s.wrAcc ≠ [] → s.envFails = true → exec .wflush s = .next
      { s with envFail := s.envFail.tail, err := .ioError, status := .fault, phase := .halt }) ∧
    (∀ i, i < 8 → s.wrAcc.length ≤ 8 → bitOf (byteOfBits s.wrAcc) (7 - i) = s.wrAcc.getD i false)

/-- R82, R85 and R87 with U6 and U8, R117 and R118 with U18: what the spec says a model refuses is refused,
each by its own name. That `DERIVE` without the tree it must have (R115) is refused is the model's choice
(log entry 21). -/
def Obligations.OperationsOutsideTheirDomainAreRefused : Prop :=
  (∀ (s : State) (n : Nat), ¬ countOk n → exec (.rbits n) s = .refused (.countOutOfRange n)) ∧
  (∀ (s : State) (v n : Nat), ¬ countOk n → exec (.wbits v n) s = .refused (.countOutOfRange n)) ∧
  (∀ (s : State) (a : Nat), s.wrAcc ≠ [] → exec (.wseek a) s = .refused .seekWithBitsPending) ∧
  (∀ s : State, s.tree = none → exec .derive s = .refused .deriveWithoutTree) ∧
  (∀ (s : State) (limit : Nat), (∀ l r, s.tree ≠ some (.internal l r)) ∨ limit ≤ s.rdBitcnt →
    exec (.rdsym limit) s = .refused .rdsymOutsideDomain)

/-! ### The tree unit -/

/-- R103, R104, R105 (a) to (e): `BUILD` completes, writes `FOREST`, `NEXT_ORD` and `TREE` and nothing
else; the tree by the number L of symbols with a count. -/
def Obligations.BuildMakesTheTreeOfTheCounts : Prop :=
  ∀ s : State, ∃ t, exec .build s = .next t ∧
    t = { s with forest := t.forest, nextOrd := t.nextOrd, tree := t.tree } ∧
    (symbolCount s.freq = 0 → t.tree = none ∧ t.forest = [] ∧ t.nextOrd = 256) ∧
    (∀ b, symbolCount s.freq = 1 → 0 < s.freq.get b →
      t.tree = some (.internal (.leaf b false) (.leaf 0x00 true)) ∧ t.nextOrd = 256) ∧
    (2 ≤ symbolCount s.freq → ∃ l r, t.tree = some (.internal l r) ∧
      (leavesOf (.internal l r)).Perm
        ((symbols.filter fun b => decide (0 < s.freq.get b)).map fun b => (b, false)) ∧
      nodeCount (.internal l r) = 2 * symbolCount s.freq - 1 ∧ nodeCount (.internal l r) ≤ 511 ∧
      depth (.internal l r) ≤ symbolCount s.freq - 1 ∧ t.nextOrd = 255 + symbolCount s.freq)

/-- R105 (f): with two symbols or more the root's weight is the sum of all counts. -/
def Obligations.BuildRootWeighsTheInput : Prop :=
  ∀ s : State, 2 ≤ symbolCount s.freq →
    ∃ t e, exec .build s = .next t ∧ t.forest = [e] ∧ t.tree = some e.node ∧ e.weight = freqTotal s.freq

/-- R100, R101, R102: `BUILD`'s forest holds the leaves in the order of (weight, ord), adding a node keeps
that order, so the two entries a merge takes are the least and the second least, the lesser on the
left; the node made weighs their sum. `BUILD` of two symbols or more leaves the one entry, and the
`NEXT_ORD`, that these merges make of the leaves from 256 on, with `TREE` that entry's node, and changes
nothing else. That the forest is a sorted list is the model's (log entry 15). -/
def Obligations.BuildExtractsTheTwoLeast : Prop :=
  (∀ freq : Table Nat, (leafEntries freq symbols).Pairwise fun x y => x.before y = true) ∧
  (∀ (e : ForestEntry) (forest : List ForestEntry), (∀ x ∈ forest, x.ord ≠ e.ord) →
    (forest.Pairwise fun x y => x.before y = true) →
    ((insertForest e forest).Pairwise fun x y => x.before y = true) ∧
      (insertForest e forest).Perm (e :: forest)) ∧
  (∀ (a b : ForestEntry) (rest : List ForestEntry) (n ord : Nat),
    ((a :: b :: rest).Pairwise fun x y => x.before y = true) →
    (∀ x ∈ b :: rest, a.weight < x.weight ∨ a.weight = x.weight ∧ a.ord < x.ord) ∧
    (∀ x ∈ rest, b.weight < x.weight ∨ b.weight = x.weight ∧ b.ord < x.ord) ∧
    mergeForest (n + 1) (a :: b :: rest) ord =
      mergeForest n (insertForest ⟨a.weight + b.weight, ord, .internal a.node b.node⟩ rest) (ord + 1)) ∧
  (∀ s : State, 2 ≤ symbolCount s.freq → ∃ e ord,
    mergeForest (leafEntries s.freq symbols).length (leafEntries s.freq symbols) 256 = ([e], ord) ∧
    exec .build s = .next { s with forest := [e], nextOrd := ord, tree := some e.node })

/-- R107: the three worked inputs, `mississippi`, `hello` and `abcd`, give the trees of the rule, each
showing one tie-break. -/
def Obligations.WorkedMergesGiveTheirTrees : Prop :=
  { State.reset with
    freq := freqOf [0x6D, 0x69, 0x73, 0x73, 0x69, 0x73, 0x73, 0x69, 0x70, 0x70, 0x69] }.build.tree =
    some (.internal (.leaf 0x73 false)
      (.internal (.internal (.leaf 0x6D false) (.leaf 0x70 false)) (.leaf 0x69 false))) ∧
  { State.reset with freq := freqOf [0x68, 0x65, 0x6C, 0x6C, 0x6F] }.build.tree =
    some (.internal (.internal (.leaf 0x65 false) (.leaf 0x68 false))
      (.internal (.leaf 0x6F false) (.leaf 0x6C false))) ∧
  { State.reset with freq := freqOf [0x61, 0x62, 0x63, 0x64] }.build.tree =
    some (.internal (.internal (.leaf 0x61 false) (.leaf 0x62 false))
      (.internal (.leaf 0x63 false) (.leaf 0x64 false)))

/-- R105 (g): no full binary tree with the same leaves costs less than the tree `BUILD` makes. -/
def Obligations.BuiltTreeCostsTheLeast : Prop :=
  ∀ s : State, 2 ≤ symbolCount s.freq → ∃ t root, exec .build s = .next t ∧ t.tree = some root ∧
    ∀ other : Node, (leavesOf other).Perm (leavesOf root) → costFrom s.freq root 0 ≤ costFrom s.freq other 0

/-- R110, R89: `SERIALIZE` appends the pre-order serialization of the node, 1 for an internal node and 0
with the symbol for a leaf, and nothing else. -/
def Obligations.SerializeWritesThePreOrder : Prop :=
  ∀ (s : State) (n : Node), noFail s → s.wrAcc.length < 8 →
    ∃ t, exec (.serialize n) s = .next t ∧ appended (serialBits n) s t ∧ t.inPos = s.inPos ∧
      t.envFail = s.envFail.drop ((s.wrAcc.length + (serialBits n).length) / 8)

/-- R111: `SERIALIZE` of a tree with L leaves appends exactly 10 * L - 1 bits, and they are a node of the
grammar of R62. -/
def Obligations.SerializationHasItsLengthAndGrammar : Prop :=
  ∀ (s : State) (n : Node), noFail s → s.wrAcc.length < 8 →
    ∃ t bs, exec (.serialize n) s = .next t ∧ appended bs s t ∧ bs.length = 10 * leafCount n - 1 ∧
      t.wrBitcnt - s.wrBitcnt = 10 * leafCount n - 1 ∧ SerializedNode bs

/-- R112: `DESERIALIZE` reads back every tree within NODE_CAP that `SERIALIZE` wrote, up to the sentinel
flag, and consumes exactly its bits; the reader's registers, `TREE`, `STACK` and `NODE_CNT` change. -/
def Obligations.DeserializeInvertsSerialize : Prop :=
  ∀ (s : State) (n : Node) (rest : List Bool), readerOk s → noFail s →
    nodeCount n ≤ s.nodeCap → readerBits s = serialBits n ++ rest →
    ∃ t, exec .deserialize s = .next t ∧ t.tree = some (plainTree n) ∧ consumed (serialBits n) rest s t ∧
      readerOk t ∧ readOnly { s with tree := t.tree, stack := [], nodeCnt := nodeCount n } t

/-- R113, R155: a tree of more than NODE_CAP nodes ends in `CapacityExceeded` at record NODE_CAP + 1,
and `TREE` stays as it was. -/
def Obligations.DeserializeStopsAtTheNodeLimit : Prop :=
  ∀ (s : State) (n : Node) (rest : List Bool), readerOk s → noFail s →
    s.nodeCap < nodeCount n → readerBits s = serialBits n ++ rest →
    ∃ t, exec .deserialize s = .next t ∧ endedIn .capacityExceeded t ∧ t.nodeCnt = s.nodeCap + 1 ∧
      readOnly { s with status := .fault, err := .capacityExceeded, phase := .halt, stack := t.stack, nodeCnt := t.nodeCnt } t

/-- R112, R152: when `IN` ends before the records of the tree are complete, `DESERIALIZE` ends in
`TruncatedContainer` with every bit consumed, and `TREE` stays as it was. -/
def Obligations.DeserializeOfACutTreeIsTruncated : Prop :=
  ∀ (s : State) (n : Node) (cut : List Bool), readerOk s → noFail s →
    nodeCount n ≤ s.nodeCap → serialBits n = readerBits s ++ cut → cut ≠ [] →
    ∃ t, exec .deserialize s = .next t ∧ endedIn .truncatedContainer t ∧ consumed (readerBits s) [] s t ∧
      readOnly { s with status := .fault, err := .truncatedContainer, phase := .halt, stack := t.stack, nodeCnt := t.nodeCnt } t

/-- R115: `DERIVE` writes `CODE` and nothing else: a symbol with no real leaf has no valid code, and when
no two real leaves share a symbol the code of a real leaf's symbol is the path to it. -/
def Obligations.DeriveGivesRootToLeafPaths : Prop :=
  ∀ (s : State) (root : Node), s.tree = some root →
    ∃ t, exec .derive s = .next t ∧ t = { s with code := t.code } ∧
      (∀ b, b ∉ realSymbols root → t.code.get b = { s.code.get b with valid := false }) ∧
      ((realSymbols root).Nodup → ∀ b path, nodeAt path root = some (.leaf b false) →
        t.code.get b = ⟨true, path⟩)

/-- R116: the table `DERIVE` makes from a tree of `BUILD`: (a) valid exactly for the symbols with a
count, (b) lengths 1 to 255, (c) prefix-free, (d) the Kraft sum, scaled by 2^255, (e) the length of the
payload of any input with these counts. -/
def Obligations.CodeTableOfABuiltTree : Prop :=
  ∀ s : State, 1 ≤ symbolCount s.freq → ∃ t u, exec .build s = .next t ∧ exec .derive t = .next u ∧
    (∀ b, (u.code.get b).valid = true ↔ 0 < s.freq.get b) ∧
    (∀ b, (u.code.get b).valid = true →
      1 ≤ (u.code.get b).bits.length ∧ (u.code.get b).bits.length ≤ 255) ∧
    (∀ b c, b ≠ c → (u.code.get b).valid = true → (u.code.get c).valid = true →
      ¬ (u.code.get b).bits <+: (u.code.get c).bits) ∧
    ((symbols.map fun b => if (u.code.get b).valid then 2 ^ (255 - (u.code.get b).bits.length) else 0).sum =
      if symbolCount s.freq = 1 then 2 ^ 254 else 2 ^ 255) ∧
    (∀ bs : List Byte, (∀ b, tallies bs b = s.freq.get b) → (payloadBits u.code bs).length =
      (symbols.map fun b => s.freq.get b * (u.code.get b).bits.length).sum)

/-- R117: `RDSYM` walks the bits of a path from the root to a leaf and returns the leaf's symbol, a
sentinel's like any other; `CUR` stands on the leaf. -/
def Obligations.RdsymWalksToALeaf : Prop :=
  ∀ (s : State) (l r : Node) (path rest : List Bool) (v : Byte) (flag : Bool) (limit : Nat),
    s.tree = some (.internal l r) → nodeAt path (.internal l r) = some (.leaf v flag) →
    readerOk s → noFail s → readerBits s = path ++ rest → s.rdBitcnt + path.length ≤ limit →
    ∃ t, exec (.rdsym limit) s = .next t ∧ t.res = v.toNat ∧ consumed path rest s t ∧ readerOk t ∧
      readOnly { s with cur := .leaf v flag, res := t.res } t

/-- R117, R152, R153 (d), R157: a walk that stands on an internal node when the payload ends raises
`InvalidHeader`, before any bit of the padding is asked for; one for which `IN` ends earlier raises
`TruncatedContainer`. -/
def Obligations.RdsymStopsInsideACodeWord : Prop :=
  ∀ (s : State) (l r l' r' : Node) (path rest : List Bool) (limit : Nat),
    s.tree = some (.internal l r) → nodeAt path (.internal l r) = some (.internal l' r') →
    readerOk s → noFail s → readerBits s = path ++ rest → s.rdBitcnt < limit →
    (s.rdBitcnt + path.length = limit →
      ∃ t, exec (.rdsym limit) s = .next t ∧ endedIn .invalidHeader t ∧ consumed path rest s t ∧
        readOnly { s with status := .fault, err := .invalidHeader, phase := .halt, cur := .internal l' r' } t) ∧
    (s.rdBitcnt + path.length < limit → rest = [] →
      ∃ t, exec (.rdsym limit) s = .next t ∧ endedIn .truncatedContainer t ∧ consumed path [] s t ∧
        readOnly { s with status := .fault, err := .truncatedContainer, phase := .halt, cur := .internal l' r' } t)

/-! ### The codec's micro-operations -/

/-- R132, R20: `COUNT` counts every byte of `IN`; the counts sum to the input's length; `IN_POS` ends at
`IN_LEN`; nothing else changes. -/
def Obligations.CountTalliesTheInput : Prop :=
  ∀ s : State, noFail s → ∃ t, exec .count s = .next t ∧
    (∀ b, t.freq.get b = tallies (inBytes s) b) ∧ freqTotal t.freq = s.inLen ∧
    t = { s with freq := t.freq, inPos := s.inLen, envFail := s.envFail.drop (s.inLen + 1) }

/-- R136, R64, R89: `EMIT` appends the code words of the bytes of `IN` in order, with no alignment. -/
def Obligations.EmitAppendsTheCodeWords : Prop :=
  ∀ s : State, noFail s → s.wrAcc.length < 8 → (∀ b ∈ inBytes s, (s.code.get b).valid = true) →
    ∃ t, exec .emit s = .next t ∧ appended (payloadBits s.code (inBytes s)) s t ∧ t.inPos = s.inLen ∧
      t.envFail = s.envFail.drop
        (s.inLen + 1 + (s.wrAcc.length + (payloadBits s.code (inBytes s)).length) / 8)

/-- U7 says that for a byte of `IN` that has no code word no rule gives `EMIT` a result. That `EMIT` refuses
it by name, and names the first such byte, is the model's choice (log entry 13). -/
def Obligations.EmitRefusesAByteWithoutCode : Prop :=
  ∀ (s : State) (before after : List Byte) (b : Byte), noFail s →
    inBytes s = before ++ b :: after → (∀ c ∈ before, (s.code.get c).valid = true) →
    (s.code.get b).valid = false → exec .emit s = .refused (.emitWithoutCode b)

/-- R137, R42: `PATCH` stores the last partial byte at the cursor, padded with zeros, then the two
lengths in `OUT[0..7]`, each big-endian, and no other byte. -/
def Obligations.PatchWritesTheHeader : Prop :=
  ∀ (s : State) (tb db : Nat), noFail s → s.wrAcc.length < 8 → lengthOk tb → lengthOk db →
    ∃ t, exec (.patch tb db) s = .next t ∧
      (∀ a, t.out.read a =
        if a < 4 then BitVec.ofNat 8 (tb / 2 ^ (8 * (3 - a)))
        else if a < 8 then BitVec.ofNat 8 (db / 2 ^ (8 * (7 - a)))
        else if s.wrAcc ≠ [] ∧ a = s.outPos then byteOfBits s.wrAcc
        else s.out.read a) ∧
      t = { s with
            out := t.out, outPos := 8, wrAcc := [], wrBitcnt := s.wrBitcnt + 64
            outLen := max (if s.wrAcc = [] then s.outLen else max s.outLen (s.outPos + 1)) 8
            envFail := s.envFail.drop (if s.wrAcc = [] then 8 else 9) }

/-! ### The commands -/

/-- R139: `ENCODE` with no failing access, of a payload that a 32-bit field can state,
ends in `DONE`; and what it leaves whenever it ends in `DONE`. An empty input gives eight zero bytes and
no fault; any other the container of R139. No byte outside the container changes, nor does any register
the steps of the command do not write. -/
def Obligations.EncodeWritesTheContainer : Prop :=
  ∀ s : State, s.status ≠ .busy →
    (noFail s → (inputPayload s).length < 2 ^ 32 → ∃ t, exec .encode s = .next t ∧ endedOk t) ∧
    (∀ t, exec .encode s = .next t → t.status = .done →
      (s.inLen = 0 → t.outLen = 8 ∧ (∀ a, a < 8 → t.out.read a = 0x00) ∧ t.hdrTree = 0 ∧ t.hdrData = 0 ∧
        t.tree = none) ∧
      (0 < s.inLen → t.tree = inputTree s ∧ t.tree ≠ none ∧
        t.hdrTree = BitVec.ofNat 32 (inputTreeBits s).length ∧ (inputTreeBits s).length < 2 ^ 32 ∧
        t.hdrData = BitVec.ofNat 32 (inputPayload s).length ∧ (inputPayload s).length < 2 ^ 32 ∧
        t.outLen = 8 + ((inputTreeBits s).length + (inputPayload s).length + 7) / 8 ∧
        bytesBits (outBytes t) =
          bitsN 32 (inputTreeBits s).length ++ bitsN 32 (inputPayload s).length ++ inputTreeBits s ++
            inputPayload s ++ padBits ((inputTreeBits s).length + (inputPayload s).length)) ∧
      (∀ a, t.outLen ≤ a → t.out.read a = s.out.read a) ∧
      t.err = .none ∧ t.phase = .halt ∧
      t.op = 0 ∧ t.rdByte = 0 ∧ t.rdNbits = 0 ∧ t.rdBitcnt = 0 ∧ t.wrAcc = [] ∧
      t.cur = s.cur ∧ t.stack = s.stack ∧ t.nodeCnt = s.nodeCnt ∧ t.payEnd = s.payEnd ∧ t.inp = s.inp ∧ t.inLen = s.inLen ∧
      t.nodeCap = s.nodeCap ∧ t.hostQ = s.hostQ ∧ t.hostRd = s.hostRd)

/-- R138, R154: at `E_PATCH` a payload of 2^32 bits or more raises `LengthOverflow` before anything is
written; an input of 2^32 bytes or more always ends so, with `OUT[0..7]` unwritten, and one of at most
16843009 bytes never does. -/
def Obligations.LengthOverflowEndsEncode : Prop :=
  (∀ s : State, s.status = .busy → s.phase = .ePatch → s.useq = 0 → s.ir = none → s.hostQ = [] →
    2 ^ 32 ≤ s.db →
    step s = .next { s with err := .lengthOverflow, status := .fault, phase := .halt }) ∧
  (∀ s : State, s.status ≠ .busy → noFail s → 2 ^ 32 ≤ s.inLen →
    ∃ t, exec .encode s = .next t ∧ endedIn .lengthOverflow t ∧ t.hdrData = 0 ∧
      ∀ a, a < 8 → t.out.read a = s.out.read a) ∧
  (∀ s : State, s.status ≠ .busy → noFail s → s.inLen ≤ 16843009 →
    ∃ t, exec .encode s = .next t ∧ endedOk t)

/-- R8, R148, R150: whatever accesses fail, a command that is started ends, in `DONE` or in one of the
faults of its column in R150; it is never refused and never stops the machine. -/
def Obligations.EveryCommandEnds : Prop :=
  ∀ s : State, s.status ≠ .busy →
    (∃ t, exec .encode s = .next t ∧
      (endedOk t ∨ endedIn .ioError t ∨ endedIn .lengthOverflow t)) ∧
    (∃ t, exec .decode s = .next t ∧
      (endedOk t ∨ endedIn .ioError t ∨ endedIn .truncatedContainer t ∨ endedIn .invalidHeader t ∨
        endedIn .capacityExceeded t))

/-- R140, R143, R72: `DECODE` of a container that holds a tree within NODE_CAP and a payload of
root-to-leaf paths gives the leaves' symbols, whatever stands after it; a tree whose root is a leaf is
accepted with an empty payload (R72 (e)). The bit writer stays as command start left it, and the
encoder's tables and `d0` as they were. -/
def Obligations.DecodeReadsTheContainer : Prop :=
  ∀ (s : State) (root : Node) (words : List (List Bool × Byte)) (rest : List Bool),
    s.status ≠ .busy → noFail s → nodeCount root ≤ s.nodeCap →
    codeWords root words → ((∃ l r, root = .internal l r) ∨ words = []) →
    (serialBits root).length < 2 ^ 32 → (wordBits words).length < 2 ^ 32 →
    bytesBits (inBytes s) = bitsN 32 (serialBits root).length ++ bitsN 32 (wordBits words).length ++
      serialBits root ++ wordBits words ++ rest →
    ∃ t, exec .decode s = .next t ∧ endedOk t ∧ outBytes t = words.map Prod.snd ∧
      t.hdrTree = BitVec.ofNat 32 (serialBits root).length ∧
      t.hdrData = BitVec.ofNat 32 (wordBits words).length ∧ t.tree = some (plainTree root) ∧
      (∀ a, t.outLen ≤ a → t.out.read a = s.out.read a) ∧
      t.op = 1 ∧ t.wrAcc = [] ∧ t.wrBitcnt = 0 ∧ t.d0 = s.d0 ∧ t.freq = s.freq ∧ t.forest = s.forest ∧
      t.nextOrd = s.nextOrd ∧ t.code = s.code ∧ t.inp = s.inp ∧ t.inLen = s.inLen ∧
      t.nodeCap = s.nodeCap ∧ t.hostQ = s.hostQ ∧ t.hostRd = s.hostRd

/-- R144: what `DECODE` leaves whenever it ends in `DONE`. The container's fields stand in the latches;
the output is the symbols of the root-to-leaf paths that the payload region is cut into; exactly the
header, the tree and the payload were consumed, and no byte after them was read. -/
def Obligations.DecodeDoneMeansThePayloadWasCut : Prop :=
  ∀ s t : State, s.status ≠ .busy → exec .decode s = .next t → t.status = .done →
    ∃ treeBits pay rest : List Bool,
      bytesBits (inBytes s) = bitsN 32 t.hdrTree.toNat ++ bitsN 32 t.hdrData.toNat ++ treeBits ++ pay ++ rest ∧
      treeBits.length = t.hdrTree.toNat ∧ pay.length = t.hdrData.toNat ∧
      (t.hdrTree = 0 → t.hdrData = 0 ∧ t.tree = none ∧ outBytes t = []) ∧
      (t.hdrTree ≠ 0 → ∃ root words, t.tree = some root ∧ treeBits = serialBits root ∧
        nodeCount root ≤ s.nodeCap ∧ codeWords root words ∧ pay = wordBits words ∧
        outBytes t = words.map Prod.snd) ∧
      t.rdBitcnt = 64 + t.hdrTree.toNat + t.hdrData.toNat ∧
      t.inPos = (64 + t.hdrTree.toNat + t.hdrData.toNat + 7) / 8

/-- R141, D13: `DECODE` of a container whose two fields are 0 ends in `DONE` with no output, having read
eight bytes, whatever follows them. -/
def Obligations.DecodeOfTheEmptyContainer : Prop :=
  ∀ s : State, s.status ≠ .busy → noFail s → 8 ≤ s.inLen → (∀ a, a < 8 → s.inp.read a = 0x00) →
    ∃ t, exec .decode s = .next t ∧ endedOk t ∧ t.outLen = 0 ∧ t.out = s.out ∧ t.tree = none ∧
      t.hdrTree = 0 ∧ t.hdrData = 0 ∧ t.rdBitcnt = 64 ∧ t.inPos = 8

/-- R153, R141 to R143: the four cases of `InvalidHeader`: (a) no tree but a payload, (b) a tree that did
not take `treeBitLength` bits, (c) a leaf root with a payload, (d) a payload that ends inside a code
word, the symbols before it staying in `OUT`. -/
def Obligations.DecodeRejectsInconsistentHeaders : Prop :=
  (∀ (s : State) (db : Nat) (rest : List Bool), s.status ≠ .busy → noFail s → 0 < db → lengthOk db →
    bytesBits (inBytes s) = bitsN 32 0 ++ bitsN 32 db ++ rest →
    ∃ t, exec .decode s = .next t ∧ endedIn .invalidHeader t ∧ t.rdBitcnt = 64 ∧ t.outLen = 0 ∧
      t.hdrTree = 0 ∧ t.hdrData = BitVec.ofNat 32 db) ∧
  (∀ (s : State) (n : Node) (tb db : Nat) (rest : List Bool), s.status ≠ .busy → noFail s →
    0 < tb → lengthOk tb → lengthOk db → nodeCount n ≤ s.nodeCap → (serialBits n).length ≠ tb →
    bytesBits (inBytes s) = bitsN 32 tb ++ bitsN 32 db ++ serialBits n ++ rest →
    ∃ t, exec .decode s = .next t ∧ endedIn .invalidHeader t ∧
      t.rdBitcnt = 64 + (serialBits n).length ∧ t.outLen = 0 ∧
      t.hdrTree = BitVec.ofNat 32 tb ∧ t.hdrData = BitVec.ofNat 32 db) ∧
  (∀ (s : State) (sym : Byte) (db : Nat) (rest : List Bool), s.status ≠ .busy → noFail s →
    0 < db → lengthOk db → 1 ≤ s.nodeCap →
    bytesBits (inBytes s) = bitsN 32 9 ++ bitsN 32 db ++ serialBits (.leaf sym false) ++ rest →
    ∃ t, exec .decode s = .next t ∧ endedIn .invalidHeader t ∧ t.rdBitcnt = 73 ∧ t.outLen = 0) ∧
  (∀ (s : State) (l r l' r' : Node) (words : List (List Bool × Byte)) (part rest : List Bool),
    s.status ≠ .busy → noFail s → nodeCount (.internal l r) ≤ s.nodeCap →
    codeWords (.internal l r) words → nodeAt part (.internal l r) = some (.internal l' r') → part ≠ [] →
    (serialBits (.internal l r)).length < 2 ^ 32 → (wordBits words ++ part).length < 2 ^ 32 →
    bytesBits (inBytes s) = bitsN 32 (serialBits (.internal l r)).length ++
      bitsN 32 (wordBits words ++ part).length ++ serialBits (.internal l r) ++ wordBits words ++ part ++ rest →
    ∃ t, exec .decode s = .next t ∧ endedIn .invalidHeader t ∧ outBytes t = words.map Prod.snd ∧
      t.rdBitcnt = 64 + (serialBits (.internal l r)).length + (wordBits words ++ part).length)

/-- R152, R141, R143, R147: fewer than eight bytes are a truncated header, and the latches keep the zeros
of command start; a payload cut short gives the symbols whose code words are whole, and the fault. -/
def Obligations.DecodeOfATruncatedContainer : Prop :=
  (∀ s : State, s.status ≠ .busy → noFail s → s.inLen < 8 →
    ∃ t, exec .decode s = .next t ∧ endedIn .truncatedContainer t ∧ t.rdBitcnt = 8 * s.inLen ∧
      t.outLen = 0 ∧ t.hdrTree = 0 ∧ t.hdrData = 0) ∧
  (∀ (s : State) (l r l' r' : Node) (words : List (List Bool × Byte)) (part : List Bool) (db : Nat),
    s.status ≠ .busy → noFail s → nodeCount (.internal l r) ≤ s.nodeCap →
    codeWords (.internal l r) words → nodeAt part (.internal l r) = some (.internal l' r') →
    (serialBits (.internal l r)).length < 2 ^ 32 → lengthOk db → (wordBits words ++ part).length < db →
    bytesBits (inBytes s) = bitsN 32 (serialBits (.internal l r)).length ++ bitsN 32 db ++
      serialBits (.internal l r) ++ wordBits words ++ part →
    ∃ t, exec .decode s = .next t ∧ endedIn .truncatedContainer t ∧ outBytes t = words.map Prod.snd ∧
      t.rdBitcnt = 8 * s.inLen)

/-- R145: for every input whose payload a 32-bit field can state, `ENCODE` ends in `DONE`, and `DECODE`
of its output, on any block that holds it and whose NODE_CAP admits the encoder's trees, ends in `DONE`
with the input back. -/
def Obligations.DecodeOfEncodeIsTheInput : Prop :=
  ∀ s : State, s.status ≠ .busy → noFail s → (inputPayload s).length < 2 ^ 32 →
    ∃ t, exec .encode s = .next t ∧ endedOk t ∧
      ∀ u : State, u.status ≠ .busy → noFail u → 511 ≤ u.nodeCap → inBytes u = outBytes t →
        ∃ v, exec .decode u = .next v ∧ endedOk v ∧ outBytes v = inBytes s

/-- R16: a command's result depends on `OP`, `IN`, `IN_LEN` and the failure outcomes (and NODE_CAP) alone:
whatever the registers, the tables and `OUT` held before, two blocks end alike and with the same output.
After a faulted `ENCODE` that is the body from `OUT[8]` on (R147). -/
def Obligations.CommandsForgetWhatWasBefore : Prop :=
  ∀ s s' : State, s.status ≠ .busy → s'.status ≠ .busy → s.inp = s'.inp → s.inLen = s'.inLen →
    s.envFail = s'.envFail → s.nodeCap = s'.nodeCap →
    (∃ t t', exec .encode s = .next t ∧ exec .encode s' = .next t' ∧ t.status = t'.status ∧ t.err = t'.err ∧
      t.hdrTree = t'.hdrTree ∧ t.hdrData = t'.hdrData ∧ t.outLen = t'.outLen ∧ t.inPos = t'.inPos ∧
      (t.status = .done → outBytes t = outBytes t') ∧
      (∀ a, 8 ≤ a → a < t.outLen → t.out.read a = t'.out.read a)) ∧
    (∃ t t', exec .decode s = .next t ∧ exec .decode s' = .next t' ∧ t.status = t'.status ∧ t.err = t'.err ∧
      t.hdrTree = t'.hdrTree ∧ t.hdrData = t'.hdrData ∧ t.outLen = t'.outLen ∧ t.inPos = t'.inPos ∧
      outBytes t = outBytes t')

/-- R7, R131, R140, R148: a command run as one transition and the same command run micro-operation by
micro-operation by the sequencer, from the start the host gives, end in the same state of the block. -/
def Obligations.StepByStepRunIsTheCommand : Prop :=
  ∀ s t : State, s.status ≠ .busy → s.hostQ = [] →
    (exec .encode s = .next t → ∃ n u, steps n (start 0#1 s) = .next u ∧ u.block = t.block) ∧
    (exec .decode s = .next t → ∃ n u, steps n (start 1#1 s) = .next u ∧ u.block = t.block)

/-! ### The machine as a whole -/

/-- R8: while no command runs, nothing is latched and the host is silent, nothing changes. -/
def Obligations.HaltedBlockStaysStill : Prop :=
  ∀ s : State, s.status ≠ .busy → s.ir = none → s.hostQ = [] → step s = .next s

/-- R130: a write to `CTRL` is `START` with bit 0 of the value: ignored while `BUSY`; else it sets the
registers the rule lists and the phase, and leaves every other register as it was. That the sequencer's
place and the instruction latch are cleared too is the model's (log entry 6). -/
def Obligations.StartBeginsACommand : Prop :=
  ∀ (s : State) (v : Nat) (q : List HostAct), s.hostQ = .writeReg .ctrl v :: q →
    (s.status = .busy → step s = .next { s with hostQ := q }) ∧
    (s.status ≠ .busy → step s = .next
      { s with
        hostQ := q, op := BitVec.ofNat 1 v, status := .busy, err := .none
        hdrTree := 0, hdrData := 0, outLen := 0
        inPos := 0, rdByte := 0, rdNbits := 0, rdBitcnt := 0
        outPos := 0, wrAcc := [], wrBitcnt := 0, tree := none
        phase := if v % 2 = 0 then .eCount else .dHeader
        useq := 0, ir := none })

/-- R170, R171, R28: reset, in any state, gives every register the value of the table of R28, stops a
running command with no fault recorded, and touches neither `IN`, `IN_LEN` nor `OUT`. The registers the
table leaves unspecified are left open here. -/
def Obligations.ResetPutsEveryRegisterBack : Prop :=
  ∀ (s : State) (q : List HostAct), s.hostQ = .reset :: q →
    ∃ t, step s = .next t ∧ t.op = 0 ∧ t.status = .idle ∧ t.err = .none ∧ t.hdrTree = 0 ∧ t.hdrData = 0 ∧
      t.outLen = 0 ∧ t.phase = .idle ∧ t.inPos = 0 ∧ t.rdByte = 0 ∧ t.rdNbits = 0 ∧ t.rdBitcnt = 0 ∧
      t.outPos = 0 ∧ t.wrAcc = [] ∧ t.wrBitcnt = 0 ∧ t.tree = none ∧
      t.inp = s.inp ∧ t.inLen = s.inLen ∧ t.out = s.out

/-- R29, R159: the host reads the registers by number with no effect on the block; a write to `CTRL` is
`START` with bit 0 of the value; a write to a read-only register is ignored; `IN_LEN` takes a write while
the block is not `BUSY`; the two level outputs follow `STATUS`. -/
def Obligations.HostReadsAndWritesRegisters : Prop :=
  ∀ (s : State) (q : List HostAct),
    (∀ r, s.hostQ = .readReg r :: q → step s = .next
      { s with
        hostQ := q
        hostRd := match r.index with
          | 0 => s.op.toNat
          | 1 => s.status.code
          | 2 => s.err.code
          | 3 => s.hdrTree.toNat
          | 4 => s.hdrData.toNat
          | 5 => s.outLen
          | 6 => s.inLen
          | _ => s.phase.code }) ∧
    (∀ v, s.hostQ = .writeReg .ctrl v :: q →
      step s = .next (start (BitVec.ofNat 1 v) { s with hostQ := q })) ∧
    (∀ r v, s.hostQ = .writeReg r v :: q → r ≠ .ctrl → r ≠ .inLen → step s = .next { s with hostQ := q }) ∧
    (∀ v, s.hostQ = .writeReg .inLen v :: q → s.status ≠ .busy → step s = .next { s with hostQ := q, inLen := v }) ∧
    (s.doneOut = true ↔ s.status.code = 2) ∧ (s.faultOut = true ↔ s.status.code = 3)

/-- R181 with U7: while `BUSY` the host has no move on `IN`, `IN_LEN` or `OUT`; otherwise it places bytes in
`IN` and `OUT` and reads `OUT` below `OUT_LEN`. -/
def Obligations.HostKeepsOffWhileBusy : Prop :=
  ∀ (s : State) (q : List HostAct) (a : Nat) (v : Byte),
    (s.status = .busy →
      (s.hostQ = .placeIn a v :: q → step s = .refused .hostWhileBusy) ∧
      (s.hostQ = .placeOut a v :: q → step s = .refused .hostWhileBusy) ∧
      (s.hostQ = .readOut a :: q → step s = .refused .hostWhileBusy) ∧
      (s.hostQ = .writeReg .inLen a :: q → step s = .refused .hostWhileBusy)) ∧
    (s.status ≠ .busy →
      (s.hostQ = .placeIn a v :: q → step s = .next { s with hostQ := q, inp := s.inp.write a v }) ∧
      (s.hostQ = .placeOut a v :: q → step s = .next { s with hostQ := q, out := s.out.write a v }) ∧
      (s.hostQ = .readOut a :: q → a < s.outLen →
        step s = .next { s with hostQ := q, hostRd := (s.out.read a).toNat }))

/-- R156: fault entry sets `ERR`, `STATUS` and `PHASE` and nothing else, and the operation that called the
faulting one does nothing afterwards. -/
def Obligations.FaultEntryChangesThreeRegisters : Prop :=
  ∀ (s : State) (k : Err) (f : Unit → State → Res Unit),
    (raise k s : Res Unit) = .halted { s with err := k, status := .fault, phase := .halt } ∧
    (raise k s : Res Unit).bind f = raise k s

/-- R12, R13, R17, R18, R19: every step of the machine keeps the invariant: `STATUS`, `ERR` and `PHASE`
agree, fewer than eight bits are pending in the writer (but for a failed byte write, log entry 10) and in the
reader, and both streams' contents keep their canonical form. -/
def Obligations.EveryStepKeepsTheInvariant : Prop :=
  ∀ s t : State, Inv s → step s = .next t → Inv t

/-- R28: the state after reset meets the invariant. -/
def Obligations.InvariantHoldsAtReset : Prop :=
  Inv State.reset ∧ State.reset.status = .idle ∧ State.reset.phase = .idle ∧ State.reset.tree = none

/-- R25, R30, R40: no step of the block changes `IN` or `IN_LEN`, nor the parameter NODE_CAP; only the
host does, and it not while `BUSY`. -/
def Obligations.BlockNeverChangesItsInput : Prop :=
  ∀ s t : State, step s = .next t → (s.hostQ = [] ∨ s.status = .busy) →
    t.inp = s.inp ∧ t.inLen = s.inLen ∧ t.nodeCap = s.nodeCap

/-- R148: while a command runs and the host is silent, a step stays in the phase, moves by the table,
ends the command in `DONE` from the phases that may, or ends it in `FAULT`. -/
def Obligations.PhaseMovesByTheTable : Prop :=
  ∀ s t : State, s.status = .busy → s.hostQ = [] → step s = .next t →
    (t.status = .busy ∧ (t.phase = s.phase ∨ (s.phase, t.phase) ∈ phaseMoves)) ∨
    (t.status = .done ∧ t.phase = .halt ∧ s.phase ∈ donePhases) ∨
    (t.status = .fault ∧ t.phase = .halt ∧ t.err ≠ .none)

/-! ### The records of the container -/

/-- R61, R141, D33: the header records take 32 bits each; the first goes to the sequencer's `tb`, the
second latches both header registers; nothing else changes but the reader's registers. That a record
is run as an operation of its own is the model's (log entry 8). -/
def Obligations.HeaderRecordsAreLatched : Prop :=
  ∀ (s : State) (v : Word32) (rest : List Bool), readerOk s → noFail s →
    readerBits s = bitsN 32 v.toNat ++ rest →
    (∃ t, exec (.hdrTreebitlen v) s = .next t ∧ consumed (bitsN 32 v.toNat) rest s t ∧ readerOk t ∧
      readOnly { s with tb := v.toNat } t) ∧
    (∃ t, exec (.hdrDatabitlen v) s = .next t ∧ consumed (bitsN 32 v.toNat) rest s t ∧ readerOk t ∧
      readOnly { s with db := v.toNat, hdrTree := BitVec.ofNat 32 s.tb, hdrData := v } t)

/-- R63, R112, R113: a node record takes its bits and counts as one node: an internal record opens a node;
a leaf record completes every node it is the last leaf of, and a completed root becomes `TREE`. A record
beyond NODE_CAP raises `CapacityExceeded` once its flag bit is read. That a record is run as an operation
of its own is the model's (log entry 8). -/
def Obligations.NodeRecordsBuildTheTree : Prop :=
  ∀ (s : State) (sym : Byte) (rest : List Bool), readerOk s → noFail s →
    (readerBits s = true :: rest → s.countNode.nodeCnt ≤ s.nodeCap →
      ∃ t, exec .nodeInternal s = .next t ∧ consumed [true] rest s t ∧ readerOk t ∧
        readOnly { s with nodeCnt := s.countNode.nodeCnt, stack := .needLeft :: s.stack } t) ∧
    (readerBits s = false :: (byteBits sym ++ rest) → s.countNode.nodeCnt ≤ s.nodeCap →
      ∃ t, exec (.nodeLeaf sym) s = .next t ∧ consumed (false :: byteBits sym) rest s t ∧ readerOk t ∧
        readOnly { s with
          nodeCnt := s.countNode.nodeCnt
          stack := (closeFrames s.stack (.leaf sym false)).1
          tree := (closeFrames s.stack (.leaf sym false)).2.orElse fun _ => s.tree } t) ∧
    (∀ b, readerBits s = b :: rest → s.nodeCap < s.countNode.nodeCnt →
      ∃ t, exec (if b then .nodeInternal else .nodeLeaf sym) s = .next t ∧ endedIn .capacityExceeded t ∧
        consumed [b] rest s t ∧ t.stack = s.stack ∧ t.tree = s.tree)

/-- R112, R62: running the node records of a tree one by one is `DESERIALIZE`. -/
def Obligations.RecordsOfATreeMakeDeserialize : Prop :=
  ∀ (s : State) (n : Node) (rest : List Bool), readerOk s → noFail s → nodeCount n ≤ s.nodeCap →
    readerBits s = serialBits n ++ rest →
    ∃ t, execAll (treeRecords n) { s with stack := [], nodeCnt := 0 } = .next t ∧ exec .deserialize s = .next t

/-- R65, R117: a bit of a code word moves the walker to the left or the right child, from `CUR`, or from
the root when the last code word has ended; at the end of the payload it raises `InvalidHeader` instead.
That a record is run as an operation of its own, and where it starts, is the model's (log entry 8). -/
def Obligations.PathBitsMoveTheWalker : Prop :=
  ∀ (s : State) (l r : Node) (b : Bool) (rest : List Bool), readerOk s → noFail s →
    (s.cur = .internal l r ∨ (∃ v flag, s.cur = .leaf v flag) ∧ s.tree = some (.internal l r)) →
    readerBits s = b :: rest →
    (s.rdBitcnt ≠ s.payEnd →
      ∃ t, exec (if b then .pathRight else .pathLeft) s = .next t ∧ consumed [b] rest s t ∧ readerOk t ∧
        readOnly { s with cur := if b then r else l } t) ∧
    (s.rdBitcnt = s.payEnd →
      exec (if b then .pathRight else .pathLeft) s =
        .next { s with err := .invalidHeader, status := .fault, phase := .halt })

/-- R66, R72 (a): the decoder reads no padding. That a padding bit is run as an operation of its own, which
then changes nothing, is the model's (log entry 8). -/
def Obligations.PaddingIsNeverRead : Prop :=
  ∀ s : State, exec .pad s = .next s
end

