-- ==== Sys2Proof/Laws/Memory.lean ====
section
/-!
SUPPORT. The laws of a stream's contents: a read after a write to the same index gives the byte
written (R45), a write leaves every other index alone, and every write keeps the canonical form.
-/
namespace Sys2Proof.Machine

theorem Mem.read_erase_same (m : Mem) (a : Nat) : (m.erase a).read a = Config.unlistedByte := by
  induction m with
  | nil => rfl
  | cons c m ih =>
    by_cases h : c.1 = a
    · simpa [Mem.erase, h] using ih
    · simpa [Mem.erase, h, Mem.read] using ih

theorem Mem.read_erase_other (m : Mem) {a b : Nat} (hne : b ≠ a) : (m.erase a).read b = m.read b := by
  induction m with
  | nil => rfl
  | cons c m ih =>
    by_cases h : c.1 = a
    · have hb : c.1 ≠ b := fun e => hne (e.symm.trans h)
      simpa [Mem.erase, h, Mem.read, hb, hne.symm] using ih
    · by_cases hb : c.1 = b
      · simp [Mem.erase, Mem.read, hb, hne]
      · simpa [Mem.erase, h, Mem.read, hb] using ih

theorem Mem.read_insert_same (m : Mem) (a : Nat) (v : Byte) (h : ∀ c ∈ m, c.1 ≠ a) :
    (Mem.insert a v m).read a = v := by
  induction m with
  | nil => simp [Mem.insert, Mem.read]
  | cons c m ih =>
    have hc : c.1 ≠ a := h c (by simp)
    by_cases hl : a < c.1
    · simp [Mem.insert, hl, Mem.read]
    · simpa [Mem.insert, hl, Mem.read, hc] using ih fun d hd => h d (by simp [hd])

theorem Mem.read_insert_other (m : Mem) {a b : Nat} (v : Byte) (hne : b ≠ a) :
    (Mem.insert a v m).read b = m.read b := by
  induction m with
  | nil => simp [Mem.insert, Mem.read, hne.symm]
  | cons c m ih =>
    by_cases hl : a < c.1
    · simp [Mem.insert, hl, Mem.read, hne.symm]
    · rw [Mem.insert, if_neg hl]
      by_cases hb : c.1 = b <;> simp [Mem.read, hb, ih]

/-- A read after a write to the same index gives the byte written (R45). -/
@[simp] theorem Mem.read_write_same (m : Mem) (a : Nat) (v : Byte) : (m.write a v).read a = v := by
  by_cases h : v = Config.unlistedByte
  · simp [Mem.write, h, Mem.read_erase_same]
  · rw [Mem.write, if_neg h, Mem.read_insert_same]
    intro c hc
    simpa using (List.mem_filter.1 hc).2

/-- A write leaves every other index alone (R45). -/
theorem Mem.read_write_other (m : Mem) {a b : Nat} (v : Byte) (hne : b ≠ a) :
    (m.write a v).read b = m.read b := by
  by_cases h : v = Config.unlistedByte
  · simp [Mem.write, h, Mem.read_erase_other m hne]
  · rw [Mem.write, if_neg h, Mem.read_insert_other _ v hne, Mem.read_erase_other m hne]

theorem Mem.read_write (m : Mem) (a b : Nat) (v : Byte) :
    (m.write a v).read b = if b = a then v else m.read b := by
  split
  · next h => subst h; simp
  · next h => exact Mem.read_write_other m v h

theorem Mem.erase_wf {m : Mem} (h : m.wf) (a : Nat) : (m.erase a).wf :=
  ⟨h.1.filter _, fun c hc => h.2 c (List.mem_filter.1 hc).1⟩

theorem Mem.mem_insert {m : Mem} {a : Nat} {v : Byte} {c : Host.Cell} (h : c ∈ Mem.insert a v m) :
    c = (a, v) ∨ c ∈ m := by
  induction m with
  | nil => simpa [Mem.insert] using h
  | cons d m ih =>
    by_cases hl : a < d.1
    · simpa [Mem.insert, hl] using h
    · rcases List.mem_cons.1 (by simpa [Mem.insert, hl] using h) with h | h
      · exact .inr (by simp [h])
      · exact (ih h).imp_right fun h => by simp [h]

theorem Mem.insert_wf {m : Mem} {a : Nat} {v : Byte} (h : m.wf) (ha : ∀ c ∈ m, c.1 ≠ a)
    (hv : v ≠ Config.unlistedByte) : (Mem.insert a v m).wf := by
  refine ⟨?_, fun c hc => ?_⟩
  · induction m with
    | nil => simp [Mem.insert]
    | cons d m ih =>
      have hd : d.1 ≠ a := ha d (by simp)
      have hp := List.pairwise_cons.1 h.1
      by_cases hl : a < d.1
      · rw [Mem.insert, if_pos hl]
        refine List.pairwise_cons.2 ⟨fun c hc => ?_, h.1⟩
        rcases List.mem_cons.1 hc with rfl | hc
        · exact hl
        · exact lt_trans hl (hp.1 c hc)
      · rw [Mem.insert, if_neg hl]
        refine List.pairwise_cons.2 ⟨fun c hc => ?_, ih ⟨hp.2, fun c hc => h.2 c (by simp [hc])⟩ fun c hc => ha c (by simp [hc])⟩
        rcases Mem.mem_insert hc with rfl | hc
        · exact lt_of_le_of_ne (not_lt.1 hl) hd
        · exact hp.1 c hc
  · rcases Mem.mem_insert hc with rfl | hc
    · exact hv
    · exact h.2 c hc

/-- Every write keeps the canonical form. -/
theorem Mem.write_wf {m : Mem} (h : m.wf) (a : Nat) (v : Byte) : (m.write a v).wf := by
  by_cases hv : v = Config.unlistedByte
  · simpa [Mem.write, hv] using Mem.erase_wf h a
  · rw [Mem.write, if_neg hv]
    exact Mem.insert_wf (Mem.erase_wf h a) (fun c hc => by simpa using (List.mem_filter.1 hc).2) hv

theorem State.reset_wf : State.reset.inp.wf ∧ State.reset.out.wf := by
  simp [State.reset, Mem.wf]

end Sys2Proof.Machine
end

