-- ==== Sys2Proof/Laws/State.lean ====
section
/-!
SUPPORT. What each named update of the state does to each field, all by rfl: no proof needs to unfold a
record update. One lemma per field per update.
-/
namespace Sys2Proof.Machine

@[simp] theorem State.setRes_op (s : State) (n : Nat) : (s.setRes n).op = s.op := rfl
@[simp] theorem State.setRes_status (s : State) (n : Nat) : (s.setRes n).status = s.status := rfl
@[simp] theorem State.setRes_err (s : State) (n : Nat) : (s.setRes n).err = s.err := rfl
@[simp] theorem State.setRes_hdrTree (s : State) (n : Nat) : (s.setRes n).hdrTree = s.hdrTree := rfl
@[simp] theorem State.setRes_hdrData (s : State) (n : Nat) : (s.setRes n).hdrData = s.hdrData := rfl
@[simp] theorem State.setRes_outLen (s : State) (n : Nat) : (s.setRes n).outLen = s.outLen := rfl
@[simp] theorem State.setRes_phase (s : State) (n : Nat) : (s.setRes n).phase = s.phase := rfl
@[simp] theorem State.setRes_inPos (s : State) (n : Nat) : (s.setRes n).inPos = s.inPos := rfl
@[simp] theorem State.setRes_rdByte (s : State) (n : Nat) : (s.setRes n).rdByte = s.rdByte := rfl
@[simp] theorem State.setRes_rdNbits (s : State) (n : Nat) : (s.setRes n).rdNbits = s.rdNbits := rfl
@[simp] theorem State.setRes_rdBitcnt (s : State) (n : Nat) : (s.setRes n).rdBitcnt = s.rdBitcnt := rfl
@[simp] theorem State.setRes_outPos (s : State) (n : Nat) : (s.setRes n).outPos = s.outPos := rfl
@[simp] theorem State.setRes_wrAcc (s : State) (n : Nat) : (s.setRes n).wrAcc = s.wrAcc := rfl
@[simp] theorem State.setRes_wrBitcnt (s : State) (n : Nat) : (s.setRes n).wrBitcnt = s.wrBitcnt := rfl
@[simp] theorem State.setRes_freq (s : State) (n : Nat) : (s.setRes n).freq = s.freq := rfl
@[simp] theorem State.setRes_tree (s : State) (n : Nat) : (s.setRes n).tree = s.tree := rfl
@[simp] theorem State.setRes_forest (s : State) (n : Nat) : (s.setRes n).forest = s.forest := rfl
@[simp] theorem State.setRes_nextOrd (s : State) (n : Nat) : (s.setRes n).nextOrd = s.nextOrd := rfl
@[simp] theorem State.setRes_code (s : State) (n : Nat) : (s.setRes n).code = s.code := rfl
@[simp] theorem State.setRes_cur (s : State) (n : Nat) : (s.setRes n).cur = s.cur := rfl
@[simp] theorem State.setRes_stack (s : State) (n : Nat) : (s.setRes n).stack = s.stack := rfl
@[simp] theorem State.setRes_nodeCnt (s : State) (n : Nat) : (s.setRes n).nodeCnt = s.nodeCnt := rfl
@[simp] theorem State.setRes_inp (s : State) (n : Nat) : (s.setRes n).inp = s.inp := rfl
@[simp] theorem State.setRes_inLen (s : State) (n : Nat) : (s.setRes n).inLen = s.inLen := rfl
@[simp] theorem State.setRes_out (s : State) (n : Nat) : (s.setRes n).out = s.out := rfl
@[simp] theorem State.setRes_useq (s : State) (n : Nat) : (s.setRes n).useq = s.useq := rfl
@[simp] theorem State.setRes_t0 (s : State) (n : Nat) : (s.setRes n).t0 = s.t0 := rfl
@[simp] theorem State.setRes_d0 (s : State) (n : Nat) : (s.setRes n).d0 = s.d0 := rfl
@[simp] theorem State.setRes_tb (s : State) (n : Nat) : (s.setRes n).tb = s.tb := rfl
@[simp] theorem State.setRes_db (s : State) (n : Nat) : (s.setRes n).db = s.db := rfl
@[simp] theorem State.setRes_payEnd (s : State) (n : Nat) : (s.setRes n).payEnd = s.payEnd := rfl
@[simp] theorem State.setRes_res (s : State) (n : Nat) : (s.setRes n).res = n := rfl
@[simp] theorem State.setRes_ir (s : State) (n : Nat) : (s.setRes n).ir = s.ir := rfl
@[simp] theorem State.setRes_opnd (s : State) (n : Nat) : (s.setRes n).opnd = s.opnd := rfl
@[simp] theorem State.setRes_nodeCap (s : State) (n : Nat) : (s.setRes n).nodeCap = s.nodeCap := rfl
@[simp] theorem State.setRes_envFail (s : State) (n : Nat) : (s.setRes n).envFail = s.envFail := rfl
@[simp] theorem State.setRes_hostQ (s : State) (n : Nat) : (s.setRes n).hostQ = s.hostQ := rfl
@[simp] theorem State.setRes_hostRd (s : State) (n : Nat) : (s.setRes n).hostRd = s.hostRd := rfl

@[simp] theorem State.faultEntry_op (s : State) (k : Err) : (s.faultEntry k).op = s.op := rfl
@[simp] theorem State.faultEntry_status (s : State) (k : Err) : (s.faultEntry k).status = .fault := rfl
@[simp] theorem State.faultEntry_err (s : State) (k : Err) : (s.faultEntry k).err = k := rfl
@[simp] theorem State.faultEntry_hdrTree (s : State) (k : Err) : (s.faultEntry k).hdrTree = s.hdrTree := rfl
@[simp] theorem State.faultEntry_hdrData (s : State) (k : Err) : (s.faultEntry k).hdrData = s.hdrData := rfl
@[simp] theorem State.faultEntry_outLen (s : State) (k : Err) : (s.faultEntry k).outLen = s.outLen := rfl
@[simp] theorem State.faultEntry_phase (s : State) (k : Err) : (s.faultEntry k).phase = .halt := rfl
@[simp] theorem State.faultEntry_inPos (s : State) (k : Err) : (s.faultEntry k).inPos = s.inPos := rfl
@[simp] theorem State.faultEntry_rdByte (s : State) (k : Err) : (s.faultEntry k).rdByte = s.rdByte := rfl
@[simp] theorem State.faultEntry_rdNbits (s : State) (k : Err) : (s.faultEntry k).rdNbits = s.rdNbits := rfl
@[simp] theorem State.faultEntry_rdBitcnt (s : State) (k : Err) : (s.faultEntry k).rdBitcnt = s.rdBitcnt := rfl
@[simp] theorem State.faultEntry_outPos (s : State) (k : Err) : (s.faultEntry k).outPos = s.outPos := rfl
@[simp] theorem State.faultEntry_wrAcc (s : State) (k : Err) : (s.faultEntry k).wrAcc = s.wrAcc := rfl
@[simp] theorem State.faultEntry_wrBitcnt (s : State) (k : Err) : (s.faultEntry k).wrBitcnt = s.wrBitcnt := rfl
@[simp] theorem State.faultEntry_freq (s : State) (k : Err) : (s.faultEntry k).freq = s.freq := rfl
@[simp] theorem State.faultEntry_tree (s : State) (k : Err) : (s.faultEntry k).tree = s.tree := rfl
@[simp] theorem State.faultEntry_forest (s : State) (k : Err) : (s.faultEntry k).forest = s.forest := rfl
@[simp] theorem State.faultEntry_nextOrd (s : State) (k : Err) : (s.faultEntry k).nextOrd = s.nextOrd := rfl
@[simp] theorem State.faultEntry_code (s : State) (k : Err) : (s.faultEntry k).code = s.code := rfl
@[simp] theorem State.faultEntry_cur (s : State) (k : Err) : (s.faultEntry k).cur = s.cur := rfl
@[simp] theorem State.faultEntry_stack (s : State) (k : Err) : (s.faultEntry k).stack = s.stack := rfl
@[simp] theorem State.faultEntry_nodeCnt (s : State) (k : Err) : (s.faultEntry k).nodeCnt = s.nodeCnt := rfl
@[simp] theorem State.faultEntry_inp (s : State) (k : Err) : (s.faultEntry k).inp = s.inp := rfl
@[simp] theorem State.faultEntry_inLen (s : State) (k : Err) : (s.faultEntry k).inLen = s.inLen := rfl
@[simp] theorem State.faultEntry_out (s : State) (k : Err) : (s.faultEntry k).out = s.out := rfl
@[simp] theorem State.faultEntry_useq (s : State) (k : Err) : (s.faultEntry k).useq = s.useq := rfl
@[simp] theorem State.faultEntry_t0 (s : State) (k : Err) : (s.faultEntry k).t0 = s.t0 := rfl
@[simp] theorem State.faultEntry_d0 (s : State) (k : Err) : (s.faultEntry k).d0 = s.d0 := rfl
@[simp] theorem State.faultEntry_tb (s : State) (k : Err) : (s.faultEntry k).tb = s.tb := rfl
@[simp] theorem State.faultEntry_db (s : State) (k : Err) : (s.faultEntry k).db = s.db := rfl
@[simp] theorem State.faultEntry_payEnd (s : State) (k : Err) : (s.faultEntry k).payEnd = s.payEnd := rfl
@[simp] theorem State.faultEntry_res (s : State) (k : Err) : (s.faultEntry k).res = s.res := rfl
@[simp] theorem State.faultEntry_ir (s : State) (k : Err) : (s.faultEntry k).ir = s.ir := rfl
@[simp] theorem State.faultEntry_opnd (s : State) (k : Err) : (s.faultEntry k).opnd = s.opnd := rfl
@[simp] theorem State.faultEntry_nodeCap (s : State) (k : Err) : (s.faultEntry k).nodeCap = s.nodeCap := rfl
@[simp] theorem State.faultEntry_envFail (s : State) (k : Err) : (s.faultEntry k).envFail = s.envFail := rfl
@[simp] theorem State.faultEntry_hostQ (s : State) (k : Err) : (s.faultEntry k).hostQ = s.hostQ := rfl
@[simp] theorem State.faultEntry_hostRd (s : State) (k : Err) : (s.faultEntry k).hostRd = s.hostRd := rfl

@[simp] theorem State.complete_op (s : State) : (s.complete).op = s.op := rfl
@[simp] theorem State.complete_status (s : State) : (s.complete).status = .done := rfl
@[simp] theorem State.complete_err (s : State) : (s.complete).err = s.err := rfl
@[simp] theorem State.complete_hdrTree (s : State) : (s.complete).hdrTree = s.hdrTree := rfl
@[simp] theorem State.complete_hdrData (s : State) : (s.complete).hdrData = s.hdrData := rfl
@[simp] theorem State.complete_outLen (s : State) : (s.complete).outLen = s.outLen := rfl
@[simp] theorem State.complete_phase (s : State) : (s.complete).phase = .halt := rfl
@[simp] theorem State.complete_inPos (s : State) : (s.complete).inPos = s.inPos := rfl
@[simp] theorem State.complete_rdByte (s : State) : (s.complete).rdByte = s.rdByte := rfl
@[simp] theorem State.complete_rdNbits (s : State) : (s.complete).rdNbits = s.rdNbits := rfl
@[simp] theorem State.complete_rdBitcnt (s : State) : (s.complete).rdBitcnt = s.rdBitcnt := rfl
@[simp] theorem State.complete_outPos (s : State) : (s.complete).outPos = s.outPos := rfl
@[simp] theorem State.complete_wrAcc (s : State) : (s.complete).wrAcc = s.wrAcc := rfl
@[simp] theorem State.complete_wrBitcnt (s : State) : (s.complete).wrBitcnt = s.wrBitcnt := rfl
@[simp] theorem State.complete_freq (s : State) : (s.complete).freq = s.freq := rfl
@[simp] theorem State.complete_tree (s : State) : (s.complete).tree = s.tree := rfl
@[simp] theorem State.complete_forest (s : State) : (s.complete).forest = s.forest := rfl
@[simp] theorem State.complete_nextOrd (s : State) : (s.complete).nextOrd = s.nextOrd := rfl
@[simp] theorem State.complete_code (s : State) : (s.complete).code = s.code := rfl
@[simp] theorem State.complete_cur (s : State) : (s.complete).cur = s.cur := rfl
@[simp] theorem State.complete_stack (s : State) : (s.complete).stack = s.stack := rfl
@[simp] theorem State.complete_nodeCnt (s : State) : (s.complete).nodeCnt = s.nodeCnt := rfl
@[simp] theorem State.complete_inp (s : State) : (s.complete).inp = s.inp := rfl
@[simp] theorem State.complete_inLen (s : State) : (s.complete).inLen = s.inLen := rfl
@[simp] theorem State.complete_out (s : State) : (s.complete).out = s.out := rfl
@[simp] theorem State.complete_useq (s : State) : (s.complete).useq = s.useq := rfl
@[simp] theorem State.complete_t0 (s : State) : (s.complete).t0 = s.t0 := rfl
@[simp] theorem State.complete_d0 (s : State) : (s.complete).d0 = s.d0 := rfl
@[simp] theorem State.complete_tb (s : State) : (s.complete).tb = s.tb := rfl
@[simp] theorem State.complete_db (s : State) : (s.complete).db = s.db := rfl
@[simp] theorem State.complete_payEnd (s : State) : (s.complete).payEnd = s.payEnd := rfl
@[simp] theorem State.complete_res (s : State) : (s.complete).res = s.res := rfl
@[simp] theorem State.complete_ir (s : State) : (s.complete).ir = s.ir := rfl
@[simp] theorem State.complete_opnd (s : State) : (s.complete).opnd = s.opnd := rfl
@[simp] theorem State.complete_nodeCap (s : State) : (s.complete).nodeCap = s.nodeCap := rfl
@[simp] theorem State.complete_envFail (s : State) : (s.complete).envFail = s.envFail := rfl
@[simp] theorem State.complete_hostQ (s : State) : (s.complete).hostQ = s.hostQ := rfl
@[simp] theorem State.complete_hostRd (s : State) : (s.complete).hostRd = s.hostRd := rfl

@[simp] theorem State.popEnv_op (s : State) : (s.popEnv).op = s.op := rfl
@[simp] theorem State.popEnv_status (s : State) : (s.popEnv).status = s.status := rfl
@[simp] theorem State.popEnv_err (s : State) : (s.popEnv).err = s.err := rfl
@[simp] theorem State.popEnv_hdrTree (s : State) : (s.popEnv).hdrTree = s.hdrTree := rfl
@[simp] theorem State.popEnv_hdrData (s : State) : (s.popEnv).hdrData = s.hdrData := rfl
@[simp] theorem State.popEnv_outLen (s : State) : (s.popEnv).outLen = s.outLen := rfl
@[simp] theorem State.popEnv_phase (s : State) : (s.popEnv).phase = s.phase := rfl
@[simp] theorem State.popEnv_inPos (s : State) : (s.popEnv).inPos = s.inPos := rfl
@[simp] theorem State.popEnv_rdByte (s : State) : (s.popEnv).rdByte = s.rdByte := rfl
@[simp] theorem State.popEnv_rdNbits (s : State) : (s.popEnv).rdNbits = s.rdNbits := rfl
@[simp] theorem State.popEnv_rdBitcnt (s : State) : (s.popEnv).rdBitcnt = s.rdBitcnt := rfl
@[simp] theorem State.popEnv_outPos (s : State) : (s.popEnv).outPos = s.outPos := rfl
@[simp] theorem State.popEnv_wrAcc (s : State) : (s.popEnv).wrAcc = s.wrAcc := rfl
@[simp] theorem State.popEnv_wrBitcnt (s : State) : (s.popEnv).wrBitcnt = s.wrBitcnt := rfl
@[simp] theorem State.popEnv_freq (s : State) : (s.popEnv).freq = s.freq := rfl
@[simp] theorem State.popEnv_tree (s : State) : (s.popEnv).tree = s.tree := rfl
@[simp] theorem State.popEnv_forest (s : State) : (s.popEnv).forest = s.forest := rfl
@[simp] theorem State.popEnv_nextOrd (s : State) : (s.popEnv).nextOrd = s.nextOrd := rfl
@[simp] theorem State.popEnv_code (s : State) : (s.popEnv).code = s.code := rfl
@[simp] theorem State.popEnv_cur (s : State) : (s.popEnv).cur = s.cur := rfl
@[simp] theorem State.popEnv_stack (s : State) : (s.popEnv).stack = s.stack := rfl
@[simp] theorem State.popEnv_nodeCnt (s : State) : (s.popEnv).nodeCnt = s.nodeCnt := rfl
@[simp] theorem State.popEnv_inp (s : State) : (s.popEnv).inp = s.inp := rfl
@[simp] theorem State.popEnv_inLen (s : State) : (s.popEnv).inLen = s.inLen := rfl
@[simp] theorem State.popEnv_out (s : State) : (s.popEnv).out = s.out := rfl
@[simp] theorem State.popEnv_useq (s : State) : (s.popEnv).useq = s.useq := rfl
@[simp] theorem State.popEnv_t0 (s : State) : (s.popEnv).t0 = s.t0 := rfl
@[simp] theorem State.popEnv_d0 (s : State) : (s.popEnv).d0 = s.d0 := rfl
@[simp] theorem State.popEnv_tb (s : State) : (s.popEnv).tb = s.tb := rfl
@[simp] theorem State.popEnv_db (s : State) : (s.popEnv).db = s.db := rfl
@[simp] theorem State.popEnv_payEnd (s : State) : (s.popEnv).payEnd = s.payEnd := rfl
@[simp] theorem State.popEnv_res (s : State) : (s.popEnv).res = s.res := rfl
@[simp] theorem State.popEnv_ir (s : State) : (s.popEnv).ir = s.ir := rfl
@[simp] theorem State.popEnv_opnd (s : State) : (s.popEnv).opnd = s.opnd := rfl
@[simp] theorem State.popEnv_nodeCap (s : State) : (s.popEnv).nodeCap = s.nodeCap := rfl
@[simp] theorem State.popEnv_envFail (s : State) : (s.popEnv).envFail = s.envFail.tail := rfl
@[simp] theorem State.popEnv_hostQ (s : State) : (s.popEnv).hostQ = s.hostQ := rfl
@[simp] theorem State.popEnv_hostRd (s : State) : (s.popEnv).hostRd = s.hostRd := rfl

@[simp] theorem State.storeOut_op (s : State) (v : Byte) : (s.storeOut v).op = s.op := rfl
@[simp] theorem State.storeOut_status (s : State) (v : Byte) : (s.storeOut v).status = s.status := rfl
@[simp] theorem State.storeOut_err (s : State) (v : Byte) : (s.storeOut v).err = s.err := rfl
@[simp] theorem State.storeOut_hdrTree (s : State) (v : Byte) : (s.storeOut v).hdrTree = s.hdrTree := rfl
@[simp] theorem State.storeOut_hdrData (s : State) (v : Byte) : (s.storeOut v).hdrData = s.hdrData := rfl
@[simp] theorem State.storeOut_outLen (s : State) (v : Byte) : (s.storeOut v).outLen = max s.outLen (s.outPos + 1) := rfl
@[simp] theorem State.storeOut_phase (s : State) (v : Byte) : (s.storeOut v).phase = s.phase := rfl
@[simp] theorem State.storeOut_inPos (s : State) (v : Byte) : (s.storeOut v).inPos = s.inPos := rfl
@[simp] theorem State.storeOut_rdByte (s : State) (v : Byte) : (s.storeOut v).rdByte = s.rdByte := rfl
@[simp] theorem State.storeOut_rdNbits (s : State) (v : Byte) : (s.storeOut v).rdNbits = s.rdNbits := rfl
@[simp] theorem State.storeOut_rdBitcnt (s : State) (v : Byte) : (s.storeOut v).rdBitcnt = s.rdBitcnt := rfl
@[simp] theorem State.storeOut_outPos (s : State) (v : Byte) : (s.storeOut v).outPos = s.outPos + 1 := rfl
@[simp] theorem State.storeOut_wrAcc (s : State) (v : Byte) : (s.storeOut v).wrAcc = s.wrAcc := rfl
@[simp] theorem State.storeOut_wrBitcnt (s : State) (v : Byte) : (s.storeOut v).wrBitcnt = s.wrBitcnt := rfl
@[simp] theorem State.storeOut_freq (s : State) (v : Byte) : (s.storeOut v).freq = s.freq := rfl
@[simp] theorem State.storeOut_tree (s : State) (v : Byte) : (s.storeOut v).tree = s.tree := rfl
@[simp] theorem State.storeOut_forest (s : State) (v : Byte) : (s.storeOut v).forest = s.forest := rfl
@[simp] theorem State.storeOut_nextOrd (s : State) (v : Byte) : (s.storeOut v).nextOrd = s.nextOrd := rfl
@[simp] theorem State.storeOut_code (s : State) (v : Byte) : (s.storeOut v).code = s.code := rfl
@[simp] theorem State.storeOut_cur (s : State) (v : Byte) : (s.storeOut v).cur = s.cur := rfl
@[simp] theorem State.storeOut_stack (s : State) (v : Byte) : (s.storeOut v).stack = s.stack := rfl
@[simp] theorem State.storeOut_nodeCnt (s : State) (v : Byte) : (s.storeOut v).nodeCnt = s.nodeCnt := rfl
@[simp] theorem State.storeOut_inp (s : State) (v : Byte) : (s.storeOut v).inp = s.inp := rfl
@[simp] theorem State.storeOut_inLen (s : State) (v : Byte) : (s.storeOut v).inLen = s.inLen := rfl
@[simp] theorem State.storeOut_out (s : State) (v : Byte) : (s.storeOut v).out = s.out.write s.outPos v := rfl
@[simp] theorem State.storeOut_useq (s : State) (v : Byte) : (s.storeOut v).useq = s.useq := rfl
@[simp] theorem State.storeOut_t0 (s : State) (v : Byte) : (s.storeOut v).t0 = s.t0 := rfl
@[simp] theorem State.storeOut_d0 (s : State) (v : Byte) : (s.storeOut v).d0 = s.d0 := rfl
@[simp] theorem State.storeOut_tb (s : State) (v : Byte) : (s.storeOut v).tb = s.tb := rfl
@[simp] theorem State.storeOut_db (s : State) (v : Byte) : (s.storeOut v).db = s.db := rfl
@[simp] theorem State.storeOut_payEnd (s : State) (v : Byte) : (s.storeOut v).payEnd = s.payEnd := rfl
@[simp] theorem State.storeOut_res (s : State) (v : Byte) : (s.storeOut v).res = s.res := rfl
@[simp] theorem State.storeOut_ir (s : State) (v : Byte) : (s.storeOut v).ir = s.ir := rfl
@[simp] theorem State.storeOut_opnd (s : State) (v : Byte) : (s.storeOut v).opnd = s.opnd := rfl
@[simp] theorem State.storeOut_nodeCap (s : State) (v : Byte) : (s.storeOut v).nodeCap = s.nodeCap := rfl
@[simp] theorem State.storeOut_envFail (s : State) (v : Byte) : (s.storeOut v).envFail = s.envFail := rfl
@[simp] theorem State.storeOut_hostQ (s : State) (v : Byte) : (s.storeOut v).hostQ = s.hostQ := rfl
@[simp] theorem State.storeOut_hostRd (s : State) (v : Byte) : (s.storeOut v).hostRd = s.hostRd := rfl

@[simp] theorem State.begin_op (s : State) (o : BitVec 1) : (s.begin o).op = o := rfl
@[simp] theorem State.begin_status (s : State) (o : BitVec 1) : (s.begin o).status = .busy := rfl
@[simp] theorem State.begin_err (s : State) (o : BitVec 1) : (s.begin o).err = .none := rfl
@[simp] theorem State.begin_hdrTree (s : State) (o : BitVec 1) : (s.begin o).hdrTree = 0#32 := rfl
@[simp] theorem State.begin_hdrData (s : State) (o : BitVec 1) : (s.begin o).hdrData = 0#32 := rfl
@[simp] theorem State.begin_outLen (s : State) (o : BitVec 1) : (s.begin o).outLen = 0 := rfl
@[simp] theorem State.begin_phase (s : State) (o : BitVec 1) : (s.begin o).phase = if o = 0#1 then .eCount else .dHeader := rfl
@[simp] theorem State.begin_inPos (s : State) (o : BitVec 1) : (s.begin o).inPos = 0 := rfl
@[simp] theorem State.begin_rdByte (s : State) (o : BitVec 1) : (s.begin o).rdByte = 0#8 := rfl
@[simp] theorem State.begin_rdNbits (s : State) (o : BitVec 1) : (s.begin o).rdNbits = 0 := rfl
@[simp] theorem State.begin_rdBitcnt (s : State) (o : BitVec 1) : (s.begin o).rdBitcnt = 0 := rfl
@[simp] theorem State.begin_outPos (s : State) (o : BitVec 1) : (s.begin o).outPos = 0 := rfl
@[simp] theorem State.begin_wrAcc (s : State) (o : BitVec 1) : (s.begin o).wrAcc = [] := rfl
@[simp] theorem State.begin_wrBitcnt (s : State) (o : BitVec 1) : (s.begin o).wrBitcnt = 0 := rfl
@[simp] theorem State.begin_freq (s : State) (o : BitVec 1) : (s.begin o).freq = s.freq := rfl
@[simp] theorem State.begin_tree (s : State) (o : BitVec 1) : (s.begin o).tree = none := rfl
@[simp] theorem State.begin_forest (s : State) (o : BitVec 1) : (s.begin o).forest = s.forest := rfl
@[simp] theorem State.begin_nextOrd (s : State) (o : BitVec 1) : (s.begin o).nextOrd = s.nextOrd := rfl
@[simp] theorem State.begin_code (s : State) (o : BitVec 1) : (s.begin o).code = s.code := rfl
@[simp] theorem State.begin_cur (s : State) (o : BitVec 1) : (s.begin o).cur = s.cur := rfl
@[simp] theorem State.begin_stack (s : State) (o : BitVec 1) : (s.begin o).stack = s.stack := rfl
@[simp] theorem State.begin_nodeCnt (s : State) (o : BitVec 1) : (s.begin o).nodeCnt = s.nodeCnt := rfl
@[simp] theorem State.begin_inp (s : State) (o : BitVec 1) : (s.begin o).inp = s.inp := rfl
@[simp] theorem State.begin_inLen (s : State) (o : BitVec 1) : (s.begin o).inLen = s.inLen := rfl
@[simp] theorem State.begin_out (s : State) (o : BitVec 1) : (s.begin o).out = s.out := rfl
@[simp] theorem State.begin_useq (s : State) (o : BitVec 1) : (s.begin o).useq = 0 := rfl
@[simp] theorem State.begin_t0 (s : State) (o : BitVec 1) : (s.begin o).t0 = s.t0 := rfl
@[simp] theorem State.begin_d0 (s : State) (o : BitVec 1) : (s.begin o).d0 = s.d0 := rfl
@[simp] theorem State.begin_tb (s : State) (o : BitVec 1) : (s.begin o).tb = s.tb := rfl
@[simp] theorem State.begin_db (s : State) (o : BitVec 1) : (s.begin o).db = s.db := rfl
@[simp] theorem State.begin_payEnd (s : State) (o : BitVec 1) : (s.begin o).payEnd = s.payEnd := rfl
@[simp] theorem State.begin_res (s : State) (o : BitVec 1) : (s.begin o).res = s.res := rfl
@[simp] theorem State.begin_ir (s : State) (o : BitVec 1) : (s.begin o).ir = none := rfl
@[simp] theorem State.begin_opnd (s : State) (o : BitVec 1) : (s.begin o).opnd = s.opnd := rfl
@[simp] theorem State.begin_nodeCap (s : State) (o : BitVec 1) : (s.begin o).nodeCap = s.nodeCap := rfl
@[simp] theorem State.begin_envFail (s : State) (o : BitVec 1) : (s.begin o).envFail = s.envFail := rfl
@[simp] theorem State.begin_hostQ (s : State) (o : BitVec 1) : (s.begin o).hostQ = s.hostQ := rfl
@[simp] theorem State.begin_hostRd (s : State) (o : BitVec 1) : (s.begin o).hostRd = s.hostRd := rfl

@[simp] theorem State.takeBit_op (s : State) : (s.takeBit).op = s.op := rfl
@[simp] theorem State.takeBit_status (s : State) : (s.takeBit).status = s.status := rfl
@[simp] theorem State.takeBit_err (s : State) : (s.takeBit).err = s.err := rfl
@[simp] theorem State.takeBit_hdrTree (s : State) : (s.takeBit).hdrTree = s.hdrTree := rfl
@[simp] theorem State.takeBit_hdrData (s : State) : (s.takeBit).hdrData = s.hdrData := rfl
@[simp] theorem State.takeBit_outLen (s : State) : (s.takeBit).outLen = s.outLen := rfl
@[simp] theorem State.takeBit_phase (s : State) : (s.takeBit).phase = s.phase := rfl
@[simp] theorem State.takeBit_inPos (s : State) : (s.takeBit).inPos = s.inPos := rfl
@[simp] theorem State.takeBit_rdByte (s : State) : (s.takeBit).rdByte = s.rdByte := rfl
@[simp] theorem State.takeBit_rdNbits (s : State) : (s.takeBit).rdNbits = s.rdNbits - 1 := rfl
@[simp] theorem State.takeBit_rdBitcnt (s : State) : (s.takeBit).rdBitcnt = s.rdBitcnt + 1 := rfl
@[simp] theorem State.takeBit_outPos (s : State) : (s.takeBit).outPos = s.outPos := rfl
@[simp] theorem State.takeBit_wrAcc (s : State) : (s.takeBit).wrAcc = s.wrAcc := rfl
@[simp] theorem State.takeBit_wrBitcnt (s : State) : (s.takeBit).wrBitcnt = s.wrBitcnt := rfl
@[simp] theorem State.takeBit_freq (s : State) : (s.takeBit).freq = s.freq := rfl
@[simp] theorem State.takeBit_tree (s : State) : (s.takeBit).tree = s.tree := rfl
@[simp] theorem State.takeBit_forest (s : State) : (s.takeBit).forest = s.forest := rfl
@[simp] theorem State.takeBit_nextOrd (s : State) : (s.takeBit).nextOrd = s.nextOrd := rfl
@[simp] theorem State.takeBit_code (s : State) : (s.takeBit).code = s.code := rfl
@[simp] theorem State.takeBit_cur (s : State) : (s.takeBit).cur = s.cur := rfl
@[simp] theorem State.takeBit_stack (s : State) : (s.takeBit).stack = s.stack := rfl
@[simp] theorem State.takeBit_nodeCnt (s : State) : (s.takeBit).nodeCnt = s.nodeCnt := rfl
@[simp] theorem State.takeBit_inp (s : State) : (s.takeBit).inp = s.inp := rfl
@[simp] theorem State.takeBit_inLen (s : State) : (s.takeBit).inLen = s.inLen := rfl
@[simp] theorem State.takeBit_out (s : State) : (s.takeBit).out = s.out := rfl
@[simp] theorem State.takeBit_useq (s : State) : (s.takeBit).useq = s.useq := rfl
@[simp] theorem State.takeBit_t0 (s : State) : (s.takeBit).t0 = s.t0 := rfl
@[simp] theorem State.takeBit_d0 (s : State) : (s.takeBit).d0 = s.d0 := rfl
@[simp] theorem State.takeBit_tb (s : State) : (s.takeBit).tb = s.tb := rfl
@[simp] theorem State.takeBit_db (s : State) : (s.takeBit).db = s.db := rfl
@[simp] theorem State.takeBit_payEnd (s : State) : (s.takeBit).payEnd = s.payEnd := rfl
@[simp] theorem State.takeBit_res (s : State) : (s.takeBit).res = s.res := rfl
@[simp] theorem State.takeBit_ir (s : State) : (s.takeBit).ir = s.ir := rfl
@[simp] theorem State.takeBit_opnd (s : State) : (s.takeBit).opnd = s.opnd := rfl
@[simp] theorem State.takeBit_nodeCap (s : State) : (s.takeBit).nodeCap = s.nodeCap := rfl
@[simp] theorem State.takeBit_envFail (s : State) : (s.takeBit).envFail = s.envFail := rfl
@[simp] theorem State.takeBit_hostQ (s : State) : (s.takeBit).hostQ = s.hostQ := rfl
@[simp] theorem State.takeBit_hostRd (s : State) : (s.takeBit).hostRd = s.hostRd := rfl

@[simp] theorem State.clearAcc_op (s : State) : (s.clearAcc).op = s.op := rfl
@[simp] theorem State.clearAcc_status (s : State) : (s.clearAcc).status = s.status := rfl
@[simp] theorem State.clearAcc_err (s : State) : (s.clearAcc).err = s.err := rfl
@[simp] theorem State.clearAcc_hdrTree (s : State) : (s.clearAcc).hdrTree = s.hdrTree := rfl
@[simp] theorem State.clearAcc_hdrData (s : State) : (s.clearAcc).hdrData = s.hdrData := rfl
@[simp] theorem State.clearAcc_outLen (s : State) : (s.clearAcc).outLen = s.outLen := rfl
@[simp] theorem State.clearAcc_phase (s : State) : (s.clearAcc).phase = s.phase := rfl
@[simp] theorem State.clearAcc_inPos (s : State) : (s.clearAcc).inPos = s.inPos := rfl
@[simp] theorem State.clearAcc_rdByte (s : State) : (s.clearAcc).rdByte = s.rdByte := rfl
@[simp] theorem State.clearAcc_rdNbits (s : State) : (s.clearAcc).rdNbits = s.rdNbits := rfl
@[simp] theorem State.clearAcc_rdBitcnt (s : State) : (s.clearAcc).rdBitcnt = s.rdBitcnt := rfl
@[simp] theorem State.clearAcc_outPos (s : State) : (s.clearAcc).outPos = s.outPos := rfl
@[simp] theorem State.clearAcc_wrAcc (s : State) : (s.clearAcc).wrAcc = [] := rfl
@[simp] theorem State.clearAcc_wrBitcnt (s : State) : (s.clearAcc).wrBitcnt = s.wrBitcnt := rfl
@[simp] theorem State.clearAcc_freq (s : State) : (s.clearAcc).freq = s.freq := rfl
@[simp] theorem State.clearAcc_tree (s : State) : (s.clearAcc).tree = s.tree := rfl
@[simp] theorem State.clearAcc_forest (s : State) : (s.clearAcc).forest = s.forest := rfl
@[simp] theorem State.clearAcc_nextOrd (s : State) : (s.clearAcc).nextOrd = s.nextOrd := rfl
@[simp] theorem State.clearAcc_code (s : State) : (s.clearAcc).code = s.code := rfl
@[simp] theorem State.clearAcc_cur (s : State) : (s.clearAcc).cur = s.cur := rfl
@[simp] theorem State.clearAcc_stack (s : State) : (s.clearAcc).stack = s.stack := rfl
@[simp] theorem State.clearAcc_nodeCnt (s : State) : (s.clearAcc).nodeCnt = s.nodeCnt := rfl
@[simp] theorem State.clearAcc_inp (s : State) : (s.clearAcc).inp = s.inp := rfl
@[simp] theorem State.clearAcc_inLen (s : State) : (s.clearAcc).inLen = s.inLen := rfl
@[simp] theorem State.clearAcc_out (s : State) : (s.clearAcc).out = s.out := rfl
@[simp] theorem State.clearAcc_useq (s : State) : (s.clearAcc).useq = s.useq := rfl
@[simp] theorem State.clearAcc_t0 (s : State) : (s.clearAcc).t0 = s.t0 := rfl
@[simp] theorem State.clearAcc_d0 (s : State) : (s.clearAcc).d0 = s.d0 := rfl
@[simp] theorem State.clearAcc_tb (s : State) : (s.clearAcc).tb = s.tb := rfl
@[simp] theorem State.clearAcc_db (s : State) : (s.clearAcc).db = s.db := rfl
@[simp] theorem State.clearAcc_payEnd (s : State) : (s.clearAcc).payEnd = s.payEnd := rfl
@[simp] theorem State.clearAcc_res (s : State) : (s.clearAcc).res = s.res := rfl
@[simp] theorem State.clearAcc_ir (s : State) : (s.clearAcc).ir = s.ir := rfl
@[simp] theorem State.clearAcc_opnd (s : State) : (s.clearAcc).opnd = s.opnd := rfl
@[simp] theorem State.clearAcc_nodeCap (s : State) : (s.clearAcc).nodeCap = s.nodeCap := rfl
@[simp] theorem State.clearAcc_envFail (s : State) : (s.clearAcc).envFail = s.envFail := rfl
@[simp] theorem State.clearAcc_hostQ (s : State) : (s.clearAcc).hostQ = s.hostQ := rfl
@[simp] theorem State.clearAcc_hostRd (s : State) : (s.clearAcc).hostRd = s.hostRd := rfl

@[simp] theorem State.appendBit_op (s : State) (b : Bool) : (s.appendBit b).op = s.op := rfl
@[simp] theorem State.appendBit_status (s : State) (b : Bool) : (s.appendBit b).status = s.status := rfl
@[simp] theorem State.appendBit_err (s : State) (b : Bool) : (s.appendBit b).err = s.err := rfl
@[simp] theorem State.appendBit_hdrTree (s : State) (b : Bool) : (s.appendBit b).hdrTree = s.hdrTree := rfl
@[simp] theorem State.appendBit_hdrData (s : State) (b : Bool) : (s.appendBit b).hdrData = s.hdrData := rfl
@[simp] theorem State.appendBit_outLen (s : State) (b : Bool) : (s.appendBit b).outLen = s.outLen := rfl
@[simp] theorem State.appendBit_phase (s : State) (b : Bool) : (s.appendBit b).phase = s.phase := rfl
@[simp] theorem State.appendBit_inPos (s : State) (b : Bool) : (s.appendBit b).inPos = s.inPos := rfl
@[simp] theorem State.appendBit_rdByte (s : State) (b : Bool) : (s.appendBit b).rdByte = s.rdByte := rfl
@[simp] theorem State.appendBit_rdNbits (s : State) (b : Bool) : (s.appendBit b).rdNbits = s.rdNbits := rfl
@[simp] theorem State.appendBit_rdBitcnt (s : State) (b : Bool) : (s.appendBit b).rdBitcnt = s.rdBitcnt := rfl
@[simp] theorem State.appendBit_outPos (s : State) (b : Bool) : (s.appendBit b).outPos = s.outPos := rfl
@[simp] theorem State.appendBit_wrAcc (s : State) (b : Bool) : (s.appendBit b).wrAcc = s.wrAcc ++ [b] := rfl
@[simp] theorem State.appendBit_wrBitcnt (s : State) (b : Bool) : (s.appendBit b).wrBitcnt = s.wrBitcnt + 1 := rfl
@[simp] theorem State.appendBit_freq (s : State) (b : Bool) : (s.appendBit b).freq = s.freq := rfl
@[simp] theorem State.appendBit_tree (s : State) (b : Bool) : (s.appendBit b).tree = s.tree := rfl
@[simp] theorem State.appendBit_forest (s : State) (b : Bool) : (s.appendBit b).forest = s.forest := rfl
@[simp] theorem State.appendBit_nextOrd (s : State) (b : Bool) : (s.appendBit b).nextOrd = s.nextOrd := rfl
@[simp] theorem State.appendBit_code (s : State) (b : Bool) : (s.appendBit b).code = s.code := rfl
@[simp] theorem State.appendBit_cur (s : State) (b : Bool) : (s.appendBit b).cur = s.cur := rfl
@[simp] theorem State.appendBit_stack (s : State) (b : Bool) : (s.appendBit b).stack = s.stack := rfl
@[simp] theorem State.appendBit_nodeCnt (s : State) (b : Bool) : (s.appendBit b).nodeCnt = s.nodeCnt := rfl
@[simp] theorem State.appendBit_inp (s : State) (b : Bool) : (s.appendBit b).inp = s.inp := rfl
@[simp] theorem State.appendBit_inLen (s : State) (b : Bool) : (s.appendBit b).inLen = s.inLen := rfl
@[simp] theorem State.appendBit_out (s : State) (b : Bool) : (s.appendBit b).out = s.out := rfl
@[simp] theorem State.appendBit_useq (s : State) (b : Bool) : (s.appendBit b).useq = s.useq := rfl
@[simp] theorem State.appendBit_t0 (s : State) (b : Bool) : (s.appendBit b).t0 = s.t0 := rfl
@[simp] theorem State.appendBit_d0 (s : State) (b : Bool) : (s.appendBit b).d0 = s.d0 := rfl
@[simp] theorem State.appendBit_tb (s : State) (b : Bool) : (s.appendBit b).tb = s.tb := rfl
@[simp] theorem State.appendBit_db (s : State) (b : Bool) : (s.appendBit b).db = s.db := rfl
@[simp] theorem State.appendBit_payEnd (s : State) (b : Bool) : (s.appendBit b).payEnd = s.payEnd := rfl
@[simp] theorem State.appendBit_res (s : State) (b : Bool) : (s.appendBit b).res = s.res := rfl
@[simp] theorem State.appendBit_ir (s : State) (b : Bool) : (s.appendBit b).ir = s.ir := rfl
@[simp] theorem State.appendBit_opnd (s : State) (b : Bool) : (s.appendBit b).opnd = s.opnd := rfl
@[simp] theorem State.appendBit_nodeCap (s : State) (b : Bool) : (s.appendBit b).nodeCap = s.nodeCap := rfl
@[simp] theorem State.appendBit_envFail (s : State) (b : Bool) : (s.appendBit b).envFail = s.envFail := rfl
@[simp] theorem State.appendBit_hostQ (s : State) (b : Bool) : (s.appendBit b).hostQ = s.hostQ := rfl
@[simp] theorem State.appendBit_hostRd (s : State) (b : Bool) : (s.appendBit b).hostRd = s.hostRd := rfl

@[simp] theorem State.openNode_op (s : State) : (s.openNode).op = s.op := rfl
@[simp] theorem State.openNode_status (s : State) : (s.openNode).status = s.status := rfl
@[simp] theorem State.openNode_err (s : State) : (s.openNode).err = s.err := rfl
@[simp] theorem State.openNode_hdrTree (s : State) : (s.openNode).hdrTree = s.hdrTree := rfl
@[simp] theorem State.openNode_hdrData (s : State) : (s.openNode).hdrData = s.hdrData := rfl
@[simp] theorem State.openNode_outLen (s : State) : (s.openNode).outLen = s.outLen := rfl
@[simp] theorem State.openNode_phase (s : State) : (s.openNode).phase = s.phase := rfl
@[simp] theorem State.openNode_inPos (s : State) : (s.openNode).inPos = s.inPos := rfl
@[simp] theorem State.openNode_rdByte (s : State) : (s.openNode).rdByte = s.rdByte := rfl
@[simp] theorem State.openNode_rdNbits (s : State) : (s.openNode).rdNbits = s.rdNbits := rfl
@[simp] theorem State.openNode_rdBitcnt (s : State) : (s.openNode).rdBitcnt = s.rdBitcnt := rfl
@[simp] theorem State.openNode_outPos (s : State) : (s.openNode).outPos = s.outPos := rfl
@[simp] theorem State.openNode_wrAcc (s : State) : (s.openNode).wrAcc = s.wrAcc := rfl
@[simp] theorem State.openNode_wrBitcnt (s : State) : (s.openNode).wrBitcnt = s.wrBitcnt := rfl
@[simp] theorem State.openNode_freq (s : State) : (s.openNode).freq = s.freq := rfl
@[simp] theorem State.openNode_tree (s : State) : (s.openNode).tree = s.tree := rfl
@[simp] theorem State.openNode_forest (s : State) : (s.openNode).forest = s.forest := rfl
@[simp] theorem State.openNode_nextOrd (s : State) : (s.openNode).nextOrd = s.nextOrd := rfl
@[simp] theorem State.openNode_code (s : State) : (s.openNode).code = s.code := rfl
@[simp] theorem State.openNode_cur (s : State) : (s.openNode).cur = s.cur := rfl
@[simp] theorem State.openNode_stack (s : State) : (s.openNode).stack = .needLeft :: s.stack := rfl
@[simp] theorem State.openNode_nodeCnt (s : State) : (s.openNode).nodeCnt = s.nodeCnt := rfl
@[simp] theorem State.openNode_inp (s : State) : (s.openNode).inp = s.inp := rfl
@[simp] theorem State.openNode_inLen (s : State) : (s.openNode).inLen = s.inLen := rfl
@[simp] theorem State.openNode_out (s : State) : (s.openNode).out = s.out := rfl
@[simp] theorem State.openNode_useq (s : State) : (s.openNode).useq = s.useq := rfl
@[simp] theorem State.openNode_t0 (s : State) : (s.openNode).t0 = s.t0 := rfl
@[simp] theorem State.openNode_d0 (s : State) : (s.openNode).d0 = s.d0 := rfl
@[simp] theorem State.openNode_tb (s : State) : (s.openNode).tb = s.tb := rfl
@[simp] theorem State.openNode_db (s : State) : (s.openNode).db = s.db := rfl
@[simp] theorem State.openNode_payEnd (s : State) : (s.openNode).payEnd = s.payEnd := rfl
@[simp] theorem State.openNode_res (s : State) : (s.openNode).res = s.res := rfl
@[simp] theorem State.openNode_ir (s : State) : (s.openNode).ir = s.ir := rfl
@[simp] theorem State.openNode_opnd (s : State) : (s.openNode).opnd = s.opnd := rfl
@[simp] theorem State.openNode_nodeCap (s : State) : (s.openNode).nodeCap = s.nodeCap := rfl
@[simp] theorem State.openNode_envFail (s : State) : (s.openNode).envFail = s.envFail := rfl
@[simp] theorem State.openNode_hostQ (s : State) : (s.openNode).hostQ = s.hostQ := rfl
@[simp] theorem State.openNode_hostRd (s : State) : (s.openNode).hostRd = s.hostRd := rfl

@[simp] theorem State.countNode_op (s : State) : (s.countNode).op = s.op := rfl
@[simp] theorem State.countNode_status (s : State) : (s.countNode).status = s.status := rfl
@[simp] theorem State.countNode_err (s : State) : (s.countNode).err = s.err := rfl
@[simp] theorem State.countNode_hdrTree (s : State) : (s.countNode).hdrTree = s.hdrTree := rfl
@[simp] theorem State.countNode_hdrData (s : State) : (s.countNode).hdrData = s.hdrData := rfl
@[simp] theorem State.countNode_outLen (s : State) : (s.countNode).outLen = s.outLen := rfl
@[simp] theorem State.countNode_phase (s : State) : (s.countNode).phase = s.phase := rfl
@[simp] theorem State.countNode_inPos (s : State) : (s.countNode).inPos = s.inPos := rfl
@[simp] theorem State.countNode_rdByte (s : State) : (s.countNode).rdByte = s.rdByte := rfl
@[simp] theorem State.countNode_rdNbits (s : State) : (s.countNode).rdNbits = s.rdNbits := rfl
@[simp] theorem State.countNode_rdBitcnt (s : State) : (s.countNode).rdBitcnt = s.rdBitcnt := rfl
@[simp] theorem State.countNode_outPos (s : State) : (s.countNode).outPos = s.outPos := rfl
@[simp] theorem State.countNode_wrAcc (s : State) : (s.countNode).wrAcc = s.wrAcc := rfl
@[simp] theorem State.countNode_wrBitcnt (s : State) : (s.countNode).wrBitcnt = s.wrBitcnt := rfl
@[simp] theorem State.countNode_freq (s : State) : (s.countNode).freq = s.freq := rfl
@[simp] theorem State.countNode_tree (s : State) : (s.countNode).tree = s.tree := rfl
@[simp] theorem State.countNode_forest (s : State) : (s.countNode).forest = s.forest := rfl
@[simp] theorem State.countNode_nextOrd (s : State) : (s.countNode).nextOrd = s.nextOrd := rfl
@[simp] theorem State.countNode_code (s : State) : (s.countNode).code = s.code := rfl
@[simp] theorem State.countNode_cur (s : State) : (s.countNode).cur = s.cur := rfl
@[simp] theorem State.countNode_stack (s : State) : (s.countNode).stack = s.stack := rfl
@[simp] theorem State.countNode_nodeCnt (s : State) : (s.countNode).nodeCnt = if s.stack = [] then 1 else s.nodeCnt + 1 := rfl
@[simp] theorem State.countNode_inp (s : State) : (s.countNode).inp = s.inp := rfl
@[simp] theorem State.countNode_inLen (s : State) : (s.countNode).inLen = s.inLen := rfl
@[simp] theorem State.countNode_out (s : State) : (s.countNode).out = s.out := rfl
@[simp] theorem State.countNode_useq (s : State) : (s.countNode).useq = s.useq := rfl
@[simp] theorem State.countNode_t0 (s : State) : (s.countNode).t0 = s.t0 := rfl
@[simp] theorem State.countNode_d0 (s : State) : (s.countNode).d0 = s.d0 := rfl
@[simp] theorem State.countNode_tb (s : State) : (s.countNode).tb = s.tb := rfl
@[simp] theorem State.countNode_db (s : State) : (s.countNode).db = s.db := rfl
@[simp] theorem State.countNode_payEnd (s : State) : (s.countNode).payEnd = s.payEnd := rfl
@[simp] theorem State.countNode_res (s : State) : (s.countNode).res = s.res := rfl
@[simp] theorem State.countNode_ir (s : State) : (s.countNode).ir = s.ir := rfl
@[simp] theorem State.countNode_opnd (s : State) : (s.countNode).opnd = s.opnd := rfl
@[simp] theorem State.countNode_nodeCap (s : State) : (s.countNode).nodeCap = s.nodeCap := rfl
@[simp] theorem State.countNode_envFail (s : State) : (s.countNode).envFail = s.envFail := rfl
@[simp] theorem State.countNode_hostQ (s : State) : (s.countNode).hostQ = s.hostQ := rfl
@[simp] theorem State.countNode_hostRd (s : State) : (s.countNode).hostRd = s.hostRd := rfl

@[simp] theorem State.tally_op (s : State) (v : Byte) : (s.tally v).op = s.op := rfl
@[simp] theorem State.tally_status (s : State) (v : Byte) : (s.tally v).status = s.status := rfl
@[simp] theorem State.tally_err (s : State) (v : Byte) : (s.tally v).err = s.err := rfl
@[simp] theorem State.tally_hdrTree (s : State) (v : Byte) : (s.tally v).hdrTree = s.hdrTree := rfl
@[simp] theorem State.tally_hdrData (s : State) (v : Byte) : (s.tally v).hdrData = s.hdrData := rfl
@[simp] theorem State.tally_outLen (s : State) (v : Byte) : (s.tally v).outLen = s.outLen := rfl
@[simp] theorem State.tally_phase (s : State) (v : Byte) : (s.tally v).phase = s.phase := rfl
@[simp] theorem State.tally_inPos (s : State) (v : Byte) : (s.tally v).inPos = s.inPos := rfl
@[simp] theorem State.tally_rdByte (s : State) (v : Byte) : (s.tally v).rdByte = s.rdByte := rfl
@[simp] theorem State.tally_rdNbits (s : State) (v : Byte) : (s.tally v).rdNbits = s.rdNbits := rfl
@[simp] theorem State.tally_rdBitcnt (s : State) (v : Byte) : (s.tally v).rdBitcnt = s.rdBitcnt := rfl
@[simp] theorem State.tally_outPos (s : State) (v : Byte) : (s.tally v).outPos = s.outPos := rfl
@[simp] theorem State.tally_wrAcc (s : State) (v : Byte) : (s.tally v).wrAcc = s.wrAcc := rfl
@[simp] theorem State.tally_wrBitcnt (s : State) (v : Byte) : (s.tally v).wrBitcnt = s.wrBitcnt := rfl
@[simp] theorem State.tally_freq (s : State) (v : Byte) : (s.tally v).freq = s.freq.put v (s.freq.get v + 1) := rfl
@[simp] theorem State.tally_tree (s : State) (v : Byte) : (s.tally v).tree = s.tree := rfl
@[simp] theorem State.tally_forest (s : State) (v : Byte) : (s.tally v).forest = s.forest := rfl
@[simp] theorem State.tally_nextOrd (s : State) (v : Byte) : (s.tally v).nextOrd = s.nextOrd := rfl
@[simp] theorem State.tally_code (s : State) (v : Byte) : (s.tally v).code = s.code := rfl
@[simp] theorem State.tally_cur (s : State) (v : Byte) : (s.tally v).cur = s.cur := rfl
@[simp] theorem State.tally_stack (s : State) (v : Byte) : (s.tally v).stack = s.stack := rfl
@[simp] theorem State.tally_nodeCnt (s : State) (v : Byte) : (s.tally v).nodeCnt = s.nodeCnt := rfl
@[simp] theorem State.tally_inp (s : State) (v : Byte) : (s.tally v).inp = s.inp := rfl
@[simp] theorem State.tally_inLen (s : State) (v : Byte) : (s.tally v).inLen = s.inLen := rfl
@[simp] theorem State.tally_out (s : State) (v : Byte) : (s.tally v).out = s.out := rfl
@[simp] theorem State.tally_useq (s : State) (v : Byte) : (s.tally v).useq = s.useq := rfl
@[simp] theorem State.tally_t0 (s : State) (v : Byte) : (s.tally v).t0 = s.t0 := rfl
@[simp] theorem State.tally_d0 (s : State) (v : Byte) : (s.tally v).d0 = s.d0 := rfl
@[simp] theorem State.tally_tb (s : State) (v : Byte) : (s.tally v).tb = s.tb := rfl
@[simp] theorem State.tally_db (s : State) (v : Byte) : (s.tally v).db = s.db := rfl
@[simp] theorem State.tally_payEnd (s : State) (v : Byte) : (s.tally v).payEnd = s.payEnd := rfl
@[simp] theorem State.tally_res (s : State) (v : Byte) : (s.tally v).res = s.res := rfl
@[simp] theorem State.tally_ir (s : State) (v : Byte) : (s.tally v).ir = s.ir := rfl
@[simp] theorem State.tally_opnd (s : State) (v : Byte) : (s.tally v).opnd = s.opnd := rfl
@[simp] theorem State.tally_nodeCap (s : State) (v : Byte) : (s.tally v).nodeCap = s.nodeCap := rfl
@[simp] theorem State.tally_envFail (s : State) (v : Byte) : (s.tally v).envFail = s.envFail := rfl
@[simp] theorem State.tally_hostQ (s : State) (v : Byte) : (s.tally v).hostQ = s.hostQ := rfl
@[simp] theorem State.tally_hostRd (s : State) (v : Byte) : (s.tally v).hostRd = s.hostRd := rfl

@[simp] theorem State.latchTree_op (s : State) (n : Nat) : (s.latchTree n).op = s.op := rfl
@[simp] theorem State.latchTree_status (s : State) (n : Nat) : (s.latchTree n).status = s.status := rfl
@[simp] theorem State.latchTree_err (s : State) (n : Nat) : (s.latchTree n).err = s.err := rfl
@[simp] theorem State.latchTree_hdrTree (s : State) (n : Nat) : (s.latchTree n).hdrTree = BitVec.ofNat 32 (n - s.t0) := rfl
@[simp] theorem State.latchTree_hdrData (s : State) (n : Nat) : (s.latchTree n).hdrData = s.hdrData := rfl
@[simp] theorem State.latchTree_outLen (s : State) (n : Nat) : (s.latchTree n).outLen = s.outLen := rfl
@[simp] theorem State.latchTree_phase (s : State) (n : Nat) : (s.latchTree n).phase = s.phase := rfl
@[simp] theorem State.latchTree_inPos (s : State) (n : Nat) : (s.latchTree n).inPos = s.inPos := rfl
@[simp] theorem State.latchTree_rdByte (s : State) (n : Nat) : (s.latchTree n).rdByte = s.rdByte := rfl
@[simp] theorem State.latchTree_rdNbits (s : State) (n : Nat) : (s.latchTree n).rdNbits = s.rdNbits := rfl
@[simp] theorem State.latchTree_rdBitcnt (s : State) (n : Nat) : (s.latchTree n).rdBitcnt = s.rdBitcnt := rfl
@[simp] theorem State.latchTree_outPos (s : State) (n : Nat) : (s.latchTree n).outPos = s.outPos := rfl
@[simp] theorem State.latchTree_wrAcc (s : State) (n : Nat) : (s.latchTree n).wrAcc = s.wrAcc := rfl
@[simp] theorem State.latchTree_wrBitcnt (s : State) (n : Nat) : (s.latchTree n).wrBitcnt = s.wrBitcnt := rfl
@[simp] theorem State.latchTree_freq (s : State) (n : Nat) : (s.latchTree n).freq = s.freq := rfl
@[simp] theorem State.latchTree_tree (s : State) (n : Nat) : (s.latchTree n).tree = s.tree := rfl
@[simp] theorem State.latchTree_forest (s : State) (n : Nat) : (s.latchTree n).forest = s.forest := rfl
@[simp] theorem State.latchTree_nextOrd (s : State) (n : Nat) : (s.latchTree n).nextOrd = s.nextOrd := rfl
@[simp] theorem State.latchTree_code (s : State) (n : Nat) : (s.latchTree n).code = s.code := rfl
@[simp] theorem State.latchTree_cur (s : State) (n : Nat) : (s.latchTree n).cur = s.cur := rfl
@[simp] theorem State.latchTree_stack (s : State) (n : Nat) : (s.latchTree n).stack = s.stack := rfl
@[simp] theorem State.latchTree_nodeCnt (s : State) (n : Nat) : (s.latchTree n).nodeCnt = s.nodeCnt := rfl
@[simp] theorem State.latchTree_inp (s : State) (n : Nat) : (s.latchTree n).inp = s.inp := rfl
@[simp] theorem State.latchTree_inLen (s : State) (n : Nat) : (s.latchTree n).inLen = s.inLen := rfl
@[simp] theorem State.latchTree_out (s : State) (n : Nat) : (s.latchTree n).out = s.out := rfl
@[simp] theorem State.latchTree_useq (s : State) (n : Nat) : (s.latchTree n).useq = s.useq := rfl
@[simp] theorem State.latchTree_t0 (s : State) (n : Nat) : (s.latchTree n).t0 = s.t0 := rfl
@[simp] theorem State.latchTree_d0 (s : State) (n : Nat) : (s.latchTree n).d0 = s.d0 := rfl
@[simp] theorem State.latchTree_tb (s : State) (n : Nat) : (s.latchTree n).tb = n - s.t0 := rfl
@[simp] theorem State.latchTree_db (s : State) (n : Nat) : (s.latchTree n).db = s.db := rfl
@[simp] theorem State.latchTree_payEnd (s : State) (n : Nat) : (s.latchTree n).payEnd = s.payEnd := rfl
@[simp] theorem State.latchTree_res (s : State) (n : Nat) : (s.latchTree n).res = s.res := rfl
@[simp] theorem State.latchTree_ir (s : State) (n : Nat) : (s.latchTree n).ir = s.ir := rfl
@[simp] theorem State.latchTree_opnd (s : State) (n : Nat) : (s.latchTree n).opnd = s.opnd := rfl
@[simp] theorem State.latchTree_nodeCap (s : State) (n : Nat) : (s.latchTree n).nodeCap = s.nodeCap := rfl
@[simp] theorem State.latchTree_envFail (s : State) (n : Nat) : (s.latchTree n).envFail = s.envFail := rfl
@[simp] theorem State.latchTree_hostQ (s : State) (n : Nat) : (s.latchTree n).hostQ = s.hostQ := rfl
@[simp] theorem State.latchTree_hostRd (s : State) (n : Nat) : (s.latchTree n).hostRd = s.hostRd := rfl

@[simp] theorem State.latchData_op (s : State) (n : Nat) : (s.latchData n).op = s.op := rfl
@[simp] theorem State.latchData_status (s : State) (n : Nat) : (s.latchData n).status = s.status := rfl
@[simp] theorem State.latchData_err (s : State) (n : Nat) : (s.latchData n).err = s.err := rfl
@[simp] theorem State.latchData_hdrTree (s : State) (n : Nat) : (s.latchData n).hdrTree = s.hdrTree := rfl
@[simp] theorem State.latchData_hdrData (s : State) (n : Nat) : (s.latchData n).hdrData = s.hdrData := rfl
@[simp] theorem State.latchData_outLen (s : State) (n : Nat) : (s.latchData n).outLen = s.outLen := rfl
@[simp] theorem State.latchData_phase (s : State) (n : Nat) : (s.latchData n).phase = s.phase := rfl
@[simp] theorem State.latchData_inPos (s : State) (n : Nat) : (s.latchData n).inPos = s.inPos := rfl
@[simp] theorem State.latchData_rdByte (s : State) (n : Nat) : (s.latchData n).rdByte = s.rdByte := rfl
@[simp] theorem State.latchData_rdNbits (s : State) (n : Nat) : (s.latchData n).rdNbits = s.rdNbits := rfl
@[simp] theorem State.latchData_rdBitcnt (s : State) (n : Nat) : (s.latchData n).rdBitcnt = s.rdBitcnt := rfl
@[simp] theorem State.latchData_outPos (s : State) (n : Nat) : (s.latchData n).outPos = s.outPos := rfl
@[simp] theorem State.latchData_wrAcc (s : State) (n : Nat) : (s.latchData n).wrAcc = s.wrAcc := rfl
@[simp] theorem State.latchData_wrBitcnt (s : State) (n : Nat) : (s.latchData n).wrBitcnt = s.wrBitcnt := rfl
@[simp] theorem State.latchData_freq (s : State) (n : Nat) : (s.latchData n).freq = s.freq := rfl
@[simp] theorem State.latchData_tree (s : State) (n : Nat) : (s.latchData n).tree = s.tree := rfl
@[simp] theorem State.latchData_forest (s : State) (n : Nat) : (s.latchData n).forest = s.forest := rfl
@[simp] theorem State.latchData_nextOrd (s : State) (n : Nat) : (s.latchData n).nextOrd = s.nextOrd := rfl
@[simp] theorem State.latchData_code (s : State) (n : Nat) : (s.latchData n).code = s.code := rfl
@[simp] theorem State.latchData_cur (s : State) (n : Nat) : (s.latchData n).cur = s.cur := rfl
@[simp] theorem State.latchData_stack (s : State) (n : Nat) : (s.latchData n).stack = s.stack := rfl
@[simp] theorem State.latchData_nodeCnt (s : State) (n : Nat) : (s.latchData n).nodeCnt = s.nodeCnt := rfl
@[simp] theorem State.latchData_inp (s : State) (n : Nat) : (s.latchData n).inp = s.inp := rfl
@[simp] theorem State.latchData_inLen (s : State) (n : Nat) : (s.latchData n).inLen = s.inLen := rfl
@[simp] theorem State.latchData_out (s : State) (n : Nat) : (s.latchData n).out = s.out := rfl
@[simp] theorem State.latchData_useq (s : State) (n : Nat) : (s.latchData n).useq = s.useq := rfl
@[simp] theorem State.latchData_t0 (s : State) (n : Nat) : (s.latchData n).t0 = s.t0 := rfl
@[simp] theorem State.latchData_d0 (s : State) (n : Nat) : (s.latchData n).d0 = s.d0 := rfl
@[simp] theorem State.latchData_tb (s : State) (n : Nat) : (s.latchData n).tb = s.tb := rfl
@[simp] theorem State.latchData_db (s : State) (n : Nat) : (s.latchData n).db = n - s.d0 := rfl
@[simp] theorem State.latchData_payEnd (s : State) (n : Nat) : (s.latchData n).payEnd = s.payEnd := rfl
@[simp] theorem State.latchData_res (s : State) (n : Nat) : (s.latchData n).res = s.res := rfl
@[simp] theorem State.latchData_ir (s : State) (n : Nat) : (s.latchData n).ir = s.ir := rfl
@[simp] theorem State.latchData_opnd (s : State) (n : Nat) : (s.latchData n).opnd = s.opnd := rfl
@[simp] theorem State.latchData_nodeCap (s : State) (n : Nat) : (s.latchData n).nodeCap = s.nodeCap := rfl
@[simp] theorem State.latchData_envFail (s : State) (n : Nat) : (s.latchData n).envFail = s.envFail := rfl
@[simp] theorem State.latchData_hostQ (s : State) (n : Nat) : (s.latchData n).hostQ = s.hostQ := rfl
@[simp] theorem State.latchData_hostRd (s : State) (n : Nat) : (s.latchData n).hostRd = s.hostRd := rfl

@[simp] theorem State.latchHeader_op (s : State) (n : Nat) : (s.latchHeader n).op = s.op := rfl
@[simp] theorem State.latchHeader_status (s : State) (n : Nat) : (s.latchHeader n).status = s.status := rfl
@[simp] theorem State.latchHeader_err (s : State) (n : Nat) : (s.latchHeader n).err = s.err := rfl
@[simp] theorem State.latchHeader_hdrTree (s : State) (n : Nat) : (s.latchHeader n).hdrTree = BitVec.ofNat 32 s.tb := rfl
@[simp] theorem State.latchHeader_hdrData (s : State) (n : Nat) : (s.latchHeader n).hdrData = BitVec.ofNat 32 n := rfl
@[simp] theorem State.latchHeader_outLen (s : State) (n : Nat) : (s.latchHeader n).outLen = s.outLen := rfl
@[simp] theorem State.latchHeader_phase (s : State) (n : Nat) : (s.latchHeader n).phase = s.phase := rfl
@[simp] theorem State.latchHeader_inPos (s : State) (n : Nat) : (s.latchHeader n).inPos = s.inPos := rfl
@[simp] theorem State.latchHeader_rdByte (s : State) (n : Nat) : (s.latchHeader n).rdByte = s.rdByte := rfl
@[simp] theorem State.latchHeader_rdNbits (s : State) (n : Nat) : (s.latchHeader n).rdNbits = s.rdNbits := rfl
@[simp] theorem State.latchHeader_rdBitcnt (s : State) (n : Nat) : (s.latchHeader n).rdBitcnt = s.rdBitcnt := rfl
@[simp] theorem State.latchHeader_outPos (s : State) (n : Nat) : (s.latchHeader n).outPos = s.outPos := rfl
@[simp] theorem State.latchHeader_wrAcc (s : State) (n : Nat) : (s.latchHeader n).wrAcc = s.wrAcc := rfl
@[simp] theorem State.latchHeader_wrBitcnt (s : State) (n : Nat) : (s.latchHeader n).wrBitcnt = s.wrBitcnt := rfl
@[simp] theorem State.latchHeader_freq (s : State) (n : Nat) : (s.latchHeader n).freq = s.freq := rfl
@[simp] theorem State.latchHeader_tree (s : State) (n : Nat) : (s.latchHeader n).tree = s.tree := rfl
@[simp] theorem State.latchHeader_forest (s : State) (n : Nat) : (s.latchHeader n).forest = s.forest := rfl
@[simp] theorem State.latchHeader_nextOrd (s : State) (n : Nat) : (s.latchHeader n).nextOrd = s.nextOrd := rfl
@[simp] theorem State.latchHeader_code (s : State) (n : Nat) : (s.latchHeader n).code = s.code := rfl
@[simp] theorem State.latchHeader_cur (s : State) (n : Nat) : (s.latchHeader n).cur = s.cur := rfl
@[simp] theorem State.latchHeader_stack (s : State) (n : Nat) : (s.latchHeader n).stack = s.stack := rfl
@[simp] theorem State.latchHeader_nodeCnt (s : State) (n : Nat) : (s.latchHeader n).nodeCnt = s.nodeCnt := rfl
@[simp] theorem State.latchHeader_inp (s : State) (n : Nat) : (s.latchHeader n).inp = s.inp := rfl
@[simp] theorem State.latchHeader_inLen (s : State) (n : Nat) : (s.latchHeader n).inLen = s.inLen := rfl
@[simp] theorem State.latchHeader_out (s : State) (n : Nat) : (s.latchHeader n).out = s.out := rfl
@[simp] theorem State.latchHeader_useq (s : State) (n : Nat) : (s.latchHeader n).useq = s.useq := rfl
@[simp] theorem State.latchHeader_t0 (s : State) (n : Nat) : (s.latchHeader n).t0 = s.t0 := rfl
@[simp] theorem State.latchHeader_d0 (s : State) (n : Nat) : (s.latchHeader n).d0 = s.d0 := rfl
@[simp] theorem State.latchHeader_tb (s : State) (n : Nat) : (s.latchHeader n).tb = s.tb := rfl
@[simp] theorem State.latchHeader_db (s : State) (n : Nat) : (s.latchHeader n).db = n := rfl
@[simp] theorem State.latchHeader_payEnd (s : State) (n : Nat) : (s.latchHeader n).payEnd = s.payEnd := rfl
@[simp] theorem State.latchHeader_res (s : State) (n : Nat) : (s.latchHeader n).res = s.res := rfl
@[simp] theorem State.latchHeader_ir (s : State) (n : Nat) : (s.latchHeader n).ir = s.ir := rfl
@[simp] theorem State.latchHeader_opnd (s : State) (n : Nat) : (s.latchHeader n).opnd = s.opnd := rfl
@[simp] theorem State.latchHeader_nodeCap (s : State) (n : Nat) : (s.latchHeader n).nodeCap = s.nodeCap := rfl
@[simp] theorem State.latchHeader_envFail (s : State) (n : Nat) : (s.latchHeader n).envFail = s.envFail := rfl
@[simp] theorem State.latchHeader_hostQ (s : State) (n : Nat) : (s.latchHeader n).hostQ = s.hostQ := rfl
@[simp] theorem State.latchHeader_hostRd (s : State) (n : Nat) : (s.latchHeader n).hostRd = s.hostRd := rfl

@[simp] theorem State.goTo_op (s : State) (p : Phase) : (s.goTo p).op = s.op := rfl
@[simp] theorem State.goTo_status (s : State) (p : Phase) : (s.goTo p).status = s.status := rfl
@[simp] theorem State.goTo_err (s : State) (p : Phase) : (s.goTo p).err = s.err := rfl
@[simp] theorem State.goTo_hdrTree (s : State) (p : Phase) : (s.goTo p).hdrTree = s.hdrTree := rfl
@[simp] theorem State.goTo_hdrData (s : State) (p : Phase) : (s.goTo p).hdrData = s.hdrData := rfl
@[simp] theorem State.goTo_outLen (s : State) (p : Phase) : (s.goTo p).outLen = s.outLen := rfl
@[simp] theorem State.goTo_phase (s : State) (p : Phase) : (s.goTo p).phase = p := rfl
@[simp] theorem State.goTo_inPos (s : State) (p : Phase) : (s.goTo p).inPos = s.inPos := rfl
@[simp] theorem State.goTo_rdByte (s : State) (p : Phase) : (s.goTo p).rdByte = s.rdByte := rfl
@[simp] theorem State.goTo_rdNbits (s : State) (p : Phase) : (s.goTo p).rdNbits = s.rdNbits := rfl
@[simp] theorem State.goTo_rdBitcnt (s : State) (p : Phase) : (s.goTo p).rdBitcnt = s.rdBitcnt := rfl
@[simp] theorem State.goTo_outPos (s : State) (p : Phase) : (s.goTo p).outPos = s.outPos := rfl
@[simp] theorem State.goTo_wrAcc (s : State) (p : Phase) : (s.goTo p).wrAcc = s.wrAcc := rfl
@[simp] theorem State.goTo_wrBitcnt (s : State) (p : Phase) : (s.goTo p).wrBitcnt = s.wrBitcnt := rfl
@[simp] theorem State.goTo_freq (s : State) (p : Phase) : (s.goTo p).freq = s.freq := rfl
@[simp] theorem State.goTo_tree (s : State) (p : Phase) : (s.goTo p).tree = s.tree := rfl
@[simp] theorem State.goTo_forest (s : State) (p : Phase) : (s.goTo p).forest = s.forest := rfl
@[simp] theorem State.goTo_nextOrd (s : State) (p : Phase) : (s.goTo p).nextOrd = s.nextOrd := rfl
@[simp] theorem State.goTo_code (s : State) (p : Phase) : (s.goTo p).code = s.code := rfl
@[simp] theorem State.goTo_cur (s : State) (p : Phase) : (s.goTo p).cur = s.cur := rfl
@[simp] theorem State.goTo_stack (s : State) (p : Phase) : (s.goTo p).stack = s.stack := rfl
@[simp] theorem State.goTo_nodeCnt (s : State) (p : Phase) : (s.goTo p).nodeCnt = s.nodeCnt := rfl
@[simp] theorem State.goTo_inp (s : State) (p : Phase) : (s.goTo p).inp = s.inp := rfl
@[simp] theorem State.goTo_inLen (s : State) (p : Phase) : (s.goTo p).inLen = s.inLen := rfl
@[simp] theorem State.goTo_out (s : State) (p : Phase) : (s.goTo p).out = s.out := rfl
@[simp] theorem State.goTo_useq (s : State) (p : Phase) : (s.goTo p).useq = 0 := rfl
@[simp] theorem State.goTo_t0 (s : State) (p : Phase) : (s.goTo p).t0 = s.t0 := rfl
@[simp] theorem State.goTo_d0 (s : State) (p : Phase) : (s.goTo p).d0 = s.d0 := rfl
@[simp] theorem State.goTo_tb (s : State) (p : Phase) : (s.goTo p).tb = s.tb := rfl
@[simp] theorem State.goTo_db (s : State) (p : Phase) : (s.goTo p).db = s.db := rfl
@[simp] theorem State.goTo_payEnd (s : State) (p : Phase) : (s.goTo p).payEnd = s.payEnd := rfl
@[simp] theorem State.goTo_res (s : State) (p : Phase) : (s.goTo p).res = s.res := rfl
@[simp] theorem State.goTo_ir (s : State) (p : Phase) : (s.goTo p).ir = s.ir := rfl
@[simp] theorem State.goTo_opnd (s : State) (p : Phase) : (s.goTo p).opnd = s.opnd := rfl
@[simp] theorem State.goTo_nodeCap (s : State) (p : Phase) : (s.goTo p).nodeCap = s.nodeCap := rfl
@[simp] theorem State.goTo_envFail (s : State) (p : Phase) : (s.goTo p).envFail = s.envFail := rfl
@[simp] theorem State.goTo_hostQ (s : State) (p : Phase) : (s.goTo p).hostQ = s.hostQ := rfl
@[simp] theorem State.goTo_hostRd (s : State) (p : Phase) : (s.goTo p).hostRd = s.hostRd := rfl

@[simp] theorem State.issue_op (s : State) (i : Instr) (k : Nat) : (s.issue i k).op = s.op := rfl
@[simp] theorem State.issue_status (s : State) (i : Instr) (k : Nat) : (s.issue i k).status = s.status := rfl
@[simp] theorem State.issue_err (s : State) (i : Instr) (k : Nat) : (s.issue i k).err = s.err := rfl
@[simp] theorem State.issue_hdrTree (s : State) (i : Instr) (k : Nat) : (s.issue i k).hdrTree = s.hdrTree := rfl
@[simp] theorem State.issue_hdrData (s : State) (i : Instr) (k : Nat) : (s.issue i k).hdrData = s.hdrData := rfl
@[simp] theorem State.issue_outLen (s : State) (i : Instr) (k : Nat) : (s.issue i k).outLen = s.outLen := rfl
@[simp] theorem State.issue_phase (s : State) (i : Instr) (k : Nat) : (s.issue i k).phase = s.phase := rfl
@[simp] theorem State.issue_inPos (s : State) (i : Instr) (k : Nat) : (s.issue i k).inPos = s.inPos := rfl
@[simp] theorem State.issue_rdByte (s : State) (i : Instr) (k : Nat) : (s.issue i k).rdByte = s.rdByte := rfl
@[simp] theorem State.issue_rdNbits (s : State) (i : Instr) (k : Nat) : (s.issue i k).rdNbits = s.rdNbits := rfl
@[simp] theorem State.issue_rdBitcnt (s : State) (i : Instr) (k : Nat) : (s.issue i k).rdBitcnt = s.rdBitcnt := rfl
@[simp] theorem State.issue_outPos (s : State) (i : Instr) (k : Nat) : (s.issue i k).outPos = s.outPos := rfl
@[simp] theorem State.issue_wrAcc (s : State) (i : Instr) (k : Nat) : (s.issue i k).wrAcc = s.wrAcc := rfl
@[simp] theorem State.issue_wrBitcnt (s : State) (i : Instr) (k : Nat) : (s.issue i k).wrBitcnt = s.wrBitcnt := rfl
@[simp] theorem State.issue_freq (s : State) (i : Instr) (k : Nat) : (s.issue i k).freq = s.freq := rfl
@[simp] theorem State.issue_tree (s : State) (i : Instr) (k : Nat) : (s.issue i k).tree = s.tree := rfl
@[simp] theorem State.issue_forest (s : State) (i : Instr) (k : Nat) : (s.issue i k).forest = s.forest := rfl
@[simp] theorem State.issue_nextOrd (s : State) (i : Instr) (k : Nat) : (s.issue i k).nextOrd = s.nextOrd := rfl
@[simp] theorem State.issue_code (s : State) (i : Instr) (k : Nat) : (s.issue i k).code = s.code := rfl
@[simp] theorem State.issue_cur (s : State) (i : Instr) (k : Nat) : (s.issue i k).cur = s.cur := rfl
@[simp] theorem State.issue_stack (s : State) (i : Instr) (k : Nat) : (s.issue i k).stack = s.stack := rfl
@[simp] theorem State.issue_nodeCnt (s : State) (i : Instr) (k : Nat) : (s.issue i k).nodeCnt = s.nodeCnt := rfl
@[simp] theorem State.issue_inp (s : State) (i : Instr) (k : Nat) : (s.issue i k).inp = s.inp := rfl
@[simp] theorem State.issue_inLen (s : State) (i : Instr) (k : Nat) : (s.issue i k).inLen = s.inLen := rfl
@[simp] theorem State.issue_out (s : State) (i : Instr) (k : Nat) : (s.issue i k).out = s.out := rfl
@[simp] theorem State.issue_useq (s : State) (i : Instr) (k : Nat) : (s.issue i k).useq = k := rfl
@[simp] theorem State.issue_t0 (s : State) (i : Instr) (k : Nat) : (s.issue i k).t0 = s.t0 := rfl
@[simp] theorem State.issue_d0 (s : State) (i : Instr) (k : Nat) : (s.issue i k).d0 = s.d0 := rfl
@[simp] theorem State.issue_tb (s : State) (i : Instr) (k : Nat) : (s.issue i k).tb = s.tb := rfl
@[simp] theorem State.issue_db (s : State) (i : Instr) (k : Nat) : (s.issue i k).db = s.db := rfl
@[simp] theorem State.issue_payEnd (s : State) (i : Instr) (k : Nat) : (s.issue i k).payEnd = s.payEnd := rfl
@[simp] theorem State.issue_res (s : State) (i : Instr) (k : Nat) : (s.issue i k).res = s.res := rfl
@[simp] theorem State.issue_ir (s : State) (i : Instr) (k : Nat) : (s.issue i k).ir = some (encode i).word := rfl
@[simp] theorem State.issue_opnd (s : State) (i : Instr) (k : Nat) : (s.issue i k).opnd = (encode i).opnd := rfl
@[simp] theorem State.issue_nodeCap (s : State) (i : Instr) (k : Nat) : (s.issue i k).nodeCap = s.nodeCap := rfl
@[simp] theorem State.issue_envFail (s : State) (i : Instr) (k : Nat) : (s.issue i k).envFail = s.envFail := rfl
@[simp] theorem State.issue_hostQ (s : State) (i : Instr) (k : Nat) : (s.issue i k).hostQ = s.hostQ := rfl
@[simp] theorem State.issue_hostRd (s : State) (i : Instr) (k : Nat) : (s.issue i k).hostRd = s.hostRd := rfl

@[simp] theorem State.wrNbits_eq (s : State) : s.wrNbits = s.wrAcc.length := rfl

end Sys2Proof.Machine
end

