-- ==== Sys2Proof/Laws/Ops.lean ====
section
/-!
SUPPORT. For each shared operation, one lemma that says once everything it can do; the results of
operations as a sequence; and the premise that no access fails.
-/
namespace Sys2Proof.Machine

/-! ### Sequencing -/

@[simp] theorem Res.bind_ok {α β : Type} (a : α) (s : State) (f : α → State → Res β) :
    (Res.ok a s).bind f = f a s := rfl

@[simp] theorem Res.bind_halted {α β : Type} (s : State) (f : α → State → Res β) :
    (Res.halted s).bind f = .halted s := rfl

@[simp] theorem Res.bind_fault {α β : Type} (e : Fault) (f : α → State → Res β) :
    (Res.fault e : Res α).bind f = .fault e := rfl

@[simp] theorem Res.bind_refused {α β : Type} (e : Refusal) (f : α → State → Res β) :
    (Res.refused e : Res α).bind f = .refused e := rfl

theorem Res.bind_assoc {α β γ : Type} (r : Res α) (f : α → State → Res β) (g : β → State → Res γ) :
    (r.bind f).bind g = r.bind fun a s => (f a s).bind g := by
  cases r <;> rfl

@[simp] theorem Res.bind_unit (r : Res Unit) : (r.bind fun _ s => .ok () s) = r := by
  cases r <;> rfl

/-- A sequence completes exactly when its first part does and then its second. -/
theorem Res.bind_eq_ok {α β : Type} {r : Res α} {f : α → State → Res β} {b : β} {t : State} :
    r.bind f = .ok b t ↔ ∃ a s, r = .ok a s ∧ f a s = .ok b t := by
  cases r <;> simp [Res.bind]

/-- A sequence ends in a fault entry exactly when one of its parts does. -/
theorem Res.bind_eq_halted {α β : Type} {r : Res α} {f : α → State → Res β} {t : State} :
    r.bind f = .halted t ↔ r = .halted t ∨ ∃ a s, r = .ok a s ∧ f a s = .halted t := by
  cases r <;> simp [Res.bind]

@[simp] theorem Res.toStep_ok {α : Type} (a : α) (s : State) (k : α → State → State) :
    (Res.ok a s).toStep k = .next (k a s) := rfl

@[simp] theorem Res.toStep_halted {α : Type} (s : State) (k : α → State → State) :
    (Res.halted s).toStep k = .next s := rfl

/-- A step answers a next state exactly when the operation completes or raised a fault. -/
theorem Res.toStep_eq_next {α : Type} {r : Res α} {k : α → State → State} {t : State} :
    r.toStep k = .next t ↔ (∃ a s, r = .ok a s ∧ k a s = t) ∨ r = .halted t := by
  cases r <;> simp [Res.toStep]

/-! ### The environment -/

theorem noFail.envFails {s : State} (h : noFail s) : s.envFails = false := by
  cases he : s.envFail with
  | nil => simp [State.envFails, he]
  | cons b l => simpa [State.envFails, he] using h b (by simp [he])

theorem noFail.popEnv {s : State} (h : noFail s) : noFail s.popEnv := fun b hb =>
  h b (List.mem_of_mem_tail hb)

theorem noFail.of_drop {s t : State} (h : noFail s) {n : Nat} (ht : t.envFail = s.envFail.drop n) :
    noFail t := fun b hb => h b (List.mem_of_mem_drop (ht ▸ hb))

/-! ### The port primitives -/

/-- Everything `INBYTE` can do (R80). -/
theorem inbyte_cases (s : State) :
    (s.envFails = true ∧ inbyte s = .halted (s.popEnv.faultEntry .ioError)) ∨
    (s.envFails = false ∧ s.inPos = s.inLen ∧ inbyte s = .ok none s.popEnv) ∨
    (s.envFails = false ∧ s.inPos < s.inLen ∧
      inbyte s = .ok (some (s.inp.read s.inPos)) { s.popEnv with inPos := s.inPos + 1 }) ∨
    (s.envFails = false ∧ s.inLen < s.inPos ∧ inbyte s = .fault .inBeyondEnd) := by
  unfold inbyte raise
  rcases hf : s.envFails with _ | _
  · rcases lt_trichotomy s.inPos s.inLen with h | h | h
    · simp [h, h.ne, not_lt.2 h.le]
    · simp [h]
    · simp [h, h.ne']
  · simp

/-- `INBYTE` while a byte is left and the access does not fail. -/
theorem inbyte_byte {s : State} (hf : s.envFails = false) (h : s.inPos < s.inLen) :
    inbyte s = .ok (some (s.inp.read s.inPos)) { s.popEnv with inPos := s.inPos + 1 } := by
  simp [inbyte, hf, h.ne, not_lt.2 h.le]

/-- `INBYTE` at the end of `IN`. -/
theorem inbyte_end {s : State} (hf : s.envFails = false) (h : s.inPos = s.inLen) :
    inbyte s = .ok none s.popEnv := by
  simp [inbyte, hf, h]

/-- Everything `OUTBYTE` can do (R83). -/
theorem outbyte_cases (v : Byte) (s : State) :
    (s.envFails = true ∧ outbyte v s = .halted (s.popEnv.faultEntry .ioError)) ∨
    (s.envFails = false ∧ outbyte v s = .ok () (s.popEnv.storeOut v)) := by
  unfold outbyte raise
  rcases hf : s.envFails with _ | _ <;> simp

/-! ### The bit reader and the bit writer -/

/-- Everything `RBIT` can do (R81). -/
theorem rbit_cases (s : State) :
    (0 < s.rdNbits ∧ rbit s = .ok (bitOf s.rdByte (s.rdNbits - 1)) s.takeBit) ∨
    (s.rdNbits = 0 ∧ s.envFails = true ∧ rbit s = .halted (s.popEnv.faultEntry .ioError)) ∨
    (s.rdNbits = 0 ∧ s.envFails = false ∧ s.inPos = s.inLen ∧
      rbit s = .halted (s.popEnv.faultEntry .truncatedContainer)) ∨
    (s.rdNbits = 0 ∧ s.envFails = false ∧ s.inPos < s.inLen ∧
      rbit s = .ok (bitOf (s.inp.read s.inPos) 7)
        { s.popEnv with
          inPos := s.inPos + 1, rdByte := s.inp.read s.inPos, rdNbits := 7
          rdBitcnt := s.rdBitcnt + 1 }) ∨
    (s.rdNbits = 0 ∧ s.envFails = false ∧ s.inLen < s.inPos ∧ rbit s = .fault .inBeyondEnd) := by
  rcases Nat.eq_zero_or_pos s.rdNbits with h0 | h0
  · rcases inbyte_cases s with ⟨a, b⟩ | ⟨a, c, b⟩ | ⟨a, c, b⟩ | ⟨a, c, b⟩
    · simp [rbit, h0, a, b]
    · simp [rbit, h0, a, b, c, raise]
    · simp [rbit, h0, a, b, c, State.takeBit]
    · simp [rbit, h0, a, b, c]
  · simp [rbit, h0, h0.ne']

/-- Everything `WBIT` can do (R84). -/
theorem wbit_cases (b : Bool) (s : State) :
    (s.wrAcc.length ≠ 7 ∧ wbit b s = .ok () (s.appendBit b)) ∨
    (s.wrAcc.length = 7 ∧ s.envFails = true ∧
      wbit b s = .halted ((s.appendBit b).popEnv.faultEntry .ioError)) ∨
    (s.wrAcc.length = 7 ∧ s.envFails = false ∧
      wbit b s = .ok () (((s.appendBit b).popEnv.storeOut (byteOfBits (s.wrAcc ++ [b]))).clearAcc)) := by
  rcases eq_or_ne s.wrAcc.length 7 with h | h
  · rcases outbyte_cases (byteOfBits (s.wrAcc ++ [b])) (s.appendBit b) with ⟨a, c⟩ | ⟨a, c⟩
    · have a' : s.envFails = true := a
      simp [wbit, h, a', c]
    · have a' : s.envFails = false := a
      simp [wbit, h, a', c]
  · simp [wbit, h]

/-- Everything `WFLUSH` can do (R88). -/
theorem wflush_cases (s : State) :
    (s.wrAcc = [] ∧ wflush s = .ok () s) ∨
    (s.wrAcc ≠ [] ∧ s.envFails = true ∧ wflush s = .halted (s.popEnv.faultEntry .ioError)) ∨
    (s.wrAcc ≠ [] ∧ s.envFails = false ∧
      wflush s = .ok () (s.popEnv.storeOut (byteOfBits s.wrAcc)).clearAcc) := by
  rcases eq_or_ne s.wrAcc [] with h | h
  · simp [wflush, h]
  · rcases outbyte_cases (byteOfBits s.wrAcc) s with ⟨a, c⟩ | ⟨a, c⟩ <;> simp [wflush, h, a, c]

theorem wbitAll_append (xs ys : List Bool) (s : State) :
    wbitAll (xs ++ ys) s = (wbitAll xs s).bind fun _ s => wbitAll ys s := by
  induction xs generalizing s with
  | nil => rfl
  | cons b xs ih => simp [wbitAll, ih, Res.bind_assoc]

theorem wbits_eq {n : Nat} (h : countOk n) (v : Nat) (s : State) :
    wbits v n s = wbitAll (bitsN n v) s := if_pos h

/-- `SERIALIZE` appends the serialization of the tree and nothing else (R110, R62). -/
theorem serialize_eq (n : Node) (s : State) : serialize n s = wbitAll (serialBits n) s := by
  induction n generalizing s with
  | leaf sym sentinel =>
    simp [serialize, serialBits, wbitAll, byteBits, Config.symW, wbits_eq (n := 8) (by decide)]
  | internal l r ihl ihr =>
    simp [serialize, serialBits, wbitAll, wbitAll_append, ihl, ihr]

/-- What `BUILD` can do (R100): by the leaves it starts from, none, one, or two and more. -/
theorem State.build_cases (s : State) :
    (leafEntries s.freq symbols = [] ∧
      s.build = { s with forest := [], nextOrd := Config.firstInternalOrd, tree := none }) ∨
    (∃ e, leafEntries s.freq symbols = [e] ∧
      s.build =
        { s with forest := [e], nextOrd := Config.firstInternalOrd, tree := some (sentinelTree e.node) }) ∨
    (∃ a b rest forest ord, leafEntries s.freq symbols = a :: b :: rest ∧
      mergeForest (rest.length + 2) (a :: b :: rest) Config.firstInternalOrd = (forest, ord) ∧
      s.build = { s with forest := forest, nextOrd := ord, tree := forest.head?.map (·.node) }) := by
  unfold State.build
  split
  next h => exact .inl ⟨h, rfl⟩
  next e h => exact .inr (.inl ⟨e, h, rfl⟩)
  next h0 h1 =>
    match h : leafEntries s.freq symbols with
    | [] => exact absurd h h0
    | [e] => exact absurd h (h1 e)
    | a :: b :: rest => exact .inr (.inr ⟨a, b, rest, _, _, rfl, rfl, rfl⟩)

end Sys2Proof.Machine
end

