-- ==== Sys2Proof/Laws/PerInstr.lean ====
section
/-!
SUPPORT. The family of LAWS.json: an operation's word has the format and the number of bits that the
opcode table gives its row (R61, R63, R65, R66, R68, R69).
-/
namespace Sys2Proof.Laws

/-- `bitsN` has the number of bits it says (R9). -/
theorem bitsN_length (n v : Nat) : (bitsN n v).length = n := by
  induction n with
  | zero => rfl
  | succ n ih => exact congrArg (· + 1) ih

/-- The word of an operation has the operation's format and width. -/
def Width.Statement (i : Instr) : Prop :=
  (encode i).word.fmt = i.format ∧ (encode i).word.bits.length = i.width

theorem Width.encode : Width.Statement .encode := ⟨rfl, rfl⟩
theorem Width.decode : Width.Statement .decode := ⟨rfl, rfl⟩
theorem Width.rbit : Width.Statement .rbit := ⟨rfl, rfl⟩
theorem Width.rbits (n : Nat) : Width.Statement (.rbits n) := ⟨rfl, rfl⟩
theorem Width.wbit (b : Bool) : Width.Statement (.wbit b) := ⟨rfl, rfl⟩
theorem Width.wbits (v n : Nat) : Width.Statement (.wbits v n) := ⟨rfl, rfl⟩
theorem Width.wtell : Width.Statement .wtell := ⟨rfl, rfl⟩
theorem Width.wseek (a : Nat) : Width.Statement (.wseek a) := ⟨rfl, rfl⟩
theorem Width.wflush : Width.Statement .wflush := ⟨rfl, rfl⟩
theorem Width.build : Width.Statement .build := ⟨rfl, rfl⟩
theorem Width.serialize (n : Node) : Width.Statement (.serialize n) := ⟨rfl, rfl⟩
theorem Width.deserialize : Width.Statement .deserialize := ⟨rfl, rfl⟩
theorem Width.derive : Width.Statement .derive := ⟨rfl, rfl⟩
theorem Width.rdsym (e : Nat) : Width.Statement (.rdsym e) := ⟨rfl, rfl⟩
theorem Width.count : Width.Statement .count := ⟨rfl, rfl⟩
theorem Width.emit : Width.Statement .emit := ⟨rfl, rfl⟩
theorem Width.patch (tb db : Nat) : Width.Statement (.patch tb db) := ⟨rfl, rfl⟩
theorem Width.hdrTreebitlen (v : Word32) : Width.Statement (.hdrTreebitlen v) := ⟨rfl, bitsN_length 32 v.toNat⟩
theorem Width.hdrDatabitlen (v : Word32) : Width.Statement (.hdrDatabitlen v) := ⟨rfl, bitsN_length 32 v.toNat⟩
theorem Width.nodeInternal : Width.Statement .nodeInternal := ⟨rfl, rfl⟩
theorem Width.nodeLeaf (s : Byte) : Width.Statement (.nodeLeaf s) := ⟨rfl, rfl⟩
theorem Width.pathLeft : Width.Statement .pathLeft := ⟨rfl, rfl⟩
theorem Width.pathRight : Width.Statement .pathRight := ⟨rfl, rfl⟩
theorem Width.pad : Width.Statement .pad := ⟨rfl, rfl⟩

end Sys2Proof.Laws
end

