-- ==== Sys2Proof/Laws/Reader.lean ====
section
/-!
SUPPORT. The bit reader as a reader of a bit string: `RBIT` takes the first of the bits before the
reader (R81, R9), and `RBITS` assembles several of them (R82, R67).
-/
namespace Sys2Proof.Machine

theorem byteBits_eq (v : Byte) :
    byteBits v = bitOf v 7 :: (List.range 7).reverse.map (bitOf v) := by
  simp [byteBits, bitsN, bitOf, List.range_succ, BitVec.getLsbD]

theorem inBytes_length (s : State) : (inBytes s).length = s.inLen := by simp [inBytes]

/-- The bytes of `IN` from `IN_POS` on, while one is left (R54). -/
theorem drop_inBytes {s : State} (h : s.inPos < s.inLen) :
    (inBytes s).drop s.inPos = s.inp.read s.inPos :: (inBytes s).drop (s.inPos + 1) := by
  rw [List.drop_eq_getElem_cons (by simpa [inBytes_length] using h)]
  simp [inBytes]

theorem readerBits_eq_nil {s : State} (h : s.inPos ≤ s.inLen) :
    readerBits s = [] ↔ s.rdNbits = 0 ∧ s.inPos = s.inLen := by
  constructor
  · intro e
    have e' := List.append_eq_nil_iff.1 e
    have h0 : s.rdNbits = 0 := by simpa using congrArg List.length e'.1
    refine ⟨h0, le_antisymm h (not_lt.1 fun hl => ?_)⟩
    have := e'.2
    rw [drop_inBytes hl] at this
    simp [bytesBits, byteBits_eq] at this
  · rintro ⟨h0, h1⟩
    simp [readerBits, h0, bytesBits, List.drop_eq_nil_of_le, inBytes_length, h1]

/-- `RBIT` returns the first of the bits before the reader (R81, R9). -/
theorem rbit_reads {s : State} {b : Bool} {bs : List Bool} (hf : noFail s) (h : readerOk s)
    (hb : readerBits s = b :: bs) :
    ∃ t, rbit s = .ok b t ∧ readerBits t = bs ∧ readerOk t ∧ noFail t ∧ readOnly s t ∧
      t.rdBitcnt = s.rdBitcnt + 1 ∧ t.rdBitcnt + t.rdNbits + 8 * s.inPos = s.rdBitcnt + s.rdNbits + 8 * t.inPos := by
  rcases rbit_cases s with ⟨h0, e⟩ | ⟨_, hx, _⟩ | ⟨h0, _, h1, _⟩ | ⟨h0, _, h1, e⟩ | ⟨_, _, h1, _⟩
  · obtain ⟨n, hn⟩ : ∃ n, s.rdNbits = n + 1 := ⟨s.rdNbits - 1, by omega⟩
    have hcons : readerBits s =
        bitOf s.rdByte n :: ((List.range n).reverse.map (bitOf s.rdByte) ++ bytesBits ((inBytes s).drop s.inPos)) := by
      simp [readerBits, hn, List.range_succ]
    rw [hcons] at hb
    obtain ⟨rfl, rfl⟩ := List.cons.inj hb
    refine ⟨s.takeBit, by simpa [hn] using e, ?_, ?_, hf, rfl, rfl, ?_⟩
    · simp [readerBits, hn, inBytes]
    · have := h.1; constructor <;> simp <;> omega
    · simp; omega
  · rw [hf.envFails] at hx; cases hx
  · rw [(readerBits_eq_nil h.2).2 ⟨h0, h1⟩] at hb; cases hb
  · have hcons : readerBits s = bitOf (s.inp.read s.inPos) 7 ::
        ((List.range 7).reverse.map (bitOf (s.inp.read s.inPos)) ++ bytesBits ((inBytes s).drop (s.inPos + 1))) := by
      simp only [readerBits, h0, drop_inBytes h1, bytesBits, List.flatMap_cons, byteBits_eq]
      simp
    rw [hcons] at hb
    obtain ⟨rfl, rfl⟩ := List.cons.inj hb
    refine ⟨_, e, ?_, ⟨?_, ?_⟩, hf.popEnv, rfl, rfl, ?_⟩
    · simp [readerBits, inBytes]
    · simp
    · simpa using h1
    · simp [h0]; omega
  · exact absurd h.2 (not_le.2 h1)

/-- `RBIT` with no bit before the reader raises `TruncatedContainer` (R81, R152). -/
theorem rbit_at_end {s : State} (hf : noFail s) (h : readerOk s) (hb : readerBits s = []) :
    rbit s = .halted (s.popEnv.faultEntry .truncatedContainer) := by
  obtain ⟨h0, h1⟩ := (readerBits_eq_nil h.2).1 hb
  rcases rbit_cases s with ⟨h2, _⟩ | ⟨_, hx, _⟩ | ⟨_, _, _, e⟩ | ⟨_, _, h2, _⟩ | ⟨_, _, h2, _⟩
  · omega
  · rw [hf.envFails] at hx; cases hx
  · exact e
  · omega
  · omega

theorem readOnly.trans {s t u : State} (h1 : readOnly s t) (h2 : readOnly t u) : readOnly s u := by
  unfold readOnly at *
  rw [h1] at h2
  exact h2

/-- `RBITS` assembles the next `n` bits (R82, R67). -/
theorem rbitsFrom_reads (n v : Nat) {s : State} (hf : noFail s) (h : readerOk s)
    (hn : n ≤ (readerBits s).length) :
    ∃ t, rbitsFrom n v s = .ok (((readerBits s).take n).foldl (fun v b => 2 * v + b.toNat) v) t ∧
      readerBits t = (readerBits s).drop n ∧ readerOk t ∧ noFail t ∧ readOnly s t ∧
      t.rdBitcnt = s.rdBitcnt + n ∧ t.rdBitcnt + t.rdNbits + 8 * s.inPos = s.rdBitcnt + s.rdNbits + 8 * t.inPos := by
  induction n generalizing v s with
  | zero => exact ⟨s, by simp [rbitsFrom], rfl, h, hf, rfl, rfl, rfl⟩
  | succ n ih =>
    obtain ⟨b, bs, hb⟩ : ∃ b bs, readerBits s = b :: bs := by
      cases hr : readerBits s with
      | nil => simp [hr] at hn
      | cons b bs => exact ⟨b, bs, rfl⟩
    obtain ⟨t, e, hbs, hk, hft, ho, hc, hi⟩ := rbit_reads hf h hb
    obtain ⟨u, e', hbs', hk', hfu, ho', hc', hi'⟩ := ih (2 * v + b.toNat) hft hk (by simp [hb] at hn; simpa [hbs] using hn)
    refine ⟨u, ?_, ?_, hk', hfu, ho.trans ho', by omega, by omega⟩
    · simp [rbitsFrom, e, e', hb, hbs]
    · simp [hbs', hbs, hb]

theorem rbits_eq {n : Nat} (h : countOk n) (s : State) : rbits n s = rbitsFrom n 0 s := if_pos h

end Sys2Proof.Machine
end

