-- ==== Sys2Proof/Laws/Writer.lean ====
section
/-!
SUPPORT. The writer invariant (R89): what appending a bit string to the bit writer leaves, from any
state with fewer than eight bits pending.
-/
namespace Sys2Proof.Machine

/-- A byte complete in the first part of a bit string is the same in the whole. -/
theorem packedByte_append_left (xs ys : List Bool) {i : Nat} (h : 8 * i + 8 ≤ xs.length) :
    packedByte (xs ++ ys) i = packedByte xs i := by
  unfold packedByte
  rw [List.drop_append_of_le_length (by omega), List.take_append_of_le_length (by simp; omega)]

/-- The bytes after the first `k` are those of the rest. -/
theorem packedByte_drop (bs : List Bool) (k i : Nat) :
    packedByte (bs.drop (8 * k)) i = packedByte bs (k + i) := by
  simp [packedByte, List.drop_drop, Nat.mul_add]

theorem appended.nil (s : State) (h : s.wrAcc.length < 8) : appended [] s s := by
  have h0 : s.wrAcc.length / 8 = 0 := Nat.div_eq_of_lt h
  refine ⟨?_, fun a => ?_⟩
  · simp [h0, h]
  · have : ¬ (s.outPos ≤ a ∧ a < s.outPos + 0) := by omega
    simp [h0]

/-- How many bytes a bit string after the pending bits completes, and how many bits stay pending. -/
theorem pending_split (A ys : List Bool) :
    (A ++ ys).length / 8 = A.length / 8 + (A.drop (8 * (A.length / 8)) ++ ys).length / 8 := by
  simp only [List.length_append, List.length_drop]
  omega

/-- Appending one string and then another is appending both (R89). -/
theorem appended.trans {xs ys : List Bool} {s t u : State} (h1 : appended xs s t) (h2 : appended ys t u) :
    appended (xs ++ ys) s u := by
  obtain ⟨e1, m1⟩ := h1
  obtain ⟨e2, m2⟩ := h2
  generalize hto : t.out = tm at e1 m1
  generalize hte : t.envFail = te at e1
  generalize hti : t.inPos = ti at e1
  generalize huo : u.out = uo at e2 m2
  generalize hue : u.envFail = ue at e2
  generalize hui : u.inPos = ui at e2
  unfold appended
  rw [huo, hue, hui, ← List.append_assoc]
  generalize hA : s.wrAcc ++ xs = A at *
  have hq := pending_split A ys
  have hT : A.drop (8 * (A.length / 8)) ++ ys = (A ++ ys).drop (8 * (A.length / 8)) := by
    rw [List.drop_append_of_le_length (Nat.mul_div_le _ _)]
  have hle : A.length ≤ (A ++ ys).length := by simp
  clear hto hte hti huo hue hui
  subst e1 e2
  simp only at m2
  refine ⟨?_, fun a => ?_⟩
  · simp only [State.mk.injEq, true_and, and_true]
    refine ⟨?_, ?_, ?_, ?_⟩
    · split_ifs <;> simp_all <;> omega
    · omega
    · rw [hq, hT, List.drop_drop]
      congr 1
      omega
    · simp only [List.length_append]
      omega
  · rw [m2 a, m1 a, hT]
    by_cases h1 : a < s.outPos + A.length / 8
    · rw [if_neg (by omega)]
      by_cases h2 : s.outPos ≤ a
      · rw [if_pos ⟨h2, h1⟩, if_pos (by omega), packedByte_append_left _ _ (by omega)]
      · rw [if_neg (by omega), if_neg (by omega)]
    · rw [packedByte_drop, if_neg (c := s.outPos ≤ a ∧ a < s.outPos + A.length / 8) (by omega)]
      by_cases h3 : a < s.outPos + (A ++ ys).length / 8
      · rw [if_pos (by rw [hT] at hq; omega), if_pos (by omega),
          show A.length / 8 + (a - (s.outPos + A.length / 8)) = a - s.outPos by omega]
      · rw [if_neg (by rw [hT] at hq; omega), if_neg (by omega)]

/-- What `WBIT` leaves while no access fails (R84). -/
theorem wbit_appends (b : Bool) {s : State} (hf : noFail s) (h : s.wrAcc.length < 8) :
    ∃ t, wbit b s = .ok () t ∧ appended [b] s t ∧ t.inPos = s.inPos ∧
      t.envFail = s.envFail.drop ((s.wrAcc ++ [b]).length / 8) := by
  rcases wbit_cases b s with ⟨h7, e⟩ | ⟨_, hx, _⟩ | ⟨h7, _, e⟩
  · have hl : s.wrAcc.length + 1 < 8 := by omega
    have h0 : (s.wrAcc.length + 1) / 8 = 0 := Nat.div_eq_of_lt hl
    refine ⟨_, e, ⟨?_, fun a => ?_⟩, rfl, by simp [h0]⟩
    · simp [h0, hl, State.appendBit]
    · have : ¬ (s.outPos ≤ a ∧ a < s.outPos + 0) := by omega
      simp [h0]
  · rw [hf.envFails] at hx; cases hx
  · refine ⟨_, e, ⟨?_, fun a => ?_⟩, rfl, ?_⟩
    · have hd : List.drop 8 (s.wrAcc ++ [b]) = [] := List.drop_eq_nil_of_le (by simp [h7])
      simp [h7, State.appendBit, State.popEnv, State.storeOut, State.clearAcc, hd]
    · have ht : List.take 8 (s.wrAcc ++ [b]) = s.wrAcc ++ [b] := List.take_of_length_le (by simp [h7])
      by_cases ha : a = s.outPos
      · subst ha; simp [h7, packedByte, ht]
      · rw [if_neg (by simp [h7]; omega)]
        simp [Mem.read_write_other _ _ ha]
    · simp [h7]

/-- The writer invariant (R89): what appending a bit string leaves while no access fails. -/
theorem wbitAll_appends (bs : List Bool) {s : State} (hf : noFail s) (h : s.wrAcc.length < 8) :
    ∃ t, wbitAll bs s = .ok () t ∧ appended bs s t ∧ t.inPos = s.inPos ∧
      t.envFail = s.envFail.drop ((s.wrAcc ++ bs).length / 8) := by
  induction bs generalizing s with
  | nil => exact ⟨s, rfl, .nil s h, rfl, by simp [Nat.div_eq_of_lt h]⟩
  | cons b bs ih =>
    obtain ⟨t, e, ha, hi, he⟩ := wbit_appends b hf h
    have hacc : t.wrAcc = (s.wrAcc ++ [b]).drop (8 * ((s.wrAcc ++ [b]).length / 8)) := by rw [ha.1]
    have hl : t.wrAcc.length = (s.wrAcc.length + 1) - 8 * ((s.wrAcc.length + 1) / 8) := by simp [hacc]
    obtain ⟨u, e', ha', hi', he'⟩ := ih (hf.of_drop he) (by omega)
    refine ⟨u, by simp [wbitAll, e, e'], by simpa using ha.trans ha', hi'.trans hi, ?_⟩
    rw [he', he, List.drop_drop]
    congr 1
    simp only [List.length_append, List.length_cons, List.length_nil, hl]
    omega

/-- Fewer than eight bits are pending after bits have been appended (R19). -/
theorem appended.pending {bs : List Bool} {s t : State} (h : appended bs s t) : t.wrAcc.length < 8 := by
  rw [h.1]
  simp only [List.length_drop]
  omega

end Sys2Proof.Machine
end

