-- ==== Sys2Proof/Tests/Slice0.lean ====
section
/-!
SUPPORT. The model's own tests: ill-formed operations, one decoded word per operation, single steps from
the worked vectors of 95_test_vectors.md (V210 to V232) and the examples of the rules; and one witness per
hypothesis of the statements.
-/
namespace Sys2Proof.Tests
open Sys2Proof.Machine
set_option Elab.async false

/-! ### Helpers -/

/-- The contents of a stream that holds these bytes from index 0. -/
def bytesAt : Nat → List Byte → Mem
  | _, [] => []
  | a, b :: bs => if b = Config.unlistedByte then bytesAt (a + 1) bs else (a, b) :: bytesAt (a + 1) bs

/-- The state after reset with these bytes in `IN`. -/
def withIn (bs : List Byte) : State := { State.reset with inp := bytesAt 0 bs, inLen := bs.length }

/-- Does the operation answer a next state of which `p` holds? -/
def nextHas (i : Instr) (s : State) (p : State → Bool) : Bool :=
  match exec i s with
  | .next t => p t
  | .fault _ => false
  | .refused _ => false

/-- Does one step answer a next state of which `p` holds? -/
def stepHas (s : State) (p : State → Bool) : Bool :=
  match step s with
  | .next t => p t
  | .fault _ => false
  | .refused _ => false

/-- Is the operation refused for this reason? -/
def refusedFor (i : Instr) (s : State) (r : Refusal) : Bool :=
  match exec i s with
  | .next _ => false
  | .fault _ => false
  | .refused e => decide (e = r)

/-- The tree of `aaab` (V212). -/
def treeAaab : Node := .internal (.leaf 0x62 false) (.leaf 0x61 false)

/-- The container of `aaab` (V201 scenario 1). -/
def containerAaab : List Byte := [0x00, 0x00, 0x00, 0x13, 0x00, 0x00, 0x00, 0x04, 0x98, 0x8C, 0x3C]

/-- The tree of `abc` (V212). -/
def treeAbc : Node := .internal (.leaf 0x63 false) (.internal (.leaf 0x61 false) (.leaf 0x62 false))

/-! ### Ill-formed operations (R82, R85 with D25, R137) -/

theorem test_rbits_of_no_bits_is_ill_formed : (Instr.rbits 0).wellFormed = false := by decide
theorem test_rbits_of_65_bits_is_ill_formed : (Instr.rbits 65).wellFormed = false := by decide
theorem test_rbits_of_64_bits_is_well_formed : (Instr.rbits 64).wellFormed = true := by decide
theorem test_wbits_of_no_bits_is_ill_formed : (Instr.wbits 7 0).wellFormed = false := by decide
theorem test_wbits_of_65_bits_is_ill_formed : (Instr.wbits 7 65).wellFormed = false := by decide
theorem test_patch_of_a_long_tree_is_ill_formed : (Instr.patch (2 ^ 32) 0).wellFormed = false := by decide
theorem test_patch_of_a_long_payload_is_ill_formed : (Instr.patch 0 (2 ^ 32)).wellFormed = false := by decide
theorem test_patch_of_the_longest_is_well_formed :
    (Instr.patch (2 ^ 32 - 1) (2 ^ 32 - 1)).wellFormed = true := by decide

/-! ### One decoded word per operation (R61, R63, R65, R66, R68, R69) -/

/-- Operand registers with a value of their own in each. -/
def opnds : Operands :=
  { bit := true, value := 0x1FF, count := 9, offset := 8, node := treeAaab, limit := 87, tb := 19, db := 4 }

theorem test_decode_encode : decode ⟨.cmd, [false]⟩ opnds = .ok .encode [] := by decide
theorem test_decode_decode : decode ⟨.cmd, [true]⟩ opnds = .ok .decode [] := by decide
theorem test_decode_rbit : decode ⟨.uop, [false, false, false, true]⟩ opnds = .ok .rbit [] := by decide
theorem test_decode_rbits : decode ⟨.uop, [false, false, true, false]⟩ opnds = .ok (.rbits 9) [] := by decide
theorem test_decode_wbit : decode ⟨.uop, [false, false, true, true]⟩ opnds = .ok (.wbit true) [] := by decide
theorem test_decode_wbits : decode ⟨.uop, [false, true, false, false]⟩ opnds = .ok (.wbits 0x1FF 9) [] := by decide
theorem test_decode_wtell : decode ⟨.uop, [false, true, false, true]⟩ opnds = .ok .wtell [] := by decide
theorem test_decode_wseek : decode ⟨.uop, [false, true, true, false]⟩ opnds = .ok (.wseek 8) [] := by decide
theorem test_decode_wflush : decode ⟨.uop, [false, true, true, true]⟩ opnds = .ok .wflush [] := by decide
theorem test_decode_build : decode ⟨.uop, [true, false, false, false]⟩ opnds = .ok .build [] := by decide
theorem test_decode_serialize :
    decode ⟨.uop, [true, false, false, true]⟩ opnds = .ok (.serialize treeAaab) [] := by decide
theorem test_decode_deserialize : decode ⟨.uop, [true, false, true, false]⟩ opnds = .ok .deserialize [] := by decide
theorem test_decode_derive : decode ⟨.uop, [true, false, true, true]⟩ opnds = .ok .derive [] := by decide
theorem test_decode_rdsym : decode ⟨.uop, [true, true, false, false]⟩ opnds = .ok (.rdsym 87) [] := by decide
theorem test_decode_count : decode ⟨.uop, [true, true, false, true]⟩ opnds = .ok .count [] := by decide
theorem test_decode_emit : decode ⟨.uop, [true, true, true, false]⟩ opnds = .ok .emit [] := by decide
theorem test_decode_patch : decode ⟨.uop, [true, true, true, true]⟩ opnds = .ok (.patch 19 4) [] := by decide
theorem test_decode_no_uop : decode ⟨.uop, [false, false, false, false]⟩ opnds = .reject .uopNone := by decide
theorem test_decode_short_uop : decode ⟨.uop, [true, false, false]⟩ opnds = .reject (.short .uop) := by decide

/-- 19 in 32 bits, most significant first (R61). -/
def bits19 : List Bool :=
  [false, false, false, false, false, false, false, false] ++ [false, false, false, false, false, false, false, false] ++
    [false, false, false, false, false, false, false, false] ++ [false, false, false, true, false, false, true, true]

theorem test_decode_hdr_treebitlen :
    decode ⟨.hdrTree, bits19 ++ [true]⟩ opnds = .ok (.hdrTreebitlen 19) [true] := by decide
theorem test_decode_hdr_databitlen :
    decode ⟨.hdrData, bits19⟩ opnds = .ok (.hdrDatabitlen 19) [] := by decide
theorem test_decode_short_hdr :
    decode ⟨.hdrData, bits19.tail⟩ opnds = .reject (.short .hdrData) := by decide
theorem test_decode_node_internal : decode ⟨.node, [true, false]⟩ opnds = .ok .nodeInternal [false] := by decide
/-- The record of the leaf 0x62 (V213). -/
theorem test_decode_node_leaf :
    decode ⟨.node, [false, false, true, true, false, false, false, true, false, true]⟩ opnds =
      .ok (.nodeLeaf 0x62) [true] := by decide
theorem test_decode_short_leaf :
    decode ⟨.node, [false, false, true, true, false]⟩ opnds = .reject (.short .node) := by decide
theorem test_decode_path_left : decode ⟨.path, [false, true]⟩ opnds = .ok .pathLeft [true] := by decide
theorem test_decode_path_right : decode ⟨.path, [true, false]⟩ opnds = .ok .pathRight [false] := by decide
theorem test_decode_pad : decode ⟨.pad, [false]⟩ opnds = .ok .pad [] := by decide
theorem test_table_word_rdsym : decodeTableWord 4 0b1100 = some (.rdsym 0) := by decide
theorem test_table_word_leaf : decodeTableWord 16 0x62 = some (.nodeLeaf 0x62) := by decide

/-! ### The bit stream unit -/

/-- V210, step 1. -/
theorem test_rbit_first : nextHas .rbit (withIn [0x98, 0x8C, 0x3C])
    (fun t => t.res == 1 && t.inPos == 1 && t.rdByte == 0x98 && t.rdNbits == 7 && t.rdBitcnt == 1) = true := by
  decide +kernel
/-- V210, `IN_LEN = 0`. -/
theorem test_rbit_of_nothing : nextHas .rbit (withIn [])
    (fun t => decide (t.err = .truncatedContainer) && t.rdBitcnt == 0) = true := by decide +kernel
/-- V210, step 3. -/
theorem test_rbits_across_bytes : nextHas (.rbits 8)
    { withIn [0x98, 0x8C, 0x3C] with inPos := 1, rdByte := 0x98, rdNbits := 6, rdBitcnt := 2 }
    (fun t => t.res == 0x62 && t.inPos == 2 && t.rdByte == 0x8C && t.rdNbits == 6 && t.rdBitcnt == 10) = true := by
  decide +kernel
/-- V210, 64 bits that span nine bytes. -/
theorem test_rbits_of_64_bits : nextHas (.rbits 64)
    { withIn [0x80, 0x00, 0x00, 0x00, 0x01, 0x00, 0x00, 0x00, 0x00] with
      inPos := 1, rdByte := 0x80, rdNbits := 7, rdBitcnt := 1 }
    (fun t => t.res == 0x0000000002000000 && t.rdBitcnt == 65 && t.rdNbits == 7) = true := by decide +kernel
/-- R84, the eighth bit of 10011000. -/
theorem test_wbit_completes_a_byte : nextHas (.wbit false)
    { State.reset with outPos := 8, wrAcc := [true, false, false, true, true, false, false], wrBitcnt := 7 }
    (fun t => t.out.read 8 == 0x98 && t.outPos == 9 && t.outLen == 9 && t.wrAcc.isEmpty && t.wrBitcnt == 8) = true := by
  decide +kernel
/-- V211, step 4. -/
theorem test_wbits_straddles : nextHas (.wbits 0x62 8)
    { State.reset with outPos := 8, wrAcc := [true, false], wrBitcnt := 2 }
    (fun t => t.out.read 8 == 0x98 && t.outPos == 9 && decide (t.wrAcc = [true, false]) && t.wrBitcnt == 10) = true := by
  decide +kernel
/-- V211: bit 8 of the value is dropped. -/
theorem test_wbits_drops_high_bits : nextHas (.wbits 0x1FF 8) State.reset
    (fun t => t.out.read 0 == 0xFF && t.outLen == 1) = true := by decide +kernel
/-- V211, step 7. -/
theorem test_wtell : nextHas .wtell { State.reset with wrBitcnt := 19, wrAcc := [false, false, true] }
    (fun t => t.res == 19) = true := by decide +kernel
/-- V211, step 11. -/
theorem test_wseek_back : nextHas (.wseek 0) { State.reset with outPos := 11, outLen := 11 }
    (fun t => t.outPos == 0 && t.outLen == 11) = true := by decide +kernel
/-- V211: a `WSEEK` at step 8 is refused. -/
theorem test_wseek_with_bits_pending : refusedFor (.wseek 0)
    { State.reset with wrAcc := [false, false, true, true, true, true, false] } .seekWithBitsPending = true := by
  decide +kernel
/-- V211, step 9. -/
theorem test_wflush_pads : nextHas .wflush
    { State.reset with outPos := 10, outLen := 10, wrAcc := [false, false, true, true, true, true, false], wrBitcnt := 23 }
    (fun t => t.out.read 10 == 0x3C && t.outPos == 11 && t.wrAcc.isEmpty && t.wrBitcnt == 23) = true := by decide +kernel
/-- V211, step 10. -/
theorem test_wflush_of_nothing : nextHas .wflush { State.reset with outPos := 11, outLen := 11 }
    (fun t => t.outPos == 11 && t.outLen == 11) = true := by decide +kernel

/-! ### The tree unit -/

/-- V212, `aaab`. -/
theorem test_build_aaab : nextHas .build { State.reset with freq := ((tableOf 0).put 0x61 3).put 0x62 1 }
    (fun t => decide (t.tree = some treeAaab) && t.nextOrd == 257) = true := by decide +kernel
/-- V212, `00 00`. -/
theorem test_build_one_symbol : nextHas .build { State.reset with freq := (tableOf 0).put 0x00 2 }
    (fun t => decide (t.tree = some (.internal (.leaf 0x00 false) (.leaf 0x00 true)))) = true := by decide +kernel
/-- V213, `aaab`: the bytes 98 8C and the bits 001. -/
theorem test_serialize_aaab : nextHas (.serialize treeAaab) { State.reset with outPos := 8 }
    (fun t => t.out.read 8 == 0x98 && t.out.read 9 == 0x8C && decide (t.wrAcc = [false, false, true]) &&
      t.wrBitcnt == 19) = true := by decide +kernel
/-- V213, the example of R112. -/
theorem test_deserialize_aaab : nextHas .deserialize (withIn [0x98, 0x8C, 0x3C])
    (fun t => decide (t.tree = some treeAaab) && t.rdBitcnt == 19 && t.nodeCnt == 3) = true := by decide +kernel
/-- V213, the node limit: three records are one too many for a limit of 2. -/
theorem test_deserialize_beyond_the_limit : nextHas .deserialize { withIn [0x98, 0x8C, 0x3C] with nodeCap := 2 }
    (fun t => decide (t.err = .capacityExceeded) && t.rdBitcnt == 11 && t.nodeCnt == 3) = true := by decide +kernel
/-- V212, the codes of `abc`. -/
theorem test_derive_abc : nextHas .derive { State.reset with tree := some treeAbc }
    (fun t => decide (t.code.get 0x63 = ⟨true, [false]⟩) && decide (t.code.get 0x61 = ⟨true, [true, false]⟩) &&
      decide (t.code.get 0x62 = ⟨true, [true, true]⟩) && !(t.code.get 0x64).valid) = true := by decide +kernel
/-- R115: the sentinel gets no code. -/
theorem test_derive_sentinel : nextHas .derive
    { State.reset with tree := some (.internal (.leaf 0x7A false) (.leaf 0x00 true)) }
    (fun t => decide (t.code.get 0x7A = ⟨true, [false]⟩) && !(t.code.get 0x00).valid) = true := by decide +kernel
/-- The example of R117: one bit, 1, gives 0x61. -/
theorem test_rdsym_aaab : nextHas (.rdsym 87)
    { withIn containerAaab with tree := some treeAaab, inPos := 11, rdByte := 0x3C, rdNbits := 5, rdBitcnt := 83 }
    (fun t => t.res == 0x61 && t.rdBitcnt == 84) = true := by decide +kernel
/-- R153 (d): the payload ends inside a code word. -/
theorem test_rdsym_ends_in_a_code_word : nextHas (.rdsym 1) { withIn [0xFF] with tree := some treeAbc }
    (fun t => decide (t.err = .invalidHeader) && t.rdBitcnt == 1) = true := by decide +kernel

/-! ### The codec -/

/-- The example of R132. -/
theorem test_count_zzzzz : nextHas .count (withIn [0x7A, 0x7A, 0x7A, 0x7A, 0x7A])
    (fun t => t.freq.get 0x7A == 5 && t.freq.get 0x00 == 0 && t.inPos == 5) = true := by decide +kernel
/-- The example of R136. -/
theorem test_emit_aaab : nextHas .emit
    { withIn [0x61, 0x61, 0x61, 0x62] with
      code := ((tableOf ⟨false, []⟩).put 0x61 ⟨true, [true]⟩).put 0x62 ⟨true, [false]⟩ }
    (fun t => decide (t.wrAcc = [true, true, true, false]) && t.inPos == 4) = true := by decide +kernel
/-- U7: a byte that has no code word. -/
theorem test_emit_without_code : refusedFor .emit (withIn [0x61]) (.emitWithoutCode 0x61) = true := by decide +kernel
/-- The example of R137. -/
theorem test_patch_aaab : nextHas (.patch 19 4)
    { State.reset with outPos := 10, outLen := 10, wrAcc := [false, false, true, true, true, true, false] }
    (fun t => decide ((List.range 8).map t.out.read = containerAaab.take 8) && t.out.read 10 == 0x3C && t.outLen == 11) =
    true := by decide +kernel
/-- The example of R131 (V230). -/
theorem test_encode_aaab : nextHas .encode (withIn [0x61, 0x61, 0x61, 0x62])
    (fun t => decide (t.status = .done) && decide (outBytes t = containerAaab) && t.hdrTree == 19 && t.hdrData == 4) =
    true := by decide +kernel
/-- V232, `zzzzz`. -/
theorem test_encode_zzzzz : nextHas .encode (withIn [0x7A, 0x7A, 0x7A, 0x7A, 0x7A])
    (fun t => decide (outBytes t = [0x00, 0x00, 0x00, 0x13, 0x00, 0x00, 0x00, 0x05, 0x9E, 0x80, 0x00])) = true := by
  decide +kernel
/-- The example of R140 (V230). -/
theorem test_decode_of_aaab : nextHas .decode (withIn containerAaab)
    (fun t => decide (t.status = .done) && decide (outBytes t = [0x61, 0x61, 0x61, 0x62]) && t.rdBitcnt == 87) = true := by
  decide +kernel
/-- V201, scenario 5: without its last byte. -/
theorem test_decode_of_a_cut_container : nextHas .decode (withIn (containerAaab.take 10))
    (fun t => decide (t.err = .truncatedContainer) && t.outLen == 0 && t.rdBitcnt == 80) = true := by decide +kernel

/-! ### The records of the container -/

theorem test_hdr_treebitlen : nextHas (.hdrTreebitlen 19) (withIn containerAaab)
    (fun t => t.tb == 19 && t.rdBitcnt == 32) = true := by decide +kernel
theorem test_hdr_databitlen : nextHas (.hdrDatabitlen 4)
    { withIn containerAaab with inPos := 4, rdBitcnt := 32, tb := 19 }
    (fun t => t.hdrTree == 19 && t.hdrData == 4 && t.rdBitcnt == 64) = true := by decide +kernel
theorem test_node_internal : nextHas .nodeInternal (withIn [0x98])
    (fun t => decide (t.stack = [.needLeft]) && t.nodeCnt == 1 && t.rdBitcnt == 1) = true := by decide +kernel
theorem test_node_leaf_completes_the_tree : nextHas (.nodeLeaf 0x61)
    { withIn [0x98, 0x8C, 0x3C] with
      inPos := 2, rdByte := 0x8C, rdNbits := 6, rdBitcnt := 10, nodeCnt := 2, stack := [.needRight (.leaf 0x62 false)] }
    (fun t => decide (t.tree = some treeAaab) && t.stack.isEmpty && t.rdBitcnt == 19) = true := by decide +kernel
theorem test_path_left : nextHas .pathLeft { withIn [0x00] with tree := some treeAbc, payEnd := 8 }
    (fun t => decide (t.cur = .leaf 0x63 false) && t.rdBitcnt == 1) = true := by decide +kernel
theorem test_path_right : nextHas .pathRight { withIn [0xFF] with tree := some treeAbc, payEnd := 8 }
    (fun t => decide (t.cur = .internal (.leaf 0x61 false) (.leaf 0x62 false)) && t.rdBitcnt == 1) = true := by
  decide +kernel
theorem test_pad : nextHas .pad (withIn [0x00]) (fun t => decide (t = withIn [0x00])) = true := by decide +kernel

/-! ### The step, the host and reset -/

/-- R130 through a write to `CTRL` (R29). -/
theorem test_start_decode : stepHas { withIn containerAaab with hostQ := [.writeReg .ctrl 1] }
    (fun t => t.op == 1 && decide (t.status = .busy) && decide (t.phase = .dHeader)) = true := by decide +kernel
/-- R131, R148: the first move of `ENCODE` issues `COUNT`, `UOPSEL` 1101 (R69). -/
theorem test_sequencer_issues_count : stepHas (start 0#1 (withIn [0x61]))
    (fun t => decide (t.ir = some ⟨.uop, [true, true, false, true]⟩)) = true := by decide +kernel
/-- R171. -/
theorem test_reset_while_busy : stepHas { start 0#1 (withIn [0x61]) with hostQ := [.reset] }
    (fun t => decide (t.status = .idle) && decide (t.err = .none) && t.inLen == 1) = true := by decide +kernel
/-- R181. -/
theorem test_host_keeps_off : (match step { start 0#1 (withIn [0x61]) with hostQ := [.placeIn 0 7] } with
    | .next _ => false | .fault _ => false | .refused e => decide (e = .hostWhileBusy)) = true := by decide +kernel
theorem test_reset_step_runs_a_table_word : stepHas (State.reset.withFetchWord 4 0b0110)
    (fun t => t.outPos == 0) = true := by decide +kernel

/-! ### Witnesses: states and operands that meet the hypotheses of each statement -/

/-- A reader with nothing taken yet: 24 bits before it. -/
def sRead : State := withIn [0x98, 0x8C, 0x3C]
/-- A running command. -/
def sBusy : State := start 0#1 (withIn [0x61])
/-- The next stream access fails. -/
def sFail : State := { withIn [0x98] with envFail := [true] }
/-- One bit is missing to a byte. -/
def sSeven : State := { State.reset with wrAcc := [true, false, false, true, true, false, false], wrBitcnt := 7 }
/-- The counts of `aaab`. -/
def sCounts : State := { State.reset with freq := ((tableOf 0).put 0x61 3).put 0x62 1 }
/-- The counts of `zzzzz`. -/
def sOneCount : State := { State.reset with freq := (tableOf 0).put 0x7A 5 }
/-- The codes of `aaab`, with `aaab` in `IN`. -/
def sCodes : State :=
  { withIn [0x61, 0x61, 0x61, 0x62] with
    code := ((tableOf ⟨false, []⟩).put 0x61 ⟨true, [true]⟩).put 0x62 ⟨true, [false]⟩ }
/-- The tree of `abc` in `TREE`, the reader at the start of `IN`. -/
def sAbc : State := { withIn [0b01000000] with tree := some treeAbc }

theorem witness_EncodeThenDecodeGivesTheOperation :
    (Instr.wbits 0x1FF 64).wellFormed = true ∧ (Instr.rbits 1).wellFormed = true ∧
      (Instr.patch (2 ^ 32 - 1) 0).wellFormed = true := by decide

theorem witness_DecodedBitsAreTheOperationsWord :
    decode ⟨.hdrTree, bits19 ++ [true]⟩ opnds = .ok (.hdrTreebitlen 19) [true] ∧ Instr.hdrTreebitlen 19 ≠ .pad := by
  decide

theorem witness_StepRunsTheLatchedOperation :
    decode (uopWord 1) opnds = .ok .rbit [] ∧
    ({ sRead with ir := some (uopWord 1), opnd := opnds } : State).hostQ = [] ∧
    ({ sRead with ir := some (uopWord 1), opnd := opnds, hostQ := [.wait] } : State).hostQ = .wait :: [] ∧
    Instr.rbit.wellFormed = true := by decide

theorem witness_InbyteReadsTheNextByte :
    sFail.envFails = true ∧
    ((withIn []).envFails = false ∧ (withIn []).inPos = (withIn []).inLen) ∧
    ({ sRead with inPos := 2 }.envFails = false ∧ { sRead with inPos := 2 }.inPos < { sRead with inPos := 2 }.inLen) := by
  decide

theorem witness_OutbyteWritesAtTheCursor : sFail.envFails = true ∧ sRead.envFails = false ∧ (0 : Nat) ≠ sRead.outPos + 1 := by
  decide

theorem witness_RbitTakesTheNextBit :
    0 < { sRead with rdNbits := 1 }.rdNbits ∧
    (sFail.rdNbits = 0 ∧ sFail.envFails = true) ∧
    ((withIn []).rdNbits = 0 ∧ (withIn []).envFails = false ∧ (withIn []).inPos = (withIn []).inLen) ∧
    (sRead.rdNbits = 0 ∧ sRead.envFails = false ∧ sRead.inPos < sRead.inLen) := by decide

/-- The last bit of `IN` is still to come. -/
theorem witness_ReaderFollowsTheBitString :
    ∃ s : State, readerAligned s ∧ noFail s ∧ s.rdBitcnt < 8 * s.inLen :=
  ⟨{ sRead with inPos := 3, rdByte := 0x3C, rdNbits := 1, rdBitcnt := 23 }, by decide +kernel⟩

theorem witness_RbitsAssemblesTheNextBits :
    ∃ (s : State) (n : Nat) (bs rest : List Bool), countOk n ∧ readerOk s ∧ noFail s ∧
      readerBits s = bs ++ rest ∧ bs.length = n :=
  ⟨withIn (List.replicate 8 0xA5), 64, readerBits (withIn (List.replicate 8 0xA5)), [], by decide +kernel⟩

theorem witness_RbitsRunsOutOfBits :
    ∃ (s : State) (n : Nat), countOk n ∧ readerOk s ∧ noFail s ∧ (readerBits s).length < n :=
  ⟨sRead, 25, by decide +kernel⟩

theorem witness_WbitAppendsOneBit :
    State.reset.wrAcc.length ≠ 7 ∧ (sSeven.wrAcc.length = 7 ∧ sSeven.envFails = false) ∧
    ({ sSeven with envFail := [true] }.wrAcc.length = 7 ∧ { sSeven with envFail := [true] }.envFails = true) ∧
    ((7 : Nat) < 8 ∧ sSeven.wrAcc.length = 7) := by decide

theorem witness_WbitsAppendsTheLowBits :
    countOk 64 ∧ countOk 1 ∧ noFail sSeven ∧ sSeven.wrAcc.length < 8 := by decide

theorem witness_WseekMovesTheByteCursor : State.reset.wrAcc = [] := by decide

theorem witness_WflushPadsThePartialByte :
    State.reset.wrAcc = [] ∧ (sSeven.wrAcc ≠ [] ∧ sSeven.envFails = false) ∧
    ({ sSeven with envFail := [true] }.wrAcc ≠ [] ∧ { sSeven with envFail := [true] }.envFails = true) ∧
    ((7 : Nat) < 8 ∧ sSeven.wrAcc.length ≤ 8) := by decide

theorem witness_OperationsOutsideTheirDomainAreRefused :
    ¬ countOk 0 ∧ ¬ countOk 65 ∧ sSeven.wrAcc ≠ [] ∧ State.reset.tree = none ∧
    (∀ l r, State.reset.tree ≠ some (.internal l r)) ∧
    (∀ l r, ({ sRead with tree := some (.leaf 0x61 false) } : State).tree ≠ some (.internal l r)) ∧
    (8 : Nat) ≤ ({ sAbc with rdBitcnt := 8 } : State).rdBitcnt :=
  ⟨by decide, by decide, by decide, rfl, fun _ _ => nofun, fun _ _ => nofun, by decide⟩

theorem witness_BuildMakesTheTreeOfTheCounts :
    symbolCount State.reset.freq = 0 ∧ (symbolCount sOneCount.freq = 1 ∧ 0 < sOneCount.freq.get 0x7A) ∧
    2 ≤ symbolCount sCounts.freq := by decide +kernel

theorem witness_BuildRootWeighsTheInput : 2 ≤ symbolCount sCounts.freq := by decide +kernel

theorem witness_BuildExtractsTheTwoLeast :
    (∀ x ∈ leafEntries sCounts.freq symbols, x.ord ≠ 256) ∧
    ((leafEntries sCounts.freq symbols).Pairwise fun x y => x.before y = true) ∧
    leafEntries sCounts.freq symbols = ⟨1, 0x62, .leaf 0x62 false⟩ :: ⟨3, 0x61, .leaf 0x61 false⟩ :: [] ∧
    2 ≤ symbolCount sCounts.freq := by
  decide +kernel

theorem witness_BuiltTreeCostsTheLeast :
    2 ≤ symbolCount sCounts.freq ∧
    (leavesOf (.internal (.leaf 0x61 false) (.leaf 0x62 false))).Perm (leavesOf treeAaab) := by decide +kernel

theorem witness_SerializeWritesThePreOrder : noFail sSeven ∧ sSeven.wrAcc.length < 8 := by decide

theorem witness_SerializationHasItsLengthAndGrammar : noFail sSeven ∧ sSeven.wrAcc.length < 8 := by decide

theorem witness_DeserializeInvertsSerialize :
    ∃ (s : State) (n : Node) (rest : List Bool), readerOk s ∧ noFail s ∧ nodeCount n ≤ s.nodeCap ∧
      readerBits s = serialBits n ++ rest :=
  ⟨{ sRead with nodeCap := 3 }, treeAaab, [true, true, true, false, false], by decide +kernel⟩

theorem witness_DeserializeStopsAtTheNodeLimit :
    ∃ (s : State) (n : Node) (rest : List Bool), readerOk s ∧ noFail s ∧ s.nodeCap < nodeCount n ∧
      readerBits s = serialBits n ++ rest :=
  ⟨{ sRead with nodeCap := 2 }, treeAaab, [true, true, true, false, false], by decide +kernel⟩

theorem witness_DeserializeOfACutTreeIsTruncated :
    ∃ (s : State) (n : Node) (cut : List Bool), readerOk s ∧ noFail s ∧ nodeCount n ≤ s.nodeCap ∧
      serialBits n = readerBits s ++ cut ∧ cut ≠ [] :=
  ⟨withIn [0x98, 0x8C], treeAaab, [false, false, true], by decide +kernel⟩

theorem witness_DeriveGivesRootToLeafPaths :
    sAbc.tree = some treeAbc ∧ (0x64 : Byte) ∉ realSymbols treeAbc ∧ (realSymbols treeAbc).Nodup ∧
    nodeAt [true, false] treeAbc = some (.leaf 0x61 false) := by decide +kernel

theorem witness_CodeTableOfABuiltTree :
    1 ≤ symbolCount sOneCount.freq ∧ 1 ≤ symbolCount sCounts.freq ∧
    (∀ b, tallies [0x61, 0x61, 0x61, 0x62] b = sCounts.freq.get b) := by decide +kernel

theorem witness_RdsymWalksToALeaf :
    ∃ (s : State) (l r : Node) (path rest : List Bool) (v : Byte) (flag : Bool) (limit : Nat),
      s.tree = some (.internal l r) ∧ nodeAt path (.internal l r) = some (.leaf v flag) ∧ readerOk s ∧ noFail s ∧
        readerBits s = path ++ rest ∧ s.rdBitcnt + path.length ≤ limit :=
  ⟨{ sAbc with inp := [(0, 0x80)] }, .leaf 0x63 false, .internal (.leaf 0x61 false) (.leaf 0x62 false), [true, false],
    List.replicate 6 false, 0x61, false, 2, by decide +kernel⟩

theorem witness_RdsymStopsInsideACodeWord :
    ∃ (s u : State) (l r l' r' : Node) (path rest : List Bool),
      (s.tree = some (.internal l r) ∧ nodeAt path (.internal l r) = some (.internal l' r') ∧ readerOk s ∧ noFail s ∧
        readerBits s = path ++ rest ∧ s.rdBitcnt < 1 ∧ s.rdBitcnt + path.length = 1) ∧
      (u.tree = some (.internal l r) ∧ nodeAt path (.internal l r) = some (.internal l' r') ∧ readerOk u ∧ noFail u ∧
        readerBits u = path ++ [] ∧ u.rdBitcnt < 2 ∧ u.rdBitcnt + path.length < 2) :=
  ⟨{ sAbc with inp := [(0, 0x80)] }, { sAbc with inPos := 1, rdByte := 1, rdNbits := 1 }, .leaf 0x63 false,
    .internal (.leaf 0x61 false) (.leaf 0x62 false), .leaf 0x61 false, .leaf 0x62 false, [true],
    List.replicate 7 false, by decide +kernel⟩

theorem witness_CountTalliesTheInput : noFail sRead := by decide

theorem witness_EmitAppendsTheCodeWords :
    noFail sCodes ∧ sCodes.wrAcc.length < 8 ∧ ∀ b ∈ inBytes sCodes, (sCodes.code.get b).valid = true := by
  decide +kernel

theorem witness_EmitRefusesAByteWithoutCode :
    ∃ (s : State) (before after : List Byte) (b : Byte), noFail s ∧ inBytes s = before ++ b :: after ∧
      (∀ c ∈ before, (s.code.get c).valid = true) ∧ (s.code.get b).valid = false :=
  ⟨{ sCodes with inp := [(0, 0x61), (1, 0x63), (2, 0x62)], inLen := 3 }, [0x61], [0x62], 0x63, by decide +kernel⟩

theorem witness_PatchWritesTheHeader :
    noFail sSeven ∧ sSeven.wrAcc.length < 8 ∧ lengthOk (2 ^ 32 - 1) ∧ lengthOk 0 := by decide

theorem witness_EncodeWritesTheContainer :
    (withIn [0x61, 0x62]).status ≠ .busy ∧ noFail (withIn [0x61, 0x62]) ∧
    (inputPayload (withIn [0x61, 0x62])).length < 2 ^ 32 ∧ 0 < (withIn [0x61, 0x62]).inLen ∧
    nextHas .encode (withIn [0x61, 0x62]) (fun t => decide (t.status = .done)) = true ∧
    (withIn []).inLen = 0 ∧ nextHas .encode (withIn []) (fun t => decide (t.status = .done)) = true := by
  decide +kernel

theorem witness_LengthOverflowEndsEncode :
    (∃ s : State, s.status = .busy ∧ s.phase = .ePatch ∧ s.useq = 0 ∧ s.ir = none ∧ s.hostQ = [] ∧ 2 ^ 32 ≤ s.db) ∧
    (∃ s : State, s.status ≠ .busy ∧ noFail s ∧ 2 ^ 32 ≤ s.inLen) ∧
    (∃ s : State, s.status ≠ .busy ∧ noFail s ∧ s.inLen ≤ 16843009) :=
  ⟨⟨{ State.reset with status := .busy, phase := .ePatch, db := 2 ^ 32 }, by decide⟩,
    ⟨{ State.reset with inLen := 2 ^ 32 }, by decide⟩, ⟨{ State.reset with inLen := 16843009 }, by decide⟩⟩

theorem witness_EveryCommandEnds : sFail.status ≠ .busy := by decide

/-- `aaab` again, with 11 bits after its payload; and a tree that is a leaf, with no payload. -/
theorem witness_DecodeReadsTheContainer :
    (∃ (s : State) (root : Node) (words : List (List Bool × Byte)) (rest : List Bool),
      s.status ≠ .busy ∧ noFail s ∧ nodeCount root ≤ s.nodeCap ∧ codeWords root words ∧
        (∃ l r, root = .internal l r) ∧ (serialBits root).length < 2 ^ 32 ∧ (wordBits words).length < 2 ^ 32 ∧
        bytesBits (inBytes s) = bitsN 32 (serialBits root).length ++ bitsN 32 (wordBits words).length ++
          serialBits root ++ wordBits words ++ rest) ∧
    (∃ (s : State) (root : Node) (rest : List Bool),
      s.status ≠ .busy ∧ noFail s ∧ nodeCount root ≤ s.nodeCap ∧ (serialBits root).length < 2 ^ 32 ∧
        bytesBits (inBytes s) = bitsN 32 (serialBits root).length ++ bitsN 32 0 ++ serialBits root ++ rest) :=
  ⟨⟨{ withIn containerAaab with nodeCap := 3 }, treeAaab,
      [([true], 0x61), ([true], 0x61), ([true], 0x61), ([false], 0x62)], [false],
      by decide, by decide, by decide, by intro w hw; exact ⟨false, by revert w; decide⟩, ⟨_, _, rfl⟩,
      by decide, by decide, by decide +kernel⟩,
    ⟨{ withIn [0, 0, 0, 9, 0, 0, 0, 0, 0x30, 0x80] with nodeCap := 1 }, .leaf 0x61 false, List.replicate 7 false,
      by decide, by decide, by decide, by decide, by decide +kernel⟩⟩

theorem witness_DecodeDoneMeansThePayloadWasCut :
    (withIn containerAaab).status ≠ .busy ∧
    nextHas .decode (withIn containerAaab) (fun t => decide (t.status = .done) && decide (t.hdrTree ≠ 0)) = true ∧
    nextHas .decode (withIn (List.replicate 8 0)) (fun t => decide (t.status = .done) && decide (t.hdrTree = 0)) = true := by
  decide +kernel

theorem witness_DecodeOfTheEmptyContainer :
    ∃ s : State, s.status ≠ .busy ∧ noFail s ∧ 8 ≤ s.inLen ∧ ∀ a, a < 8 → s.inp.read a = 0x00 :=
  ⟨withIn (List.replicate 8 0), by decide +kernel⟩

theorem witness_DecodeRejectsInconsistentHeaders :
    (∃ (s : State) (db : Nat) (rest : List Bool), s.status ≠ .busy ∧ noFail s ∧ 0 < db ∧ lengthOk db ∧
      bytesBits (inBytes s) = bitsN 32 0 ++ bitsN 32 db ++ rest) ∧
    (∃ (s : State) (n : Node) (tb db : Nat) (rest : List Bool), s.status ≠ .busy ∧ noFail s ∧
      0 < tb ∧ lengthOk tb ∧ lengthOk db ∧ nodeCount n ≤ s.nodeCap ∧ (serialBits n).length ≠ tb ∧
      bytesBits (inBytes s) = bitsN 32 tb ++ bitsN 32 db ++ serialBits n ++ rest) ∧
    (∃ (s : State) (sym : Byte) (db : Nat) (rest : List Bool), s.status ≠ .busy ∧ noFail s ∧
      0 < db ∧ lengthOk db ∧ 1 ≤ s.nodeCap ∧
      bytesBits (inBytes s) = bitsN 32 9 ++ bitsN 32 db ++ serialBits (.leaf sym false) ++ rest) ∧
    (∃ (s : State) (l r l' r' : Node) (words : List (List Bool × Byte)) (part rest : List Bool),
      s.status ≠ .busy ∧ noFail s ∧ nodeCount (.internal l r) ≤ s.nodeCap ∧
      codeWords (.internal l r) words ∧ nodeAt part (.internal l r) = some (.internal l' r') ∧ part ≠ [] ∧
      (serialBits (.internal l r)).length < 2 ^ 32 ∧ (wordBits words ++ part).length < 2 ^ 32 ∧
      bytesBits (inBytes s) = bitsN 32 (serialBits (.internal l r)).length ++
        bitsN 32 (wordBits words ++ part).length ++ serialBits (.internal l r) ++ wordBits words ++ part ++ rest) :=
  ⟨⟨withIn [0, 0, 0, 0, 0, 0, 0, 1], 1, [], by decide +kernel⟩,
    ⟨withIn [0, 0, 0, 0x12, 0, 0, 0, 4, 0x98, 0x8C, 0x3C], treeAaab, 18, 4, [true, true, true, false, false],
      by decide +kernel⟩,
    ⟨withIn [0, 0, 0, 9, 0, 0, 0, 1, 0x30, 0x80], 0x61, 1, List.replicate 7 false, by decide +kernel⟩,
    ⟨withIn [0, 0, 0, 0x1D, 0, 0, 0, 2, 0x98, 0xE6, 0x13, 0x12], .leaf 0x63 false,
      .internal (.leaf 0x61 false) (.leaf 0x62 false), .leaf 0x61 false, .leaf 0x62 false, [([false], 0x63)], [true],
      [false], by decide, by decide, by decide, by intro w hw; exact ⟨false, by revert w; decide⟩,
      by decide, by decide, by decide, by decide, by decide +kernel⟩⟩

theorem witness_DecodeOfATruncatedContainer :
    (∃ s : State, s.status ≠ .busy ∧ noFail s ∧ s.inLen < 8) ∧
    (∃ (s : State) (l r l' r' : Node) (words : List (List Bool × Byte)) (part : List Bool) (db : Nat),
      s.status ≠ .busy ∧ noFail s ∧ nodeCount (.internal l r) ≤ s.nodeCap ∧
      codeWords (.internal l r) words ∧ nodeAt part (.internal l r) = some (.internal l' r') ∧
      (serialBits (.internal l r)).length < 2 ^ 32 ∧ lengthOk db ∧ (wordBits words ++ part).length < db ∧
      bytesBits (inBytes s) = bitsN 32 (serialBits (.internal l r)).length ++ bitsN 32 db ++
        serialBits (.internal l r) ++ wordBits words ++ part) :=
  ⟨⟨withIn [0, 0, 0, 0, 0, 0, 0], by decide⟩,
    ⟨withIn [0, 0, 0, 0x1D, 0, 0, 0, 4, 0x98, 0xE6, 0x13, 0x11], .leaf 0x63 false,
      .internal (.leaf 0x61 false) (.leaf 0x62 false), .leaf 0x61 false, .leaf 0x62 false,
      [([false], 0x63), ([false], 0x63)], [true], 4, by decide, by decide, by decide, by intro w hw; exact ⟨false, by revert w; decide⟩,
      by decide, by decide, by decide, by decide, by decide +kernel⟩⟩

theorem witness_DecodeOfEncodeIsTheInput :
    (withIn [0x61, 0x61, 0x61, 0x62]).status ≠ .busy ∧ noFail (withIn [0x61, 0x61, 0x61, 0x62]) ∧
    (inputPayload (withIn [0x61, 0x61, 0x61, 0x62])).length < 2 ^ 32 ∧
    (withIn containerAaab).status ≠ .busy ∧ noFail (withIn containerAaab) ∧ 511 ≤ (withIn containerAaab).nodeCap ∧
    nextHas .encode (withIn [0x61, 0x61, 0x61, 0x62]) (fun t => decide (inBytes (withIn containerAaab) = outBytes t)) =
      true := by decide +kernel

/-- Two blocks alike in their inputs and different in what they held before. -/
theorem witness_CommandsForgetWhatWasBefore :
    ∃ s s' : State, s ≠ s' ∧ s.status ≠ .busy ∧ s'.status ≠ .busy ∧ s.inp = s'.inp ∧ s.inLen = s'.inLen ∧
      s.envFail = s'.envFail ∧ s.nodeCap = s'.nodeCap :=
  ⟨sFail, { sFail with tree := some treeAbc, nextOrd := 300, outLen := 9, status := .done, phase := .halt }, by decide +kernel⟩

theorem witness_StepByStepRunIsTheCommand :
    sFail.status ≠ .busy ∧ sFail.hostQ = [] ∧ nextHas .encode sFail (fun _ => true) = true ∧
      nextHas .decode sFail (fun _ => true) = true := by decide +kernel

theorem witness_HaltedBlockStaysStill :
    State.reset.status ≠ .busy ∧ State.reset.ir = none ∧ State.reset.hostQ = [] := by decide

theorem witness_StartBeginsACommand :
    ({ sBusy with hostQ := [.writeReg .ctrl 1] } : State).hostQ = .writeReg .ctrl 1 :: [] ∧ sBusy.status = .busy ∧
    ({ State.reset with hostQ := [.writeReg .ctrl 3] } : State).hostQ = .writeReg .ctrl 3 :: [] ∧
    State.reset.status ≠ .busy := by decide

theorem witness_ResetPutsEveryRegisterBack :
    ({ sBusy with hostQ := [.reset] } : State).hostQ = .reset :: [] := by decide

theorem witness_HostReadsAndWritesRegisters :
    ({ sBusy with hostQ := [.readReg .phase] } : State).hostQ = .readReg .phase :: [] ∧
    ({ sBusy with hostQ := [.writeReg .ctrl 0] } : State).hostQ = .writeReg .ctrl 0 :: [] ∧
    (({ sBusy with hostQ := [.writeReg .outLen 5] } : State).hostQ = .writeReg .outLen 5 :: [] ∧
      HostReg.outLen ≠ .ctrl ∧ HostReg.outLen ≠ .inLen) ∧
    (({ State.reset with hostQ := [.writeReg .inLen 5] } : State).hostQ = .writeReg .inLen 5 :: [] ∧
      State.reset.status ≠ .busy) := by decide

theorem witness_HostKeepsOffWhileBusy :
    sBusy.status = .busy ∧
    ({ sBusy with hostQ := [.placeIn 0 7] } : State).hostQ = .placeIn 0 7 :: [] ∧
    ({ sBusy with hostQ := [.placeOut 0 7] } : State).hostQ = .placeOut 0 7 :: [] ∧
    ({ sBusy with hostQ := [.readOut 0] } : State).hostQ = .readOut 0 :: [] ∧
    ({ sBusy with hostQ := [.writeReg .inLen 0] } : State).hostQ = .writeReg .inLen 0 :: [] ∧
    (State.reset.status ≠ .busy ∧
      ({ State.reset with hostQ := [.readOut 3], outLen := 4 } : State).hostQ = .readOut 3 :: [] ∧
      3 < ({ State.reset with hostQ := [.readOut 3], outLen := 4 } : State).outLen) := by decide

theorem witness_EveryStepKeepsTheInvariant :
    Inv sBusy ∧ stepHas sBusy (fun _ => true) = true := by
  refine ⟨⟨by decide, by decide, ⟨rfl, rfl⟩, .inl (by decide), by decide⟩, by decide +kernel⟩

theorem witness_BlockNeverChangesItsInput :
    stepHas sBusy (fun _ => true) = true ∧ sBusy.hostQ = [] ∧
    stepHas { sBusy with hostQ := [.reset] } (fun _ => true) = true ∧
    ({ sBusy with hostQ := [.reset] } : State).status = .busy := by decide +kernel

theorem witness_PhaseMovesByTheTable :
    sBusy.status = .busy ∧ sBusy.hostQ = [] ∧ stepHas sBusy (fun _ => true) = true := by decide +kernel

theorem witness_HeaderRecordsAreLatched :
    ∃ (s : State) (v : Word32) (rest : List Bool), readerOk s ∧ noFail s ∧ readerBits s = bitsN 32 v.toNat ++ rest :=
  ⟨withIn [0x00, 0x00, 0x00, 0x13], 19, [], by decide +kernel⟩

theorem witness_NodeRecordsBuildTheTree :
    (∃ s rest, readerOk s ∧ noFail s ∧ readerBits s = true :: rest ∧ s.countNode.nodeCnt ≤ s.nodeCap) ∧
    (∃ s sym rest, readerOk s ∧ noFail s ∧ readerBits s = false :: (byteBits sym ++ rest) ∧
      s.countNode.nodeCnt ≤ s.nodeCap) ∧
    (∃ s b rest, readerOk s ∧ noFail s ∧ readerBits s = b :: rest ∧ s.nodeCap < s.countNode.nodeCnt) :=
  ⟨⟨{ withIn [0x80] with nodeCap := 1 }, List.replicate 7 false, by decide +kernel⟩,
    ⟨{ withIn [0x30, 0x80] with nodeCap := 1 }, 0x61, List.replicate 7 false, by decide +kernel⟩,
    ⟨{ withIn [0x80] with nodeCap := 0 }, true, List.replicate 7 false, by decide +kernel⟩⟩

theorem witness_RecordsOfATreeMakeDeserialize :
    ∃ (s : State) (n : Node) (rest : List Bool), readerOk s ∧ noFail s ∧ nodeCount n ≤ s.nodeCap ∧
      readerBits s = serialBits n ++ rest :=
  ⟨{ sRead with nodeCap := 3 }, treeAaab, [true, true, true, false, false], by decide +kernel⟩

theorem witness_PathBitsMoveTheWalker :
    (∃ (s : State) (l r : Node) (b : Bool) (rest : List Bool), readerOk s ∧ noFail s ∧ s.cur = .internal l r ∧
      readerBits s = b :: rest ∧ s.rdBitcnt ≠ s.payEnd) ∧
    (∃ (s : State) (l r : Node) (b : Bool) (rest : List Bool), readerOk s ∧ noFail s ∧
      ((∃ v flag, s.cur = .leaf v flag) ∧ s.tree = some (.internal l r)) ∧ readerBits s = b :: rest ∧
      s.rdBitcnt = s.payEnd) :=
  ⟨⟨{ withIn [0x80] with cur := treeAbc, payEnd := 1 }, .leaf 0x63 false,
      .internal (.leaf 0x61 false) (.leaf 0x62 false), true, List.replicate 7 false, by decide +kernel⟩,
    ⟨{ withIn [0x80] with tree := some treeAbc }, .leaf 0x63 false,
      .internal (.leaf 0x61 false) (.leaf 0x62 false), true, List.replicate 7 false,
      by decide, by decide, ⟨⟨0, false, rfl⟩, by decide⟩, by decide +kernel, by decide⟩⟩

end Sys2Proof.Tests
end

/-! ### The host port: what a step does with the host's action -/

namespace Sys2Proof.Machine

/-- The host's action comes before the block's own (R181). -/
theorem step_of_hostQ_cons {s : State} {a : HostAct} {q : List HostAct} (h : s.hostQ = a :: q) :
    step s = hostAct a { s with hostQ := q } := by
  simp [step, h]

/-- Bit 0 of a value, as a word of one bit, is the value's low word. -/
theorem ofBool_testBit_zero (v : Nat) : BitVec.ofBool (v.testBit 0) = BitVec.ofNat 1 v := by
  apply BitVec.eq_of_toNat_eq
  rw [BitVec.toNat_ofBool, Nat.toNat_testBit, BitVec.toNat_ofNat, pow_zero, Nat.div_one, pow_one]

/-- A write to `CTRL` starts the command that bit 0 of the value names (R29, R130). -/
@[simp] theorem writeReg_ctrl (v : Nat) (s : State) :
    writeReg .ctrl v s = .next (start (BitVec.ofNat 1 v) s) := by
  rw [← ofBool_testBit_zero]
  rfl

/-- A write to a read-only register is ignored (R29). -/
theorem writeReg_readOnly {r : HostReg} (v : Nat) (s : State) (hctrl : r ≠ .ctrl) (hlen : r ≠ .inLen) :
    writeReg r v s = .next s := by
  cases r with
  | ctrl => exact absurd rfl hctrl
  | inLen => exact absurd rfl hlen
  | status | err | hdrTree | hdrData | outLen | phase => rfl

/-- `IN_LEN` takes a write while no command runs (R29, R181). -/
theorem writeReg_inLen_of_not_busy (v : Nat) {s : State} (h : s.status ≠ .busy) :
    writeReg .inLen v s = .next { s with inLen := v } :=
  if_neg h

/-- The output `done` is the number 2 of `STATUS` (R12, R159). -/
theorem doneOut_iff_code (s : State) : s.doneOut = true ↔ s.status.code = 2 := by
  unfold State.doneOut
  cases s.status <;> decide

/-- The output `fault` is the number 3 of `STATUS` (R12, R159). -/
theorem faultOut_iff_code (s : State) : s.faultOut = true ↔ s.status.code = 3 := by
  unfold State.faultOut
  cases s.status <;> decide

/-- Settles O49: each clause is the host's action run first, then the law of the register it names. -/
theorem hostReadsAndWritesRegisters : Obligations.HostReadsAndWritesRegisters := by
  intro s q
  refine ⟨fun r h => ?read, fun v h => ?ctrl, fun r v h hctrl hlen => ?readOnly, fun v h hb => ?inLen,
    doneOut_iff_code s, faultOut_iff_code s⟩
  case read =>
    rw [step_of_hostQ_cons h]
    cases r <;> rfl
  case ctrl => exact (step_of_hostQ_cons h).trans (writeReg_ctrl v _)
  case readOnly => exact (step_of_hostQ_cons h).trans (writeReg_readOnly v _ hctrl hlen)
  case inLen => exact (step_of_hostQ_cons h).trans (writeReg_inLen_of_not_busy v hb)

end Sys2Proof.Machine

/-! ### The port primitives and the flush of the bit writer: one law per outcome -/

namespace Sys2Proof.Machine

/-- A failed access ends `INBYTE` in fault entry (R80, R53). -/
theorem inbyte_fails {s : State} (hf : s.envFails = true) :
    inbyte s = .halted (s.popEnv.faultEntry .ioError) := by
  simpa [hf] using inbyte_cases s

/-- A failed access ends `OUTBYTE` in fault entry (R83, R53). -/
theorem outbyte_fails (v : Byte) {s : State} (hf : s.envFails = true) :
    outbyte v s = .halted (s.popEnv.faultEntry .ioError) := by
  simpa [hf] using outbyte_cases v s

/-- An access that does not fail stores the byte (R83). -/
theorem outbyte_stores (v : Byte) {s : State} (hf : s.envFails = false) :
    outbyte v s = .ok () (s.popEnv.storeOut v) := by
  simpa [hf] using outbyte_cases v s

/-- A store raises the high-water mark exactly when the write cursor is not below it (R15, R83). -/
theorem State.storeOut_outLen_eq_ite (s : State) (v : Byte) :
    (s.storeOut v).outLen = if s.outPos < s.outLen then s.outLen else s.outPos + 1 := by
  rw [State.storeOut_outLen]
  split <;> omega

/-- `WFLUSH` as a step is the writer's `WFLUSH`, which returns no number. -/
theorem exec_wflush (s : State) : exec .wflush s = (wflush s).toStep fun _ s => s := rfl

/-- `WFLUSH` with nothing pending does nothing (R88). -/
theorem wflush_of_nothing_pending {s : State} (hacc : s.wrAcc = []) : wflush s = .ok () s := by
  simpa [hacc] using wflush_cases s

/-- `WFLUSH` with bits pending stores the padded byte and empties the buffer (R88). -/
theorem wflush_stores {s : State} (hacc : s.wrAcc ≠ []) (hf : s.envFails = false) :
    wflush s = .ok () (s.popEnv.storeOut (byteOfBits s.wrAcc)).clearAcc := by
  simpa [hacc, hf] using wflush_cases s

/-- `WFLUSH` with bits pending and a failing access ends in fault entry (R88, R53). -/
theorem wflush_fails {s : State} (hacc : s.wrAcc ≠ []) (hf : s.envFails = true) :
    wflush s = .halted (s.popEnv.faultEntry .ioError) := by
  simpa [hacc, hf] using wflush_cases s

/-! ### The bits of an assembled byte -/

/-- One more bit doubles the value and joins at the low end (R67). -/
theorem bitsVal_concat (bs : List Bool) (b : Bool) :
    bitsVal (bs ++ [b]) = Nat.bit b (bitsVal bs) := by
  rw [Nat.bit_val]
  exact List.foldl_concat ..

/-- Bit `i` of a string's value is the string's bit `i` counted from its end (R9, R67). -/
theorem testBit_bitsVal (bs : List Bool) (i : Nat) :
    (bitsVal bs).testBit i = bs.reverse.getD i false := by
  induction bs using List.reverseRecOn generalizing i with
  | nil => simp [bitsVal]
  | append_singleton bs b ih =>
    rw [bitsVal_concat, List.reverse_concat]
    cases i with
    | zero => exact Nat.testBit_bit_zero b _
    | succ i => rw [Nat.testBit_bit_succ, ih, List.getD_cons_succ]

/-- The padding below a bit string reads as zeros (R88). -/
theorem getD_append_replicate_false (bs : List Bool) (n i : Nat) :
    (bs ++ List.replicate n false).getD i false = bs.getD i false := by
  rcases lt_or_ge i bs.length with h | h
  · exact List.getD_append bs _ false i h
  · rw [List.getD_append_right bs _ false i h, List.getD_eq_default bs false h]
    exact List.getElem?_getD_replicate_default_eq false n _

/-- The oldest bit of a byte's string stands in bit 7, and bits below the string are 0 (R84, R88). -/
theorem bitOf_byteOfBits {bs : List Bool} (hlen : bs.length ≤ 8) {i : Nat} (hi : i < 8) :
    bitOf (byteOfBits bs) (7 - i) = bs.getD i false := by
  have hpad : (bs ++ List.replicate (8 - bs.length) false).length = 8 := by simp; omega
  have h7 : 7 - i < 8 := by omega
  calc bitOf (byteOfBits bs) (7 - i)
      = (bitsVal (bs ++ List.replicate (8 - bs.length) false)).testBit (7 - i) := by
        rw [bitOf, byteOfBits, BitVec.getLsbD_ofNat, decide_eq_true h7, Bool.true_and]
    _ = (bs ++ List.replicate (8 - bs.length) false).getD i false := by
        rw [testBit_bitsVal, List.getD_reverse _ (by omega), hpad]
        congr 1
        omega
    _ = bs.getD i false := getD_append_replicate_false ..

/-! ### The statements -/

/-- Settles O5: each clause is the law of `INBYTE` for that outcome. -/
theorem inbyteReadsTheNextByte : Obligations.InbyteReadsTheNextByte := fun _ =>
  ⟨inbyte_fails, inbyte_end, inbyte_byte⟩

/-- Settles O6: the byte written reads back and a write leaves every other index alone. -/
theorem outbyteWritesAtTheCursor : Obligations.OutbyteWritesAtTheCursor := by
  intro s v
  refine ⟨outbyte_fails v, fun hf => ⟨s.popEnv.storeOut v, outbyte_stores v hf, ?_, ?_, ?_⟩⟩
  · rw [← State.storeOut_outLen_eq_ite s v]
    rfl
  · exact Mem.read_write_same s.out s.outPos v
  · exact fun a ha => Mem.read_write_other s.out v ha

/-- Settles O13: `WTELL` puts the bit cursor into the result latch (R86). -/
theorem wtellReturnsTheBitCursor : Obligations.WtellReturnsTheBitCursor := fun _ => rfl

/-- Settles O15: by what is pending and whether the store's access fails; the padding is
`bitOf_byteOfBits`. -/
theorem wflushPadsThePartialByte : Obligations.WflushPadsThePartialByte := by
  intro s
  refine ⟨fun hacc => ?nothing, fun hacc hf => ?stored, fun hacc hf => ?failed,
    fun i hi hlen => bitOf_byteOfBits hlen hi⟩
  case nothing => rw [exec_wflush, wflush_of_nothing_pending hacc, Res.toStep_ok]
  case stored =>
    rw [exec_wflush, wflush_stores hacc hf, Res.toStep_ok]
    rfl
  case failed =>
    rw [exec_wflush, wflush_fails hacc hf, Res.toStep_halted]
    rfl

end Sys2Proof.Machine

/-! ### The serialization of a tree as a bit string (R62, R111) -/

namespace Sys2Proof.Machine

theorem byteBits_length (v : Byte) : (byteBits v).length = 8 := Laws.bitsN_length 8 v.toNat

/-- Nine bits for each leaf and one for each internal node, of which a full tree has one less (R62, R111). -/
theorem serialBits_length_succ (n : Node) : (serialBits n).length + 1 = 10 * leafCount n := by
  induction n with
  | leaf sym sentinel => simp [serialBits, leafCount, byteBits_length]
  | internal l r ihl ihr =>
    simp only [serialBits, leafCount, List.length_cons, List.length_append]
    omega

theorem serialBits_length (n : Node) : (serialBits n).length = 10 * leafCount n - 1 := by
  have := serialBits_length_succ n
  omega

/-- The serialization of a tree is a node of the grammar of R62. -/
theorem serializedNode_serialBits (n : Node) : SerializedNode (serialBits n) := by
  induction n with
  | leaf sym sentinel => exact .leaf sym
  | internal l r ihl ihr => exact .internal _ _ ihl ihr

/-- Appending bits moves the bit cursor on by their number (R19, R89). -/
theorem appended.wrBitcnt {bs : List Bool} {s t : State} (h : appended bs s t) :
    t.wrBitcnt = s.wrBitcnt + bs.length := by
  rw [h.1]

/-- `SERIALIZE` as a step appends the serialization and returns no number (R110). -/
theorem exec_serialize (n : Node) (s : State) :
    exec (.serialize n) s = (wbitAll (serialBits n) s).toStep fun _ s => s := by
  rw [← serialize_eq]
  rfl

/-- Settles O23: the bits appended are the serialization of the tree. -/
theorem serializationHasItsLengthAndGrammar : Obligations.SerializationHasItsLengthAndGrammar := by
  intro s n hf hacc
  obtain ⟨t, hrun, happ, -, -⟩ := wbitAll_appends (serialBits n) hf hacc
  refine ⟨t, serialBits n, ?_, happ, serialBits_length n, ?_, serializedNode_serialBits n⟩
  · rw [exec_serialize, hrun, Res.toStep_ok]
  · rw [happ.wrBitcnt, Nat.add_sub_cancel_left, serialBits_length]

end Sys2Proof.Machine

/-! ### The tables by symbol (R9) -/

namespace Sys2Proof.Machine

@[simp] theorem Table.get_put_same {α : Type} (t : Table α) (b : Byte) (v : α) : (t.put b v).get b = v := by
  simp [Table.get, Table.put]

theorem Table.get_put_other {α : Type} (t : Table α) {b c : Byte} (v : α) (hne : c ≠ b) :
    (t.put b v).get c = t.get c := by
  have : b.toNat ≠ c.toNat := fun e => hne (BitVec.eq_of_toNat_eq e.symm)
  simp [Table.get, Table.put, List.getElem_set_ne this]

@[simp] theorem Table.get_mapAll {α : Type} (t : Table α) (f : α → α) (b : Byte) :
    (t.mapAll f).get b = f (t.get b) := by
  simp [Table.get, Table.mapAll]

theorem mem_symbols (b : Byte) : b ∈ symbols :=
  List.mem_map.2 ⟨b.toNat, List.mem_range.2 b.isLt, (BitVec.ofNat_toNat 8 b).trans (BitVec.setWidth_eq b)⟩

theorem symbols_nodup : symbols.Nodup := by
  refine List.Nodup.map_on (fun x hx y hy h => ?_) List.nodup_range
  have hx := List.mem_range.1 hx
  have hy := List.mem_range.1 hy
  have h := congrArg BitVec.toNat h
  simp only [Config.alphabet, BitVec.toNat_ofNat] at *
  omega

theorem symbols_length : symbols.length = 256 := by simp [symbols, Config.alphabet]

/-- A sum over the symbol values in order is the sum over the set of them. -/
theorem sum_map_symbols (f : Byte → Nat) : (symbols.map f).sum = ∑ b ∈ symbols.toFinset, f b :=
  (List.sum_toFinset f symbols_nodup).symm

end Sys2Proof.Machine

/-! ### The leaves of the tree `BUILD` makes (R100, R104, R105) -/

namespace Sys2Proof.Machine

/-- The symbols with a count, ascending. -/
def countedSymbols (freq : Table Nat) : List Byte := symbols.filter fun b => decide (0 < freq.get b)

theorem length_countedSymbols (freq : Table Nat) : (countedSymbols freq).length = symbolCount freq := rfl

theorem mem_countedSymbols {freq : Table Nat} {b : Byte} : b ∈ countedSymbols freq ↔ 0 < freq.get b := by
  simp [countedSymbols, mem_symbols]

theorem countedSymbols_nodup (freq : Table Nat) : (countedSymbols freq).Nodup := symbols_nodup.filter _

theorem symbolCount_le (freq : Table Nat) : symbolCount freq ≤ 256 :=
  symbols_length ▸ List.length_filter_le _ _

/-- The leaf entry of a symbol (R100, step 1). -/
def leafEntry (freq : Table Nat) (b : Byte) : ForestEntry :=
  { weight := freq.get b, ord := b.toNat, node := .leaf b false }

theorem insertForest_perm (e : ForestEntry) (forest : List ForestEntry) :
    (insertForest e forest).Perm (e :: forest) := by
  induction forest with
  | nil => rfl
  | cons x xs ih =>
    rw [insertForest]
    split
    · rfl
    · exact (ih.cons x).trans (.swap e x xs)

/-- `BUILD` starts from one leaf entry for each symbol with a count (R100, step 1). -/
theorem leafEntries_perm (freq : Table Nat) (syms : List Byte) :
    (leafEntries freq syms).Perm
      ((syms.filter fun b => decide (0 < freq.get b)).map (leafEntry freq)) := by
  induction syms with
  | nil => rfl
  | cons b bs ih =>
    rw [leafEntries]
    split
    next h =>
      rw [List.filter_cons_of_pos (by simpa using h), List.map_cons]
      exact (insertForest_perm _ _).trans (ih.cons _)
    next h => rwa [List.filter_cons_of_neg (by simpa using h)]

theorem length_leafEntries (freq : Table Nat) : (leafEntries freq symbols).length = symbolCount freq := by
  rw [(leafEntries_perm freq symbols).length_eq, List.length_map]
  rfl

/-- The leaves of all trees of a forest. -/
def forestLeaves (forest : List ForestEntry) : List (Byte × Bool) := forest.flatMap fun e => leavesOf e.node

theorem forestLeaves_insertForest (e : ForestEntry) (forest : List ForestEntry) :
    (forestLeaves (insertForest e forest)).Perm (leavesOf e.node ++ forestLeaves forest) :=
  (insertForest_perm e forest).flatMap_right _

theorem forestLeaves_leafEntries (freq : Table Nat) :
    (forestLeaves (leafEntries freq symbols)).Perm ((countedSymbols freq).map fun b => (b, false)) := by
  refine ((leafEntries_perm freq symbols).flatMap_right _).trans (.of_eq ?_)
  rw [List.flatMap_map]
  exact List.flatMap_pure_eq_map _ _

/-- A merge keeps the leaves (R102). -/
theorem forestLeaves_mergeForest (n : Nat) (forest : List ForestEntry) (ord : Nat) :
    (forestLeaves (mergeForest n forest ord).1).Perm (forestLeaves forest) := by
  fun_induction mergeForest n forest ord with
  | case1 n a b rest ord ih =>
    refine (ih.trans (forestLeaves_insertForest _ _)).trans (.of_eq ?_)
    simp [forestLeaves, mergeEntries, leavesOf]
  | case2 => rfl

/-- Enough merges leave one entry (R100, step 2). -/
theorem length_mergeForest {n : Nat} {forest : List ForestEntry} (ord : Nat) (hne : forest ≠ [])
    (hn : forest.length ≤ n + 1) : (mergeForest n forest ord).1.length = 1 := by
  fun_induction mergeForest n forest ord with
  | case1 n a b rest ord ih =>
    have hlen := (insertForest_perm (mergeEntries a b ord) rest).length_eq
    simp only [List.length_cons] at hlen hn
    exact ih (List.ne_nil_of_length_pos (by omega)) (by omega)
  | case2 n forest ord h =>
    match n, forest with
    | _, [e] => rfl
    | 0, a :: b :: rest => simp at hn
    | n + 1, a :: b :: rest => exact (h n a b rest rfl rfl).elim

@[simp] theorem realSymbols_internal (l r : Node) :
    realSymbols (.internal l r) = realSymbols l ++ realSymbols r := by
  simp [realSymbols, leavesOf]

@[simp] theorem realSymbols_leaf (b : Byte) : realSymbols (.leaf b false) = [b] := rfl

@[simp] theorem realSymbols_sentinel (b : Byte) : realSymbols (.leaf b true) = [] := rfl

theorem leafCount_eq_length (n : Node) : leafCount n = (leavesOf n).length := by
  induction n with
  | leaf sym sentinel => rfl
  | internal l r ihl ihr => simp [leafCount, leavesOf, ihl, ihr]

/-- No leaf of the tree is the sentinel (R104). -/
def noSentinel (n : Node) : Prop := ∀ w ∈ leavesOf n, w.2 = false

theorem noSentinel_internal {l r : Node} : noSentinel (.internal l r) ↔ noSentinel l ∧ noSentinel r := by
  simp only [noSentinel, leavesOf, List.forall_mem_append]

/-- A tree whose leaves are real leaves of the given symbols. -/
theorem realSymbols_of_leavesOf {n : Node} {syms : List Byte}
    (h : (leavesOf n).Perm (syms.map fun b => (b, false))) :
    noSentinel n ∧ (realSymbols n).Perm syms ∧ leafCount n = syms.length := by
  refine ⟨fun w hw => ?_, ?_, ?_⟩
  · obtain ⟨b, -, rfl⟩ := List.mem_map.1 (h.mem_iff.1 hw)
    rfl
  · refine ((h.filter _).map Prod.fst).trans (.of_eq ?_)
    simp [List.filter_map, Function.comp_def]
  · rw [leafCount_eq_length, h.length_eq, List.length_map]

/-- `BUILD` of one symbol makes its leaf with the sentinel beside it (R104). -/
theorem build_tree_of_one {s : State} (h : symbolCount s.freq = 1) :
    ∃ b, countedSymbols s.freq = [b] ∧ s.build.tree = some (sentinelTree (.leaf b false)) := by
  obtain ⟨b, hb⟩ := List.length_eq_one_iff.1 h
  have hleaf : leafEntries s.freq symbols = [leafEntry s.freq b] := by
    refine List.perm_singleton.1 ((leafEntries_perm s.freq symbols).trans (.of_eq ?_))
    exact congrArg (List.map (leafEntry s.freq)) hb
  refine ⟨b, hb, ?_⟩
  rw [State.build, hleaf]
  rfl

/-- `BUILD` of two symbols or more makes a tree with one real leaf for each symbol with a count (R105 (c)). -/
theorem build_tree_of_two {s : State} (h : 2 ≤ symbolCount s.freq) :
    ∃ root, s.build.tree = some root ∧
      (leavesOf root).Perm ((countedSymbols s.freq).map fun b => (b, false)) := by
  have hlen := length_leafEntries s.freq
  rcases s.build_cases with ⟨h0, -⟩ | ⟨e, h1, -⟩ | ⟨a, b, rest, forest, ord, h2, hm, hb⟩
  · rw [h0, List.length_nil] at hlen
    omega
  · rw [h1, List.length_singleton] at hlen
    omega
  · have hone := length_mergeForest (n := rest.length + 2) Config.firstInternalOrd
      (List.cons_ne_nil a (b :: rest)) (by simp)
    have hleaves := forestLeaves_mergeForest (rest.length + 2) (a :: b :: rest) Config.firstInternalOrd
    rw [hm] at hone hleaves
    obtain ⟨e, rfl⟩ := List.length_eq_one_iff.1 hone
    refine ⟨e.node, by rw [hb]; rfl, ?_⟩
    rw [← h2] at hleaves
    simpa [forestLeaves] using hleaves.trans (forestLeaves_leafEntries s.freq)

end Sys2Proof.Machine

/-! ### The paths of a tree (R65) -/

namespace Sys2Proof.Machine

theorem nodeAt_append (p q : List Bool) (n : Node) : nodeAt (p ++ q) n = (nodeAt p n).bind (nodeAt q) := by
  induction p generalizing n with
  | nil => rfl
  | cons b p ih =>
    cases n with
    | leaf sym sentinel => cases b <;> rfl
    | internal l r =>
      cases b
      · exact ih l
      · exact ih r

/-- A leaf has no node but itself. -/
theorem nodeAt_leaf {p : List Bool} {sym : Byte} {flag : Bool} {n : Node} :
    nodeAt p (.leaf sym flag) = some n ↔ p = [] ∧ n = .leaf sym flag := by
  match p with
  | [] => simp [nodeAt, eq_comm]
  | true :: _ => simp [nodeAt]
  | false :: _ => simp [nodeAt]

/-- The real leaves are those that a path leads to. -/
theorem mem_realSymbols {n : Node} {b : Byte} :
    b ∈ realSymbols n ↔ ∃ p, nodeAt p n = some (.leaf b false) := by
  induction n with
  | leaf sym flag => cases flag <;> simp [nodeAt_leaf]
  | internal l r ihl ihr =>
    rw [realSymbols_internal, List.mem_append, ihl, ihr]
    constructor
    · rintro (⟨p, h⟩ | ⟨p, h⟩)
      · exact ⟨false :: p, h⟩
      · exact ⟨true :: p, h⟩
    · rintro ⟨_ | ⟨_ | _, p⟩, h⟩
      · cases h
      · exact .inl ⟨p, h⟩
      · exact .inr ⟨p, h⟩

theorem length_le_depth {p : List Bool} {n m : Node} (h : nodeAt p n = some m) : p.length ≤ depth n := by
  induction n generalizing p with
  | leaf sym flag => simp [(nodeAt_leaf.1 h).1]
  | internal l r ihl ihr =>
    match p with
    | [] => exact Nat.zero_le _
    | false :: p => exact Nat.succ_le_succ (le_max_of_le_left (ihl h))
    | true :: p => exact Nat.succ_le_succ (le_max_of_le_right (ihr h))

/-- A full tree is less deep than it has leaves (R105 (e)). -/
theorem depth_lt_leafCount (n : Node) : depth n < leafCount n := by
  induction n with
  | leaf sym flag => exact Nat.one_pos
  | internal l r ihl ihr =>
    simp only [depth, leafCount]
    omega

/-- A path to a leaf begins no path to another leaf. -/
theorem eq_of_path_begins {n : Node} {p q : List Bool} {b c : Byte} {f g : Bool}
    (hp : nodeAt p n = some (.leaf b f)) (hq : nodeAt q n = some (.leaf c g)) (h : p <+: q) : b = c := by
  obtain ⟨x, rfl⟩ := h
  rw [nodeAt_append, hp] at hq
  obtain ⟨-, e⟩ := nodeAt_leaf.1 hq
  exact (Node.leaf.inj e).1.symm

end Sys2Proof.Machine

/-! ### The code table `DERIVE` makes (R115, R116) -/

namespace Sys2Proof.Machine

/-- `WALK` leaves the entry of a symbol without a real leaf alone (R115). -/
theorem walkCodes_get_of_notMem {n : Node} {b : Byte} (path : List Bool) (t : Table CodeEntry)
    (h : b ∉ realSymbols n) : (walkCodes n path t).get b = t.get b := by
  induction n generalizing path t with
  | leaf sym flag =>
    cases flag with
    | false => exact Table.get_put_other t _ (by simpa using h)
    | true => rfl
  | internal l r ihl ihr =>
    rw [realSymbols_internal, List.mem_append, not_or] at h
    rw [walkCodes, ihr _ _ h.2, ihl _ _ h.1]

/-- The table holds, for each real leaf below a node, the path to the node and on to the leaf (R115). -/
def codesPaths (t : Table CodeEntry) (n : Node) (path : List Bool) : Prop :=
  ∀ b p, nodeAt p n = some (.leaf b false) → t.get b = ⟨true, path ++ p⟩

theorem codesPaths.left {t : Table CodeEntry} {l r : Node} {path : List Bool}
    (h : codesPaths t (.internal l r) path) : codesPaths t l (path ++ [false]) := fun b p hp => by
  simpa using h b (false :: p) hp

theorem codesPaths.right {t : Table CodeEntry} {l r : Node} {path : List Bool}
    (h : codesPaths t (.internal l r) path) : codesPaths t r (path ++ [true]) := fun b p hp => by
  simpa using h b (true :: p) hp

/-- `WALK` gives each real leaf's symbol the path to it, when no two share a symbol (R115). -/
theorem walkCodes_codesPaths {n : Node} (path : List Bool) (t : Table CodeEntry) (h : (realSymbols n).Nodup) :
    codesPaths (walkCodes n path t) n path := by
  induction n generalizing path t with
  | leaf sym flag =>
    intro b p hp
    obtain ⟨rfl, e⟩ := nodeAt_leaf.1 hp
    cases e
    simp [walkCodes]
  | internal l r ihl ihr =>
    rw [realSymbols_internal] at h
    obtain ⟨hl, hr, hdisj⟩ := List.nodup_append'.1 h
    intro b p hp
    match p with
    | [] => cases hp
    | true :: p =>
      rw [walkCodes]
      simpa using ihr (path ++ [true]) (walkCodes l (path ++ [false]) t) hr b p hp
    | false :: p =>
      have hb : b ∉ realSymbols r := hdisj (mem_realSymbols.2 ⟨p, hp⟩)
      rw [walkCodes, walkCodes_get_of_notMem _ _ hb]
      simpa using ihl (path ++ [false]) t hl b p hp

/-- `DERIVE` writes the walk of the tree into the cleared table (R115). -/
theorem exec_derive {s : State} {root : Node} (h : s.tree = some root) :
    exec .derive s = .next { s with code := walkCodes root [] (clearCodes s.code) } := by
  change execDerive s = _
  simp [execDerive, derive, h]

/-- A derived code is valid exactly for the symbols of the real leaves (R115). -/
theorem walkCodes_valid_iff {n : Node} (t : Table CodeEntry) (h : (realSymbols n).Nodup) (b : Byte) :
    ((walkCodes n [] (clearCodes t)).get b).valid = true ↔ b ∈ realSymbols n := by
  constructor
  · contrapose!
    intro hb
    simp [walkCodes_get_of_notMem _ _ hb, clearCodes]
  · intro hb
    obtain ⟨p, hp⟩ := mem_realSymbols.1 hb
    rw [walkCodes_codesPaths [] (clearCodes t) h b p hp]

/-- The Kraft sum below a node, scaled by `2 ^ d`, is what a leaf at the node's place would give (R116 (d)). -/
theorem kraft_sum {t : Table CodeEntry} {n : Node} {path : List Bool} {d : Nat} (hc : codesPaths t n path)
    (hs : noSentinel n) (hd : path.length + depth n ≤ d) :
    ((realSymbols n).map fun b => 2 ^ (d - (t.get b).bits.length)).sum = 2 ^ (d - path.length) := by
  induction n generalizing path with
  | leaf sym flag =>
    obtain rfl : flag = false := hs (sym, flag) (List.mem_singleton_self _)
    have hsym := hc sym [] rfl
    simp [hsym]
  | internal l r ihl ihr =>
    obtain ⟨hsl, hsr⟩ := noSentinel_internal.1 hs
    simp only [depth] at hd
    have hl := ihl hc.left hsl (by simp; omega)
    have hr := ihr hc.right hsr (by simp; omega)
    have hpow : d - path.length = d - (path.length + 1) + 1 := by omega
    rw [realSymbols_internal, List.map_append, List.sum_append, hl, hr, hpow, pow_succ]
    simp only [List.length_append, List.length_singleton]
    omega

/-- A sum over the valid entries of a table is the sum over the symbols that have one. -/
theorem sum_map_valid {t : Table CodeEntry} {syms : List Byte} (f : Byte → Nat) (hnd : syms.Nodup)
    (h : ∀ b, (t.get b).valid = true ↔ b ∈ syms) :
    (symbols.map fun b => if (t.get b).valid then f b else 0).sum = (syms.map f).sum := by
  rw [sum_map_symbols, ← List.sum_toFinset f hnd, ← Finset.sum_filter]
  refine Finset.sum_congr (Finset.ext fun b => ?_) fun _ _ => rfl
  simp [mem_symbols, h]

/-- The payload is as long as the code words of the symbols, each as often as its symbol occurs (R116 (e)). -/
theorem length_payloadBits (code : Table CodeEntry) (bs : List Byte) :
    (payloadBits code bs).length = (symbols.map fun b => tallies bs b * (code.get b).bits.length).sum := by
  rw [payloadBits, List.length_flatMap, Finset.sum_list_map_count, sum_map_symbols]
  refine Finset.sum_subset (fun b _ => by simp [mem_symbols]) fun b _ hb => ?_
  rw [List.count_eq_zero_of_not_mem (by simpa using hb), zero_smul]

/-- What a tree of `BUILD` has for its code table (R105): an internal root, one real leaf for each symbol with
a count, at most 256 leaves, and real leaves that fill all of the Kraft sum or, beside the sentinel, half of it. -/
structure IsBuilt (freq : Table Nat) (root : Node) : Prop where
  internal : ∃ l r, root = .internal l r
  real : (realSymbols root).Perm (countedSymbols freq)
  leaves : leafCount root ≤ 256
  kraft : ∀ t, codesPaths t root [] →
    ((realSymbols root).map fun b => 2 ^ (255 - (t.get b).bits.length)).sum =
      if symbolCount freq = 1 then 2 ^ 254 else 2 ^ 255

/-- The tree of one symbol: the sentinel has the other half of the Kraft sum (R104, R116 (d)). -/
theorem isBuilt_sentinelTree {freq : Table Nat} {b : Byte} (h : countedSymbols freq = [b]) :
    IsBuilt freq (sentinelTree (.leaf b false)) where
  internal := ⟨_, _, rfl⟩
  real := .of_eq h.symm
  leaves := by simp [sentinelTree, leafCount]
  kraft t hc := by
    have hone : symbolCount freq = 1 := congrArg List.length h
    have hs : noSentinel (.leaf b false) := fun w hw => by rw [List.mem_singleton.1 hw]
    rw [if_pos hone]
    exact kraft_sum (d := 255) hc.left hs (by simp [depth])

/-- A tree of two symbols or more, each with a real leaf (R105 (c), R116 (d)). -/
theorem isBuilt_of_leavesOf {freq : Table Nat} {root : Node} (h : 2 ≤ symbolCount freq)
    (hl : (leavesOf root).Perm ((countedSymbols freq).map fun b => (b, false))) : IsBuilt freq root := by
  obtain ⟨hs, hreal, hcount⟩ := realSymbols_of_leavesOf hl
  rw [length_countedSymbols] at hcount
  have hle : leafCount root ≤ 256 := hcount ▸ symbolCount_le freq
  refine ⟨?_, hreal, hle, fun t hc => ?_⟩
  · cases root with
    | leaf sym flag =>
      rw [leafCount] at hcount
      omega
    | internal l r => exact ⟨l, r, rfl⟩
  · have hdepth := depth_lt_leafCount root
    rw [if_neg (by omega)]
    exact kraft_sum (d := 255) hc hs (by simp; omega)

theorem build_isBuilt {s : State} (h : 1 ≤ symbolCount s.freq) :
    ∃ root, s.build.tree = some root ∧ IsBuilt s.freq root := by
  rcases h.eq_or_lt with h1 | h2
  · obtain ⟨b, hb, htree⟩ := build_tree_of_one h1.symm
    exact ⟨_, htree, isBuilt_sentinelTree hb⟩
  · obtain ⟨root, htree, hleaves⟩ := build_tree_of_two h2
    exact ⟨root, htree, isBuilt_of_leavesOf h2 hleaves⟩

theorem IsBuilt.nodup {freq : Table Nat} {root : Node} (h : IsBuilt freq root) : (realSymbols root).Nodup :=
  h.real.nodup_iff.2 (countedSymbols_nodup freq)

theorem IsBuilt.mem {freq : Table Nat} {root : Node} (h : IsBuilt freq root) {b : Byte} :
    b ∈ realSymbols root ↔ 0 < freq.get b :=
  h.real.mem_iff.trans mem_countedSymbols

/-- A path to a leaf has 1 to 255 bits (R116 (b)). -/
theorem IsBuilt.length_path {freq : Table Nat} {root : Node} (h : IsBuilt freq root) {p : List Bool} {b : Byte}
    (hp : nodeAt p root = some (.leaf b false)) : 1 ≤ p.length ∧ p.length ≤ 255 := by
  have hle := length_le_depth hp
  have hdepth := depth_lt_leafCount root
  have hleaves := h.leaves
  obtain ⟨l, r, rfl⟩ := h.internal
  refine ⟨List.length_pos_of_ne_nil fun hnil => ?_, by omega⟩
  subst hnil
  cases hp

/-- Settles O28: every valid entry is the path to a real leaf of the tree `BUILD` made. -/
theorem codeTableOfABuiltTree : Obligations.CodeTableOfABuiltTree := by
  intro s h
  obtain ⟨root, htree, hbuilt⟩ := build_isBuilt h
  refine ⟨s.build, _, rfl, exec_derive htree, ?_⟩
  have hvalid := walkCodes_valid_iff s.build.code hbuilt.nodup
  have hcodes := walkCodes_codesPaths [] (clearCodes s.build.code) hbuilt.nodup
  generalize walkCodes root [] (clearCodes s.build.code) = code at hvalid hcodes
  have hpath : ∀ b, (code.get b).valid = true → nodeAt (code.get b).bits root = some (.leaf b false) := by
    intro b hb
    obtain ⟨p, hp⟩ := mem_realSymbols.1 ((hvalid b).1 hb)
    rw [hcodes b p hp]
    exact hp
  refine ⟨fun b => (hvalid b).trans hbuilt.mem, fun b hb => hbuilt.length_path (hpath b hb),
    fun b c hne hb hc hpre => hne (eq_of_path_begins (hpath b hb) (hpath c hc) hpre), ?kraft,
    fun bs hbs => ?payload⟩
  case kraft => exact (sum_map_valid _ hbuilt.nodup hvalid).trans (hbuilt.kraft code hcodes)
  case payload => simp only [length_payloadBits, hbs]

end Sys2Proof.Machine

/-! ### Bit strings and the numbers and bytes they stand for (R9, R67) -/

namespace Sys2Proof.Machine

theorem bitsN_eq_map (n v : Nat) : bitsN n v = (List.range n).reverse.map v.testBit := by
  induction n with
  | zero => rfl
  | succ n ih => simp [bitsN, ih, List.range_succ]

theorem bitsVal_lt (bs : List Bool) : bitsVal bs < 2 ^ bs.length :=
  Nat.lt_pow_two_of_testBit _ fun i hi => by
    rw [testBit_bitsVal, List.getD_eq_default _ _ (by simpa using hi)]

/-- The bits of a string's value, as many as the string has, are the string. -/
theorem bitsN_bitsVal (bs : List Bool) : bitsN bs.length (bitsVal bs) = bs := by
  refine List.ext_getElem (Laws.bitsN_length _ _) fun i _ hi => ?_
  simp only [bitsN_eq_map, List.getElem_map, List.getElem_reverse, List.getElem_range, List.length_range,
    testBit_bitsVal]
  rw [List.getD_eq_getElem _ _ (by simp; omega), List.getElem_reverse]
  congr 1
  omega

/-- The value of the `n` low bits of a number (R67). -/
theorem bitsVal_bitsN (n v : Nat) : bitsVal (bitsN n v) = v % 2 ^ n := by
  refine Nat.eq_of_testBit_eq fun i => ?_
  rw [testBit_bitsVal, bitsN_eq_map, ← List.map_reverse, List.reverse_reverse, Nat.testBit_mod_two_pow]
  by_cases hi : i < n
  · simp [List.getD_eq_getElem?_getD, hi]
  · simp [List.getD_eq_getElem?_getD, hi]

/-- The byte of eight bits has these bits (R9). -/
theorem byteBits_byteOfBits {bs : List Bool} (h : bs.length = 8) : byteBits (byteOfBits bs) = bs := by
  have hlt := bitsVal_lt bs
  have hpad : bs ++ List.replicate (8 - bs.length) false = bs := by simp [h]
  rw [h] at hlt
  rw [byteBits, byteOfBits, hpad, BitVec.toNat_ofNat, Nat.mod_eq_of_lt hlt]
  simpa [h] using bitsN_bitsVal bs

theorem ofNat_bitsVal_byteBits (v : Byte) : BitVec.ofNat 8 (bitsVal (byteBits v)) = v := by
  rw [byteBits, bitsVal_bitsN, Nat.mod_eq_of_lt v.isLt, BitVec.ofNat_toNat, BitVec.setWidth_eq]

/-- The zeros that fill a byte up are the ones `byteOfBits` reads anyway (R88). -/
theorem byteOfBits_append_zeros (bs : List Bool) {k : Nat} (h : bs.length + k = 8) :
    byteOfBits (bs ++ List.replicate k false) = byteOfBits bs := by
  have hk : k = 8 - bs.length := by omega
  subst hk
  have : 8 - (bs.length + (8 - bs.length)) = 0 := by omega
  simp [byteOfBits, this]

@[simp] theorem bytesBits_cons (v : Byte) (bs : List Byte) : bytesBits (v :: bs) = byteBits v ++ bytesBits bs := rfl

/-- Packing whole bytes and reading them back gives the bit string (R41, R89). -/
theorem bytesBits_packed (k : Nat) {bs : List Bool} (h : bs.length = 8 * k) :
    bytesBits ((List.range k).map (packedByte bs)) = bs := by
  induction k generalizing bs with
  | zero => exact (List.eq_nil_of_length_eq_zero h).symm
  | succ k ih =>
    have hrest : (fun i => packedByte bs (i + 1)) = packedByte (bs.drop 8) := funext fun i => by
      rw [Nat.add_comm]
      exact (packedByte_drop bs 1 i).symm
    have hfirst : byteBits (packedByte bs 0) = bs.take 8 := byteBits_byteOfBits (by simp; omega)
    rw [List.range_succ_eq_map, List.map_cons, List.map_map, bytesBits_cons, hfirst]
    change _ ++ bytesBits ((List.range k).map fun i => packedByte bs (i + 1)) = bs
    rw [hrest, ih (by simp; omega), List.take_append_drop]

end Sys2Proof.Machine

/-! ### The header of a container (R133, R137) -/

namespace Sys2Proof.Machine

/-- The two length fields of a container, as its header holds them (R61). -/
def headerBits (tb db : Nat) : List Bool := bitsN 32 tb ++ bitsN 32 db

theorem length_headerBits (tb db : Nat) : (headerBits tb db).length = 64 := by
  simp [headerBits, Laws.bitsN_length]

/-- What `E_EMPTY` and `PATCH` both do: both fields and a flush (R133, R137). -/
def writeHeader (tb db : Nat) (s : State) : Res Unit :=
  (wbits tb Config.lenW s).bind fun _ s => (wbits db Config.lenW s).bind fun _ s => wflush s

theorem writeHeader_eq (tb db : Nat) (s : State) :
    writeHeader tb db s = (wbitAll (headerBits tb db) s).bind fun _ s => wflush s := by
  have hcount : countOk Config.lenW := by decide
  simp only [writeHeader, wbits_eq hcount, headerBits, wbitAll_append, Res.bind_assoc]
  rfl

theorem encodeEmpty_eq (s : State) :
    encodeEmpty s = (writeHeader 0 0 s).bind fun _ s => .ok () s.complete := by
  simp only [encodeEmpty, writeHeader, Res.bind_assoc]

theorem patch_eq (tb db : Nat) (s : State) :
    patch tb db s = (wflush s).bind fun _ s => (wseek 0 s).bind fun _ s => writeHeader tb db s := rfl

/-- `WSEEK` with nothing pending moves the byte cursor (R87). -/
theorem wseek_of_nothing_pending (a : Nat) {s : State} (h : s.wrAcc = []) :
    wseek a s = .ok () { s with outPos := a } :=
  if_pos (by simp [h])

/-- `WFLUSH` while no access fails, whether bits are pending or not (R88). -/
theorem wflush_runs {s : State} (hf : noFail s) :
    ∃ t, wflush s = .ok () t ∧
      t = { s with
            out := t.out, wrAcc := [], envFail := s.envFail.drop (if s.wrAcc = [] then 0 else 1)
            outPos := if s.wrAcc = [] then s.outPos else s.outPos + 1
            outLen := if s.wrAcc = [] then s.outLen else max s.outLen (s.outPos + 1) } ∧
      ∀ a, t.out.read a =
        if s.wrAcc ≠ [] ∧ a = s.outPos then byteOfBits s.wrAcc else s.out.read a := by
  by_cases hacc : s.wrAcc = []
  · refine ⟨s, wflush_of_nothing_pending hacc, ?_, fun a => by simp [hacc]⟩
    simp only [hacc, if_true, List.drop_zero]
    rw [← hacc]
  · refine ⟨_, wflush_stores hacc hf.envFails, ?_, fun a => ?_⟩
    · simp only [hacc, if_false, List.drop_one]
      rfl
    · simp [hacc, Mem.read_write]

/-- What the header leaves: eight bytes at the write cursor, nothing pending (R61, R137). -/
theorem writeHeader_runs (tb db : Nat) {s : State} (hf : noFail s) (hacc : s.wrAcc = []) :
    ∃ t, writeHeader tb db s = .ok () t ∧
      t = { s with
            out := t.out, outPos := s.outPos + 8, outLen := max s.outLen (s.outPos + 8)
            wrBitcnt := s.wrBitcnt + 64, envFail := s.envFail.drop 8 } ∧
      ∀ a, t.out.read a =
        if s.outPos ≤ a ∧ a < s.outPos + 8 then packedByte (headerBits tb db) (a - s.outPos)
        else s.out.read a := by
  obtain ⟨t, hrun, ⟨heq, hout⟩, hpos, henv⟩ := wbitAll_appends (headerBits tb db) hf (by simp [hacc])
  have hlen := length_headerBits tb db
  have hdrop : (headerBits tb db).drop 64 = [] := List.drop_eq_nil_of_le hlen.le
  simp only [hacc, List.nil_append, hlen, hpos, henv, Nat.reduceDiv, Nat.reduceMul, hdrop] at heq hout
  have hdone : wflush t = .ok () t := wflush_of_nothing_pending (by rw [heq])
  refine ⟨t, ?_, ?_, hout⟩
  · rw [writeHeader_eq, hrun, Res.bind_ok, hdone]
  · simpa [← hacc] using heq

/-- What `PATCH` leaves: the last partial byte at the cursor, the two lengths in `OUT[0..7]` (R137). -/
theorem patch_runs (tb db : Nat) {s : State} (hf : noFail s) :
    ∃ t, patch tb db s = .ok () t ∧
      t = { s with
            out := t.out, outPos := 8, wrAcc := [], wrBitcnt := s.wrBitcnt + 64
            outLen := max (if s.wrAcc = [] then s.outLen else max s.outLen (s.outPos + 1)) 8
            envFail := s.envFail.drop (if s.wrAcc = [] then 8 else 9) } ∧
      ∀ a, t.out.read a =
        if a < 8 then packedByte (headerBits tb db) a
        else if s.wrAcc ≠ [] ∧ a = s.outPos then byteOfBits s.wrAcc
        else s.out.read a := by
  obtain ⟨u, hflush, hu, huout⟩ := wflush_runs hf
  have huacc : u.wrAcc = [] := by rw [hu]
  have huenv : u.envFail = s.envFail.drop (if s.wrAcc = [] then 0 else 1) := by rw [hu]
  have hfu : noFail u := hf.of_drop huenv
  obtain ⟨t, hrun, ht, htout⟩ := writeHeader_runs tb db (s := { u with outPos := 0 }) hfu huacc
  refine ⟨t, ?_, ?_, fun a => ?_⟩
  · rw [patch_eq, hflush, Res.bind_ok, wseek_of_nothing_pending 0 huacc, Res.bind_ok, hrun]
  · rw [ht, hu]
    simp only [List.drop_drop, Nat.zero_add]
    split_ifs <;> rfl
  · rw [htout a, huout a]
    simp

end Sys2Proof.Machine

/-! ### The counts of the input and the tree they make (R132, R100) -/

namespace Sys2Proof.Machine

/-- One byte counted (R132). -/
def tallyByte (t : Table Nat) (b : Byte) : Table Nat := t.put b (t.get b + 1)

theorem freqOf_eq (bs : List Byte) : freqOf bs = bs.foldl tallyByte (tableOf 0) := rfl

/-- `INBYTE` has taken a byte (R80). -/
def State.nextByte (s : State) : State := { s.popEnv with inPos := s.inPos + 1 }

theorem inbyte_nextByte {s : State} (hf : noFail s) (h : s.inPos < s.inLen) :
    inbyte s = .ok (some (s.inp.read s.inPos)) s.nextByte :=
  inbyte_byte hf.envFails h

/-- The outcomes left after one byte and the rest of a loop over `IN` (R53). -/
theorem drop_envFail_succ (s : State) (k : Nat) : s.envFail.drop (k + 1) = s.nextByte.envFail.drop k := by
  rw [Nat.add_comm, ← List.drop_drop, List.drop_one]
  rfl

/-- The loop of `COUNT` tallies the bytes left of `IN` (R132). -/
theorem countLoop_runs {n : Nat} {s : State} (hf : noFail s) (hpos : s.inPos ≤ s.inLen)
    (hn : s.inLen < s.inPos + n) :
    countLoop n s = .ok ()
      { s with
        freq := ((inBytes s).drop s.inPos).foldl tallyByte s.freq, inPos := s.inLen
        envFail := s.envFail.drop (s.inLen - s.inPos + 1) } := by
  induction n generalizing s with
  | zero => omega
  | succ n ih =>
    rcases hpos.eq_or_lt with hend | hlt
    · have hnil : (inBytes s).drop s.inPos = [] := List.drop_eq_nil_of_le (by rw [inBytes_length, hend])
      rw [countLoop, inbyte_end hf.envFails hend, Res.bind_ok, hnil]
      simp [← hend, State.popEnv]
    · have hcount : s.inLen - s.inPos = s.inLen - (s.inPos + 1) + 1 := by omega
      rw [countLoop, inbyte_nextByte hf hlt, Res.bind_ok, drop_inBytes hlt, List.foldl_cons, hcount, drop_envFail_succ]
      exact ih (s := s.nextByte.tally (s.inp.read s.inPos)) hf.popEnv hlt (by
        change s.inLen < s.inPos + 1 + n
        omega)

/-- `COUNT` leaves the counts of `IN` (R132). -/
theorem countIn_runs {s : State} (hf : noFail s) :
    countIn s = .ok ()
      { s with freq := freqOf (inBytes s), inPos := s.inLen, envFail := s.envFail.drop (s.inLen + 1) } :=
  countLoop_runs (s := { s with freq := tableOf 0, inPos := 0 }) hf (Nat.zero_le _) (by simp)

theorem get_tableOf {α : Type} (v : α) (b : Byte) : (tableOf v).get b = v := List.getElem_replicate ..

theorem get_foldl_tallyByte (bs : List Byte) (t : Table Nat) (b : Byte) :
    (bs.foldl tallyByte t).get b = t.get b + tallies bs b := by
  induction bs generalizing t with
  | nil => rfl
  | cons c bs ih =>
    rw [List.foldl_cons, ih, tallies, tallies, List.count_cons, tallyByte]
    by_cases hc : b = c
    · subst hc
      simp
      omega
    · simp [Table.get_put_other t _ hc, Ne.symm hc]

/-- The counts of a byte sequence are how often its symbols occur (R132, R20). -/
theorem get_freqOf (bs : List Byte) (b : Byte) : (freqOf bs).get b = tallies bs b := by
  rw [freqOf_eq, get_foldl_tallyByte, get_tableOf, Nat.zero_add]

theorem freqOf_pos_iff {bs : List Byte} {b : Byte} : 0 < (freqOf bs).get b ↔ b ∈ bs := by
  rw [get_freqOf, tallies, List.count_pos_iff]

/-- `BUILD` writes the forest, `NEXT_ORD` and `TREE` and nothing else (R100). -/
theorem build_eq (s : State) :
    s.build = { s with forest := s.build.forest, nextOrd := s.build.nextOrd, tree := s.build.tree } := by
  rcases s.build_cases with ⟨-, h⟩ | ⟨e, -, h⟩ | ⟨a, b, rest, forest, ord, -, -, h⟩ <;> rw [h]

/-- The tree of `BUILD` is a function of the counts (R100). -/
theorem build_tree_congr {s t : State} (h : s.freq = t.freq) : s.build.tree = t.build.tree := by
  unfold State.build
  rw [h]
  rcases leafEntries t.freq symbols with _ | ⟨a, _ | ⟨b, rest⟩⟩ <;> rfl

theorem inputTree_of_empty {s : State} (h : s.inLen = 0) : inputTree s = none := by
  have hlen := length_leafEntries (freqOf (inBytes s))
  have hnone : countedSymbols (freqOf (inBytes s)) = [] := List.eq_nil_iff_forall_not_mem.2 fun b hb => by
    simpa [inBytes, h] using freqOf_pos_iff.1 (mem_countedSymbols.1 hb)
  rw [← length_countedSymbols, hnone, List.length_nil] at hlen
  rw [inputTree, State.build, List.eq_nil_of_length_eq_zero hlen]

/-- An input that is not empty has a tree, as `CODE` needs it (R105). -/
theorem inputTree_isBuilt {s : State} (h : 0 < s.inLen) :
    ∃ root, inputTree s = some root ∧ IsBuilt (freqOf (inBytes s)) root := by
  refine build_isBuilt (s := { s with freq := freqOf (inBytes s) }) ?_
  have hmem : s.inp.read 0 ∈ inBytes s := List.mem_map_of_mem (List.mem_range.2 h)
  rw [← length_countedSymbols]
  exact List.length_pos_of_mem (mem_countedSymbols.2 (freqOf_pos_iff.2 hmem))

end Sys2Proof.Machine

/-! ### The payload (R136) -/

namespace Sys2Proof.Machine

theorem inBytes_congr {s t : State} (hinp : t.inp = s.inp) (hlen : t.inLen = s.inLen) : inBytes t = inBytes s := by
  rw [inBytes, inBytes, hinp, hlen]

theorem payloadBits_cons (code : Table CodeEntry) (b : Byte) (bs : List Byte) :
    payloadBits code (b :: bs) = (code.get b).bits ++ payloadBits code bs := rfl

/-! What appending bits leaves alone or adds to (R89). -/

section
variable {bs : List Bool} {s t : State}

theorem appended.code (h : appended bs s t) : t.code = s.code := by rw [h.1]

theorem appended.inBytes (h : appended bs s t) : inBytes t = inBytes s :=
  inBytes_congr (by rw [h.1]) (by rw [h.1])

theorem appended.inLen (h : appended bs s t) : t.inLen = s.inLen := by rw [h.1]

theorem appended.wrAcc (h : appended bs s t) :
    t.wrAcc = (s.wrAcc ++ bs).drop (8 * ((s.wrAcc ++ bs).length / 8)) := by
  rw [h.1]

theorem appended.of_nextByte (h : appended bs s.nextByte t) : appended bs s t := h

theorem appended.nil_popEnv (h : s.wrAcc.length < 8) : appended [] s s.popEnv := by
  have heq := congrArg State.popEnv (appended.nil s h).1
  exact ⟨heq, (appended.nil s h).2⟩

end

/-- One turn of the loop of `EMIT` (R136). -/
theorem emitSymbol_runs {v : Byte} {s : State} (hf : noFail s) (hacc : s.wrAcc.length < 8)
    (hv : (s.code.get v).valid = true) :
    ∃ t, emitSymbol v s.nextByte = .ok () t ∧ appended (s.code.get v).bits s t ∧ t.inPos = s.inPos + 1 ∧
      t.envFail = s.envFail.drop (1 + (s.wrAcc.length + (s.code.get v).bits.length) / 8) := by
  obtain ⟨t, hrun, happ, hpos, henv⟩ := wbitAll_appends (s := s.nextByte) (s.code.get v).bits hf.popEnv hacc
  refine ⟨t, (if_pos hv).trans hrun, happ.of_nextByte, hpos, ?_⟩
  rw [henv, ← List.length_append, ← List.drop_drop, List.drop_one]
  rfl

/-- The loop of `EMIT` appends the code words of the bytes left of `IN` (R136). -/
theorem emitLoop_runs {n : Nat} {s : State} (hf : noFail s) (hacc : s.wrAcc.length < 8)
    (hpos : s.inPos ≤ s.inLen) (hn : s.inLen < s.inPos + n)
    (hv : ∀ b ∈ (inBytes s).drop s.inPos, (s.code.get b).valid = true) :
    ∃ t, emitLoop n s = .ok () t ∧ appended (payloadBits s.code ((inBytes s).drop s.inPos)) s t ∧
      t.inPos = s.inLen ∧
      t.envFail = s.envFail.drop
        (s.inLen - s.inPos + 1 + (s.wrAcc.length + (payloadBits s.code ((inBytes s).drop s.inPos)).length) / 8) := by
  induction n generalizing s with
  | zero => omega
  | succ n ih =>
    rcases hpos.eq_or_lt with hend | hlt
    · have hnil : (inBytes s).drop s.inPos = [] := List.drop_eq_nil_of_le (by rw [inBytes_length, hend])
      refine ⟨s.popEnv, ?_, ?_, hend, ?_⟩
      · rw [emitLoop, inbyte_end hf.envFails hend, Res.bind_ok]
      · rw [hnil]
        exact appended.nil_popEnv hacc
      · simp [hnil, ← hend, payloadBits, Nat.div_eq_of_lt hacc]
    · rw [drop_inBytes hlt] at hv ⊢
      obtain ⟨hvalid, hrest⟩ := List.forall_mem_cons.1 hv
      obtain ⟨t, hrun, happ, htpos, htenv⟩ := emitSymbol_runs hf hacc hvalid
      obtain ⟨u, hrun', happ', hupos, huenv⟩ := ih (s := t) (hf.of_drop htenv) happ.pending
        (by rw [htpos, happ.inLen]; exact hlt) (by rw [htpos, happ.inLen]; omega)
        (by rw [htpos, happ.inBytes, happ.code]; exact hrest)
      rw [htpos, happ.inBytes, happ.code] at happ' huenv
      refine ⟨u, ?_, happ.trans happ', hupos.trans happ.inLen, ?_⟩
      · rw [emitLoop, inbyte_nextByte hf hlt, Res.bind_ok]
        exact (congrArg (Res.bind · fun _ s => emitLoop n s) hrun).trans hrun'
      · rw [huenv, htenv, happ.inLen, payloadBits_cons, List.drop_drop, happ.wrAcc]
        congr 1
        simp only [List.length_append, List.length_drop]
        omega

/-- `EMIT` appends the code words of `IN` (R136). -/
theorem emit_runs {s : State} (hf : noFail s) (hacc : s.wrAcc.length < 8)
    (hv : ∀ b ∈ inBytes s, (s.code.get b).valid = true) :
    ∃ t, emit s = .ok () t ∧ appended (payloadBits s.code (inBytes s)) s t ∧ t.inPos = s.inLen ∧
      t.envFail = s.envFail.drop (s.inLen + 1 + (s.wrAcc.length + (payloadBits s.code (inBytes s)).length) / 8) :=
  emitLoop_runs (s := { s with inPos := 0 }) hf hacc (Nat.zero_le _) (by simp) hv

end Sys2Proof.Machine

/-! ### `ENCODE` up to `E_PATCH` (R131 to R136) -/

namespace Sys2Proof.Machine

/-- What `COUNT` leaves of the state `START(0)` made (R131, R132). -/
def State.counted (s : State) : State :=
  { s.begin 0#1 with
    freq := freqOf (inBytes s), inPos := s.inLen, envFail := s.envFail.drop (s.inLen + 1) }

theorem countIn_begin {s : State} (hf : noFail s) : countIn (s.begin 0#1) = .ok () s.counted :=
  countIn_runs (s := s.begin 0#1) hf

theorem counted_build_tree (s : State) : s.counted.build.tree = inputTree s := build_tree_congr rfl

/-- What `E_RESERVE` leaves, with `t0` set for `E_TREE`: the tree is built and the writer stands behind
the header (R131, R134). -/
def State.reserved (s : State) (root : Node) : State :=
  { s.counted with
    forest := s.counted.build.forest, nextOrd := s.counted.build.nextOrd, tree := some root
    outPos := 8, t0 := 0 }

/-- The latches `ENCODE` sets between the tree and `E_PATCH`, for a tree of `tb` bits and a payload of
`db` bits (R131, R135, R136). -/
def State.latched (s : State) (code : Table CodeEntry) (tb db : Nat) : State :=
  { s with code := code, tb := tb, hdrTree := BitVec.ofNat 32 tb, d0 := tb, db := db }

/-- The code table `ENCODE` uses for its input (R115, R136). -/
def State.inputCode (s : State) (root : Node) : Table CodeEntry := walkCodes root [] (clearCodes s.code)

/-- The state `E_PATCH` begins with, but for the bits written and the environment's outcomes. -/
def State.laidOut (s : State) (root : Node) : State :=
  (s.reserved root).latched (s.inputCode root) (serialBits root).length
    (payloadBits (s.inputCode root) (inBytes s)).length

/-- Every byte of the input has a code word (R52). -/
theorem inputCode_valid {s : State} {root : Node} (hb : IsBuilt (freqOf (inBytes s)) root) {b : Byte}
    (h : b ∈ inBytes s) : ((s.inputCode root).get b).valid = true :=
  (walkCodes_valid_iff _ hb.nodup b).2 (hb.mem.2 (freqOf_pos_iff.2 h))

/-- Latches written on both sides do not touch the bits appended (R89, R131). -/
theorem appended.latched {bs : List Bool} {s t : State} (h : appended bs s t) (code : Table CodeEntry)
    (tb db : Nat) : appended bs (s.latched code tb db) (t.latched code tb db) := by
  have heq := congrArg (·.latched code tb db) h.1
  exact ⟨heq, h.2⟩

theorem appended.latchData {bs : List Bool} {s t : State} (h : appended bs s t) (n : Nat) :
    appended bs (s.latchData n) (t.latchData n) := by
  have heq := congrArg (·.latchData n) h.1
  exact ⟨heq, h.2⟩

/-- `E_BUILD` and `E_RESERVE` for an input that has a tree (R131). -/
theorem encodeBody_eq_serialize {s : State} {root : Node} (hf : noFail s) (htree : inputTree s = some root) :
    encodeBody (s.begin 0#1) =
      (wbitAll (serialBits root) (s.reserved root)).bind fun _ t =>
      (derive (t.latchTree t.wrBitcnt)).bind fun _ t =>
      (emit { t with d0 := t.wrBitcnt }).bind fun _ t => encodePatch (t.latchData t.wrBitcnt) := by
  have hbuild := build_eq s.counted
  rw [counted_build_tree, htree] at hbuild
  rw [encodeBody, countIn_begin hf, Res.bind_ok, hbuild, ← serialize_eq]
  rfl

/-- `DERIVE` and the latches around it, once a tree is written (R131, R135). -/
theorem derive_latchTree {t : State} {root : Node} {tb : Nat} (htree : t.tree = some root) (ht0 : t.t0 = 0)
    (htb : t.wrBitcnt = tb) (f : State → Res Unit) :
    ((derive (t.latchTree t.wrBitcnt)).bind fun _ t => f { t with d0 := t.wrBitcnt }) =
      f (t.latched (walkCodes root [] (clearCodes t.code)) tb t.db) := by
  subst htb
  have hd : derive (t.latchTree t.wrBitcnt) =
      .ok () { t.latchTree t.wrBitcnt with code := walkCodes root [] (clearCodes t.code) } := by
    simp [derive, htree]
  have hsub : t.wrBitcnt - t.t0 = t.wrBitcnt := by rw [ht0, Nat.sub_zero]
  rw [hd, Res.bind_ok, State.latchTree, hsub]
  rfl

theorem latched_latchData (t : State) (code : Table CodeEntry) (tb x db : Nat) :
    (t.latched code tb x).latchData (tb + db) = t.latched code tb db := by
  rw [State.latchData, State.latched, Nat.add_sub_cancel_left]
  rfl

/-- `ENCODE` of an input that has a tree reaches `E_PATCH` with the tree and the payload written from
`OUT[8]` on (R131 to R136). -/
theorem encodeBody_eq_encodePatch {s : State} {root : Node} (hf : noFail s) (htree : inputTree s = some root)
    (hb : IsBuilt (freqOf (inBytes s)) root) :
    ∃ u, encodeBody (s.begin 0#1) = encodePatch u ∧ noFail u ∧
      appended (serialBits root ++ payloadBits (s.inputCode root) (inBytes s)) (s.laidOut root) u := by
  have hfr : noFail (s.reserved root) := hf.of_drop (n := s.inLen + 1) rfl
  obtain ⟨t, hser, hS, -, htenv⟩ := wbitAll_appends (serialBits root) hfr (Nat.zero_lt_succ 7)
  have httree : t.tree = some root := by rw [hS.1]; rfl
  have htcnt : t.wrBitcnt = (serialBits root).length := hS.wrBitcnt.trans (Nat.zero_add _)
  have htbytes : inBytes t = inBytes s := hS.inBytes
  have hcode : walkCodes root [] (clearCodes t.code) = s.inputCode root := by rw [hS.code]; rfl
  obtain ⟨u, hemit, hP, -, huenv⟩ :=
    emit_runs (s := t.latched (s.inputCode root) (serialBits root).length t.db) (hfr.of_drop htenv) hS.pending
      fun b h => inputCode_valid hb (htbytes ▸ h)
  have hucnt : u.wrBitcnt = (serialBits root).length + (payloadBits (s.inputCode root) (inBytes s)).length := by
    rw [hP.wrBitcnt, ← htbytes, ← htcnt]
    rfl
  have hP' := hP.latchData u.wrBitcnt
  change appended (payloadBits (s.inputCode root) (inBytes t)) _ _ at hP'
  rw [hucnt, latched_latchData, htbytes] at hP'
  refine ⟨u.latchData u.wrBitcnt, ?_, (hfr.of_drop htenv).of_drop huenv, ?_⟩
  · rw [encodeBody_eq_serialize hf htree, hser, Res.bind_ok]
    refine (derive_latchTree httree (by rw [hS.1]; rfl) htcnt fun s =>
      (emit s).bind fun _ t => encodePatch (t.latchData t.wrBitcnt)).trans ?_
    rw [hcode, hemit, Res.bind_ok]
  · rw [hucnt]
    exact (hS.latched _ _ _).trans hP'

end Sys2Proof.Machine

/-! ### The container `ENCODE` leaves (R137, R139) -/

namespace Sys2Proof.Machine

/-- A header, and after it a body filled up with zeros to whole bytes (R139). -/
def containerBits (tb db : Nat) (body : List Bool) : List Bool :=
  headerBits tb db ++ (body ++ padBits body.length)

theorem length_containerBits (tb db : Nat) (body : List Bool) :
    (containerBits tb db body).length = 8 * (8 + (body.length + 7) / 8) := by
  simp only [containerBits, padBits, List.length_append, length_headerBits, List.length_replicate]
  omega

/-- The first eight bytes of a container are its header (R61). -/
theorem packedByte_container_header (tb db : Nat) (body : List Bool) {a : Nat} (h : a < 8) :
    packedByte (containerBits tb db body) a = packedByte (headerBits tb db) a :=
  packedByte_append_left _ _ (by rw [length_headerBits]; omega)

/-- Behind the header a container's bytes are those of its body. -/
theorem packedByte_container_body (tb db : Nat) (body : List Bool) (i : Nat) :
    packedByte (containerBits tb db body) (8 + i) = packedByte (body ++ padBits body.length) i := by
  rw [← packedByte_drop, containerBits, List.drop_left' (length_headerBits tb db)]

/-- The last byte of a body that does not fill it up, padded with zeros (R88). -/
theorem packedByte_padded {body : List Bool} (h : body.drop (8 * (body.length / 8)) ≠ []) :
    packedByte (body ++ padBits body.length) (body.length / 8) =
      byteOfBits (body.drop (8 * (body.length / 8))) := by
  have hpos := List.length_pos_of_ne_nil h
  rw [List.length_drop] at hpos
  rw [packedByte, List.drop_append_of_le_length (by omega), List.take_of_length_le, padBits, byteOfBits_append_zeros]
  · rw [List.length_drop]
    omega
  · simp only [padBits, List.length_append, List.length_drop, List.length_replicate]
    omega

/-- `PATCH` behind a body that was written from `OUT[8]` on leaves a container (R137, R139). -/
theorem patch_container (tb db : Nat) {body : List Bool} {s u : State} (hf : noFail u)
    (hpos : s.outPos = 8) (hacc : s.wrAcc = []) (hlen : s.outLen = 0) (happ : appended body s u) :
    ∃ t, patch tb db u = .ok () t ∧
      t = { u with
            out := t.out, outPos := 8, wrAcc := [], wrBitcnt := t.wrBitcnt, envFail := t.envFail
            outLen := 8 + (body.length + 7) / 8 } ∧
      (∀ a, a < t.outLen → t.out.read a = packedByte (containerBits tb db body) a) ∧
      ∀ a, t.outLen ≤ a → t.out.read a = s.out.read a := by
  obtain ⟨heq, hout⟩ := happ
  simp only [hpos, hacc, hlen, List.nil_append] at heq hout
  have huacc : u.wrAcc = body.drop (8 * (body.length / 8)) := by rw [heq]
  have hupos : u.outPos = 8 + body.length / 8 := by rw [heq]
  have hulen : u.outLen = if body.length < 8 then 0 else max 0 (8 + body.length / 8) := by rw [heq]
  have hnil : u.wrAcc = [] ↔ body.length % 8 = 0 := by
    rw [huacc, List.drop_eq_nil_iff]
    omega
  obtain ⟨t, hrun, ht, htout⟩ := patch_runs tb db hf
  have htlen : t.outLen = 8 + (body.length + 7) / 8 := by
    rw [ht]
    simp only [hnil, hulen, hupos]
    split_ifs <;> omega
  refine ⟨t, hrun, ?_, fun a ha => ?_, fun a ha => ?_⟩
  · rw [← htlen, ht]
  · rw [htlen] at ha
    rw [htout a, hout a]
    rcases lt_or_ge a 8 with h8 | h8
    · rw [if_pos h8, packedByte_container_header _ _ _ h8]
    obtain ⟨i, rfl⟩ := Nat.exists_eq_add_of_le h8
    rw [if_neg (by omega), packedByte_container_body, Nat.add_sub_cancel_left]
    rcases lt_or_ge i (body.length / 8) with hi | hi
    · rw [if_neg (by omega), if_pos (by omega), packedByte_append_left _ _ (by omega)]
    · obtain rfl : i = body.length / 8 := by omega
      have hne : u.wrAcc ≠ [] := by rw [Ne, hnil]; omega
      rw [if_pos ⟨hne, hupos.symm⟩, huacc, packedByte_padded (huacc ▸ hne)]
  · rw [htlen] at ha
    rw [htout a, hout a, if_neg (by omega), if_neg (by rw [Ne, hnil]; omega), if_neg (by omega)]

end Sys2Proof.Machine

/-! ### What completes does the same where no access fails (R53, R156)

A statement about a run that ended without a fault, whatever the outcomes of its accesses were, follows
from the one about the run in which no access fails. -/

namespace Sys2Proof.Machine

/-- The state with no failing access to come. -/
def State.quiet (s : State) : State := { s with envFail := [] }

theorem noFail_quiet (s : State) : noFail s.quiet := by simp [State.quiet]

/-- `q` is what an operation does from a quiet state: where `r` completes, it completes alike; and
where `r` ends the command, that is in a fault. -/
def quietly {α : Type} (r q : Res α) : Prop :=
  match r with
  | .ok a t => q = .ok a t.quiet
  | .halted t => t.status = .fault
  | .fault _ => True
  | .refused _ => True

theorem quietly.ok {α : Type} (a : α) (s : State) : quietly (.ok a s) (.ok a s.quiet) := rfl

theorem quietly.raise {α : Type} (k : Err) (s : State) (q : Res α) : quietly (raise k s) q := rfl

theorem quietly.refused {α : Type} (e : Refusal) (q : Res α) : quietly (.refused e) q := trivial

theorem quietly.bind {α β : Type} {r q : Res α} {f : α → State → Res β} (h : quietly r q)
    (hf : ∀ a t, quietly (f a t) (f a t.quiet)) : quietly (r.bind f) (q.bind f) := by
  cases r with
  | ok a t =>
    obtain rfl : q = .ok a t.quiet := h
    exact hf a t
  | halted t => exact h
  | fault e => trivial
  | refused e => trivial

theorem quietly.ite {α : Type} {p : Prop} [Decidable p] {r r' q q' : Res α} (h : quietly r q)
    (h' : quietly r' q') : quietly (if p then r else r') (if p then q else q') := by
  split
  · exact h
  · exact h'

theorem quietly_inbyte (s : State) : quietly (inbyte s) (inbyte s.quiet) := by
  have hq := (noFail_quiet s).envFails
  rcases inbyte_cases s with ⟨-, e⟩ | ⟨-, hend, e⟩ | ⟨-, hlt, e⟩ | ⟨-, -, e⟩
  · rw [e]; exact .raise ..
  · rw [e, inbyte_end hq hend]; rfl
  · rw [e, inbyte_byte hq hlt]; rfl
  · rw [e]; trivial

theorem quietly_outbyte (v : Byte) (s : State) : quietly (outbyte v s) (outbyte v s.quiet) := by
  rcases outbyte_cases v s with ⟨-, e⟩ | ⟨-, e⟩
  · rw [e]; exact .raise ..
  · rw [e, outbyte_stores v (noFail_quiet s).envFails]; rfl

/-! The bit writer and `ENCODE`. -/

theorem quietly_wbit (b : Bool) (s : State) : quietly (wbit b s) (wbit b s.quiet) :=
  .ite ((quietly_outbyte _ (s.appendBit b)).bind fun _ _ => .ok ..) (.ok ..)

theorem quietly_wbitAll (bs : List Bool) (s : State) : quietly (wbitAll bs s) (wbitAll bs s.quiet) := by
  induction bs generalizing s with
  | nil => exact .ok ..
  | cons b bs ih => exact (quietly_wbit b s).bind fun _ => ih

theorem quietly_wbits (v n : Nat) (s : State) : quietly (wbits v n s) (wbits v n s.quiet) :=
  .ite (quietly_wbitAll _ s) (.refused ..)

theorem quietly_wseek (a : Nat) (s : State) : quietly (wseek a s) (wseek a s.quiet) := .ite (.ok ..) (.refused ..)

theorem quietly_wflush (s : State) : quietly (wflush s) (wflush s.quiet) :=
  .ite (.ok ..) ((quietly_outbyte _ s).bind fun _ _ => .ok ..)

theorem quietly_serialize (n : Node) (s : State) : quietly (serialize n s) (serialize n s.quiet) := by
  simpa only [serialize_eq] using quietly_wbitAll (serialBits n) s

theorem quietly_derive (s : State) : quietly (derive s) (derive s.quiet) := by
  cases h : s.tree with
  | none =>
    have e : derive s = .refused .deriveWithoutTree := by rw [derive, h]
    rw [e]
    trivial
  | some root =>
    have h' : s.quiet.tree = some root := h
    simp only [derive, h, h']
    rfl

theorem quietly_countLoop (n : Nat) (s : State) : quietly (countLoop n s) (countLoop n s.quiet) := by
  induction n generalizing s with
  | zero => exact .ok ..
  | succ n ih =>
    refine (quietly_inbyte s).bind fun r t => ?_
    cases r with
    | none => exact .ok ..
    | some v => exact ih (t.tally v)

theorem quietly_emitSymbol (v : Byte) (s : State) : quietly (emitSymbol v s) (emitSymbol v s.quiet) :=
  .ite (quietly_wbitAll _ s) (.refused ..)

theorem quietly_emitLoop (n : Nat) (s : State) : quietly (emitLoop n s) (emitLoop n s.quiet) := by
  induction n generalizing s with
  | zero => exact .ok ..
  | succ n ih =>
    refine (quietly_inbyte s).bind fun r t => ?_
    cases r with
    | none => exact .ok ..
    | some v => exact (quietly_emitSymbol v t).bind fun _ => ih

theorem quietly_writeHeader (tb db : Nat) (s : State) : quietly (writeHeader tb db s) (writeHeader tb db s.quiet) :=
  (quietly_wbits tb _ s).bind fun _ t => (quietly_wbits db _ t).bind fun _ => quietly_wflush

theorem quietly_patch (tb db : Nat) (s : State) : quietly (patch tb db s) (patch tb db s.quiet) :=
  (quietly_wflush s).bind fun _ t => (quietly_wseek 0 t).bind fun _ => quietly_writeHeader tb db

theorem quietly_encodePatch (s : State) : quietly (encodePatch s) (encodePatch s.quiet) :=
  .ite (.raise ..) ((quietly_patch s.tb s.db { s with hdrData := BitVec.ofNat 32 s.db }).bind fun _ _ => .ok ..)

theorem quietly_encodeEmpty (s : State) : quietly (encodeEmpty s) (encodeEmpty s.quiet) := by
  rw [encodeEmpty_eq, encodeEmpty_eq]
  exact (quietly_writeHeader 0 0 s).bind fun _ _ => .ok ..

theorem build_quiet (s : State) : s.quiet.build = s.build.quiet := by
  unfold State.build State.quiet
  rcases leafEntries s.freq symbols with _ | ⟨a, _ | ⟨b, rest⟩⟩ <;> rfl

theorem quietly_encodeBody (s : State) : quietly (encodeBody s) (encodeBody s.quiet) := by
  refine (quietly_countLoop (s.inLen + 1) { s with freq := tableOf 0, inPos := 0 }).bind fun _ t => ?_
  rw [build_quiet]
  generalize t.build = c
  obtain ⟨tree, h⟩ : ∃ tree, c.tree = tree := ⟨_, rfl⟩
  have h' : c.quiet.tree = tree := h
  simp only [h, h']
  cases tree with
  | none => exact quietly_encodeEmpty c
  | some root =>
    refine (quietly_wseek _ c).bind fun _ c => ?_
    refine (quietly_serialize root { c with t0 := c.wrBitcnt }).bind fun _ c => ?_
    refine (quietly_derive (c.latchTree c.wrBitcnt)).bind fun _ c => ?_
    refine (quietly_emitLoop (c.inLen + 1) { c with d0 := c.wrBitcnt, inPos := 0 }).bind fun _ c => ?_
    exact quietly_encodePatch (c.latchData c.wrBitcnt)

/-! The bit reader and `DECODE`. -/

theorem quietly_rbit (s : State) : quietly (rbit s) (rbit s.quiet) := by
  refine .ite ((quietly_inbyte s).bind fun r t => ?_) (.ok ..)
  cases r with
  | none => exact .raise ..
  | some v => exact .ok ..

theorem quietly_rbitsFrom (n v : Nat) (s : State) : quietly (rbitsFrom n v s) (rbitsFrom n v s.quiet) := by
  induction n generalizing v s with
  | zero => exact .ok ..
  | succ n ih => exact (quietly_rbit s).bind fun b => ih (2 * v + b.toNat)

theorem quietly_rbits (n : Nat) (s : State) : quietly (rbits n s) (rbits n s.quiet) :=
  .ite (quietly_rbitsFrom n 0 s) (.refused ..)

theorem quietly_nodeFlag (s : State) : quietly (nodeFlag s) (nodeFlag s.quiet) :=
  (quietly_rbit s).bind fun _ _ => .ite (.raise ..) (.ok ..)

theorem quietly_nodeRecords (n : Nat) (s : State) : quietly (nodeRecords n s) (nodeRecords n s.quiet) := by
  induction n generalizing s with
  | zero => exact .ok ..
  | succ n ih =>
    refine (quietly_nodeFlag s).bind fun b t => .ite (ih t.openNode) ?_
    exact (quietly_rbits _ t).bind fun v t => .ite (.ok ..) (ih (t.closeNode _))

theorem quietly_walkSymbol (n : Node) (limit : Nat) (s : State) :
    quietly (walkSymbol n limit s) (walkSymbol n limit s.quiet) := by
  induction n generalizing s with
  | leaf sym flag => exact .ok ..
  | internal l r ihl ihr =>
    exact .ite (.raise ..) ((quietly_rbit s).bind fun b t => .ite (ihr { t with cur := r }) (ihl { t with cur := l }))

/-- `RDSYM` with an internal root walks from it while a payload bit is left (R117). -/
theorem rdsym_of_internal {s : State} {l r : Node} (h : s.tree = some (.internal l r)) (limit : Nat) :
    rdsym limit s =
      if s.rdBitcnt < limit then walkSymbol (.internal l r) limit { s with cur := .internal l r }
      else .refused .rdsymOutsideDomain := by
  simp [rdsym, h]

theorem rdsym_of_not_internal {s : State} (h : ∀ l r, s.tree ≠ some (.internal l r)) (limit : Nat) :
    rdsym limit s = .refused .rdsymOutsideDomain := by
  rw [rdsym]
  split
  · next l r e => exact absurd e (h l r)
  · rfl
  · rfl

theorem quietly_rdsym (limit : Nat) (s : State) : quietly (rdsym limit s) (rdsym limit s.quiet) := by
  by_cases h : ∃ l r, s.tree = some (.internal l r)
  · obtain ⟨l, r, h⟩ := h
    rw [rdsym_of_internal h, rdsym_of_internal (s := s.quiet) h]
    exact .ite (quietly_walkSymbol _ limit { s with cur := .internal l r }) (.refused ..)
  · rw [rdsym_of_not_internal fun l r e => h ⟨l, r, e⟩]
    exact .refused ..

theorem quietly_payloadLoop (n : Nat) (s : State) : quietly (payloadLoop n s) (payloadLoop n s.quiet) := by
  induction n generalizing s with
  | zero => exact .ok ..
  | succ n ih =>
    exact .ite ((quietly_rdsym s.payEnd s).bind fun v t => (quietly_outbyte v t).bind fun _ => ih) (.ok ..)

theorem quietly_decodePayload (s : State) : quietly (decodePayload s) (decodePayload s.quiet) :=
  .ite (.raise ..) ((quietly_payloadLoop s.db { s with payEnd := s.rdBitcnt + s.db }).bind fun _ _ => .ok ..)

theorem quietly_decodeTree (s : State) : quietly (decodeTree s) (decodeTree s.quiet) :=
  (quietly_nodeRecords (s.nodeCap + 1) { s with t0 := s.rdBitcnt, stack := [], nodeCnt := 0 }).bind fun _ t =>
    .ite (.raise ..) (quietly_decodePayload t)

theorem quietly_decodeBody (s : State) : quietly (decodeBody s) (decodeBody s.quiet) := by
  refine (quietly_rbits _ s).bind fun tb t => (quietly_rbits _ { t with tb := tb }).bind fun db t => ?_
  exact .ite (.ite (.raise ..) (.ok ..)) (quietly_decodeTree (t.latchHeader db))

/-- A command that ended in `DONE` completed, and does the same where no access fails. -/
theorem quietly.of_done {r q : Res Unit} {t : State} (h : quietly r q) (hr : r.toStep (fun _ s => s) = .next t)
    (ht : t.status = .done) : q = .ok () t.quiet := by
  rcases Res.toStep_eq_next.1 hr with ⟨_, s, rfl, rfl⟩ | rfl
  · exact h
  · cases ht.symm.trans h

end Sys2Proof.Machine

/-! ### What `ENCODE` leaves (R139) -/

namespace Sys2Proof.Machine

/-- `ENCODE` while no command runs: `START(0)` and the seven steps (R130, R131). -/
theorem exec_encode {s : State} (h : s.status ≠ .busy) :
    exec .encode s = (encodeBody (s.begin 0#1)).toStep fun _ s => s := by
  change execEncode s = _
  rw [execEncode, if_neg h, start, if_neg h]

section
variable {s : State} {root : Node}

theorem inputTreeBits_eq (h : inputTree s = some root) : inputTreeBits s = serialBits root := by
  rw [inputTreeBits, h]

theorem inputTreeBits_of_empty (h : s.inLen = 0) : inputTreeBits s = [] := by
  rw [inputTreeBits, inputTree_of_empty h]

theorem inputPayload_of_empty (h : s.inLen = 0) : inputPayload s = [] := by
  rw [inputPayload, inputTree_of_empty h]

/-- Every byte of the input has one path to a real leaf, and it is the byte's code word in every table
`WALK` makes (R52, R115). -/
theorem IsBuilt.path {t : Table CodeEntry} (hb : IsBuilt (freqOf (inBytes s)) root) {b : Byte} (h : b ∈ inBytes s) :
    ∃ p, nodeAt p root = some (.leaf b false) ∧ (walkCodes root [] t).get b = ⟨true, p⟩ := by
  obtain ⟨p, hp⟩ := mem_realSymbols.1 (hb.mem.2 (freqOf_pos_iff.2 h))
  exact ⟨p, hp, walkCodes_codesPaths [] t hb.nodup b p hp⟩

/-- The payload does not depend on what the code table held before (R115, R139). -/
theorem inputPayload_eq (htree : inputTree s = some root) (hb : IsBuilt (freqOf (inBytes s)) root) :
    inputPayload s = payloadBits (s.inputCode root) (inBytes s) := by
  rw [inputPayload, htree]
  refine List.flatMap_congr fun b h => ?_
  obtain ⟨p, hp, e⟩ := hb.path (t := tableOf ⟨false, []⟩) h
  have e' := walkCodes_codesPaths [] (clearCodes s.code) hb.nodup b p hp
  rw [e, State.inputCode, e']
  rfl

/-- A serialized tree of `BUILD` is at most 2559 bits long (R105 (d), R111). -/
theorem length_inputTreeBits (htree : inputTree s = some root) (hb : IsBuilt (freqOf (inBytes s)) root) :
    0 < (inputTreeBits s).length ∧ (inputTreeBits s).length < 2 ^ 32 := by
  have hlen := serialBits_length_succ root
  have hle := hb.leaves
  have hdepth := depth_lt_leafCount root
  rw [inputTreeBits_eq htree]
  omega

/-- A code word has 1 to 255 bits, so the payload has 1 to 255 times as many bits as the input has bytes
(R116 (b), R138). -/
theorem length_inputPayload (htree : inputTree s = some root) (hb : IsBuilt (freqOf (inBytes s)) root) :
    s.inLen ≤ (inputPayload s).length ∧ (inputPayload s).length ≤ s.inLen * 255 := by
  have hword : ∀ n ∈ (inBytes s).map fun b => ((s.inputCode root).get b).bits.length, 1 ≤ n ∧ n ≤ 255 := by
    intro n hn
    obtain ⟨b, hmem, rfl⟩ := List.mem_map.1 hn
    obtain ⟨p, hp, e⟩ := hb.path (t := clearCodes s.code) hmem
    rw [State.inputCode, e]
    exact hb.length_path hp
  rw [inputPayload_eq htree hb, payloadBits, List.length_flatMap]
  have hle := List.sum_le_card_nsmul _ 255 fun n hn => (hword n hn).2
  have hge := List.card_nsmul_le_sum _ 1 fun n hn => (hword n hn).1
  simpa [inBytes_length] using And.intro hge hle

end

/-- `E_PATCH` writes the header of a payload that a 32-bit field can state (R137). -/
theorem encodePatch_of_lt {u : State} (h : u.db < 2 ^ 32) :
    encodePatch u = (patch u.tb u.db { u with hdrData := BitVec.ofNat 32 u.db }).bind fun _ s => .ok () s.complete :=
  if_neg (not_le.2 h)

/-- `E_PATCH` refuses a longer payload before it writes anything (R138). -/
theorem encodePatch_of_le {u : State} (h : 2 ^ 32 ≤ u.db) :
    encodePatch u = .halted (u.faultEntry .lengthOverflow) :=
  if_pos h

/-- An input that is not empty takes `ENCODE` to `E_PATCH` with its tree and its payload written (R131). -/
theorem encodeBody_at_patch {s : State} (hf : noFail s) (hlen : 0 < s.inLen) :
    ∃ root u, inputTree s = some root ∧ IsBuilt (freqOf (inBytes s)) root ∧
      encodeBody (s.begin 0#1) = encodePatch u ∧ noFail u ∧ u.db = (inputPayload s).length ∧
      appended (inputTreeBits s ++ inputPayload s) (s.laidOut root) u := by
  obtain ⟨root, htree, hb⟩ := inputTree_isBuilt hlen
  obtain ⟨u, hrun, hfu, happ⟩ := encodeBody_eq_encodePatch hf htree hb
  refine ⟨root, u, htree, hb, hrun, hfu, ?_, ?_⟩
  · rw [happ.1, inputPayload_eq htree hb]
    rfl
  · rwa [inputTreeBits_eq htree, inputPayload_eq htree hb]

/-- What `ENCODE` leaves when it completes (R139): the latches, the container in `OUT`, and every other
register as `START(0)` left it. -/
structure Encoded (s t : State) : Prop where
  keeps : t = { s.begin 0#1 with
    status := .done, phase := .halt, hdrTree := t.hdrTree, hdrData := t.hdrData, outLen := t.outLen
    inPos := t.inPos, outPos := t.outPos, wrBitcnt := t.wrBitcnt, freq := t.freq, tree := t.tree
    forest := t.forest, nextOrd := t.nextOrd, code := t.code, out := t.out, t0 := t.t0, d0 := t.d0
    tb := t.tb, db := t.db, envFail := t.envFail }
  tree : t.tree = inputTree s
  hdrTree : t.hdrTree = BitVec.ofNat 32 (inputTreeBits s).length
  hdrData : t.hdrData = BitVec.ofNat 32 (inputPayload s).length
  outLen : t.outLen = 8 + ((inputTreeBits s).length + (inputPayload s).length + 7) / 8
  container : ∀ a, a < t.outLen → t.out.read a =
    packedByte (containerBits (inputTreeBits s).length (inputPayload s).length (inputTreeBits s ++ inputPayload s)) a
  beyond : ∀ a, t.outLen ≤ a → t.out.read a = s.out.read a

/-- `ENCODE` of an empty input writes the empty container (R133). -/
theorem encodeBody_empty {s : State} (hf : noFail s) (hlen : s.inLen = 0) :
    ∃ t, encodeBody (s.begin 0#1) = .ok () t ∧ Encoded s t := by
  have htree := inputTree_of_empty hlen
  have hbuild := build_eq s.counted
  rw [counted_build_tree, htree] at hbuild
  obtain ⟨t, hrun, ht, hout⟩ := writeHeader_runs 0 0
    (s := { s.counted with forest := s.counted.build.forest, nextOrd := s.counted.build.nextOrd, tree := none })
    (hf.of_drop (n := s.inLen + 1) rfl) rfl
  have hS := inputTreeBits_of_empty hlen
  have hP := inputPayload_of_empty hlen
  have htlen : t.outLen = 8 := by rw [ht]; rfl
  have hout' : ∀ a, t.out.read a = if a < 8 then packedByte (headerBits 0 0) a else s.out.read a := by
    intro a
    rw [hout a]
    simp [State.counted]
  refine ⟨t.complete, ?_, ?_⟩
  · rw [encodeBody, countIn_begin hf, Res.bind_ok, hbuild]
    exact (encodeEmpty_eq _).trans (by rw [hrun, Res.bind_ok])
  · rw [← htree] at ht
    refine ⟨?_, ?_, ?_, ?_, ?_, fun a ha => ?_, fun a ha => ?_⟩
    · rw [ht]; rfl
    · rw [ht]; rfl
    · rw [ht, hS]; rfl
    · rw [ht, hP]; rfl
    · rw [hS, hP]; exact htlen
    · have h8 : a < 8 := htlen ▸ ha
      rw [hS, hP]
      exact (hout' a).trans ((if_pos h8).trans (packedByte_container_header 0 0 [] h8).symm)
    · exact (hout' a).trans (if_neg (by rw [State.complete_outLen, htlen] at ha; omega))

/-- `ENCODE` of an input whose payload a 32-bit field can state writes its container (R139). -/
theorem encodeBody_encoded {s : State} (hf : noFail s) (hdata : (inputPayload s).length < 2 ^ 32) :
    ∃ t, encodeBody (s.begin 0#1) = .ok () t ∧ Encoded s t := by
  rcases Nat.eq_zero_or_pos s.inLen with hlen | hlen
  · exact encodeBody_empty hf hlen
  obtain ⟨root, u, htree, hb, hrun, hfu, hdb, happ⟩ := encodeBody_at_patch hf hlen
  have htb : u.tb = (inputTreeBits s).length := by rw [happ.1, inputTreeBits_eq htree]; rfl
  have hS : (serialBits root).length = (inputTreeBits s).length := by rw [inputTreeBits_eq htree]
  have happ' := congrArg (fun v : State => { v with hdrData := BitVec.ofNat 32 u.db }) happ.1
  obtain ⟨t, hpatch, ht, hin, hout⟩ := patch_container u.tb u.db
    (s := { s.laidOut root with hdrData := BitVec.ofNat 32 u.db }) (u := { u with hdrData := BitVec.ofNat 32 u.db })
    hfu rfl rfl rfl ⟨happ', happ.2⟩
  rw [hdb, happ.1] at ht
  rw [htb, hdb] at hin
  refine ⟨t.complete, ?_, ?_⟩
  · rw [hrun, encodePatch_of_lt (hdb ▸ hdata), hpatch, Res.bind_ok]
  · refine ⟨?_, ?_, ?_, ?_, ?_, hin, hout⟩
    · rw [ht]; rfl
    · rw [ht]; exact htree.symm
    · rw [ht, ← hS]; rfl
    · rw [ht]; rfl
    · rw [ht]; simp

theorem Encoded.outLen_eq {s t : State} (h : Encoded s t) :
    t.outLen = 8 + ((inputTreeBits s ++ inputPayload s).length + 7) / 8 := by
  rw [h.outLen, List.length_append]

/-- The bytes `ENCODE` made valid are the container (R139). -/
theorem Encoded.bytesBits_outBytes {s t : State} (h : Encoded s t) :
    bytesBits (outBytes t) =
      containerBits (inputTreeBits s).length (inputPayload s).length (inputTreeBits s ++ inputPayload s) := by
  have hread : outBytes t = (List.range t.outLen).map (packedByte _) :=
    List.map_congr_left fun a ha => h.container a (List.mem_range.1 ha)
  rw [hread]
  exact bytesBits_packed _ ((length_containerBits _ _ _).trans (by rw [h.outLen_eq]))

theorem Encoded.endedOk {s t : State} (h : Encoded s t) : endedOk t := by
  rw [h.keeps]
  exact ⟨rfl, rfl, rfl⟩

/-- `ENCODE` completes with the container of its input (R139). -/
theorem exec_encode_encoded {s : State} (hs : s.status ≠ .busy) (hf : noFail s)
    (hdata : (inputPayload s).length < 2 ^ 32) : ∃ t, exec .encode s = .next t ∧ Encoded s t := by
  obtain ⟨t, hrun, ht⟩ := encodeBody_encoded hf hdata
  exact ⟨t, by rw [exec_encode hs, hrun, Res.toStep_ok], ht⟩

/-- A longer payload ends `ENCODE` in `LengthOverflow`, with no header byte written (R138). -/
theorem encodeBody_overflow {s : State} (hf : noFail s) (hdata : 2 ^ 32 ≤ (inputPayload s).length) :
    ∃ u : State, encodeBody (s.begin 0#1) = .halted (u.faultEntry .lengthOverflow) ∧ u.hdrData = 0 ∧
      ∀ a, a < 8 → u.out.read a = s.out.read a := by
  have hlen : 0 < s.inLen := Nat.pos_of_ne_zero fun h0 => by
    rw [inputPayload_of_empty h0] at hdata
    exact absurd hdata (by decide)
  obtain ⟨root, u, -, -, hrun, -, hdb, happ⟩ := encodeBody_at_patch hf hlen
  refine ⟨u, by rw [hrun, encodePatch_of_le (hdb ▸ hdata)], by rw [happ.1]; rfl, fun a ha => ?_⟩
  rw [happ.2 a, if_neg fun h => absurd h.1 (not_le.2 ha)]
  rfl

theorem inputTree_quiet (s : State) : inputTree s.quiet = inputTree s := build_tree_congr rfl

theorem inputTreeBits_quiet (s : State) : inputTreeBits s.quiet = inputTreeBits s := by
  rw [inputTreeBits, inputTreeBits, inputTree_quiet]

theorem inputPayload_quiet (s : State) : inputPayload s.quiet = inputPayload s := by
  rw [inputPayload, inputPayload, inputTree_quiet]
  rfl

theorem Encoded.of_quiet {s t : State} (h : Encoded s.quiet t.quiet) : Encoded s t := by
  have hkeeps := congrArg (fun v : State => { v with envFail := t.envFail }) h.keeps
  obtain ⟨-, htree, hhdrTree, hhdrData, hlen, hin, hout⟩ := h
  rw [inputTree_quiet] at htree
  rw [inputTreeBits_quiet] at hhdrTree
  rw [inputPayload_quiet] at hhdrData
  rw [inputTreeBits_quiet, inputPayload_quiet] at hlen hin
  exact ⟨hkeeps, htree, hhdrTree, hhdrData, hlen, hin, hout⟩

/-- Whatever accesses fail, `ENCODE` that ended in `DONE` left the container of its input (R139). -/
theorem encoded_of_done {s t : State} (hs : s.status ≠ .busy) (h : exec .encode s = .next t) (ht : t.status = .done) :
    Encoded s t ∧ (inputPayload s).length < 2 ^ 32 := by
  rw [exec_encode hs] at h
  have hq : encodeBody (s.quiet.begin 0#1) = .ok () t.quiet := (quietly_encodeBody (s.begin 0#1)).of_done h ht
  rcases lt_or_ge (inputPayload s.quiet).length (2 ^ 32) with hlt | hge
  · obtain ⟨u, hrun, hu⟩ := encodeBody_encoded (noFail_quiet s) hlt
    rw [hq] at hrun
    obtain rfl : t.quiet = u := (Res.ok.inj hrun).2
    exact ⟨hu.of_quiet, inputPayload_quiet s ▸ hlt⟩
  · obtain ⟨u, hrun, -, -⟩ := encodeBody_overflow (noFail_quiet s) hge
    rw [hq] at hrun
    cases hrun

theorem packedByte_emptyHeader : ∀ a, a < 8 → packedByte (headerBits 0 0) a = 0x00 := by decide

/-- Settles O35: `ENCODE` completes with `Encoded`, and what it left in `DONE` is read off that. -/
theorem encodeWritesTheContainer : Obligations.EncodeWritesTheContainer := by
  intro s hs
  refine ⟨fun hf hdata => ?_, fun t h ht => ?_⟩
  · obtain ⟨t, hrun, ht⟩ := exec_encode_encoded hs hf hdata
    exact ⟨t, hrun, ht.endedOk⟩
  obtain ⟨he, hdata⟩ := encoded_of_done hs h ht
  obtain ⟨-, herr, hphase⟩ := he.endedOk
  have hkeeps := he.keeps
  refine ⟨fun hlen => ?empty, fun hlen => ?container, he.beyond, herr, hphase, ?_⟩
  case empty =>
    have hS := inputTreeBits_of_empty hlen
    have hP := inputPayload_of_empty hlen
    have hout := he.outLen
    have hin := he.container
    rw [hS, hP] at hout hin
    refine ⟨hout, fun a ha => ?_, ?_, ?_, he.tree.trans (inputTree_of_empty hlen)⟩
    · exact (hin a (hout ▸ ha)).trans
        ((packedByte_container_header 0 0 [] ha).trans (packedByte_emptyHeader a ha))
    · rw [he.hdrTree, hS]; rfl
    · rw [he.hdrData, hP]; rfl
  case container =>
    obtain ⟨root, htree, hb⟩ := inputTree_isBuilt hlen
    refine ⟨he.tree, by simp [he.tree, htree], he.hdrTree, (length_inputTreeBits htree hb).2, he.hdrData, hdata,
      he.outLen, ?_⟩
    rw [he.bytesBits_outBytes]
    simp [containerBits, headerBits]
  · rw [hkeeps]
    exact ⟨rfl, rfl, rfl, rfl, rfl, rfl, rfl, rfl, rfl, rfl, rfl, rfl, rfl, rfl⟩

/-- With no operation latched and a silent host a running command's sequencer moves. -/
theorem step_eq_sequence {s : State} (hs : s.status = .busy) (hir : s.ir = none) (hq : s.hostQ = []) :
    step s = sequence s := by
  simp only [step, hq, advance, hir, hs, if_true]

/-- The first move of `E_PATCH` (R148). -/
theorem sequence_patch {s : State} (hphase : s.phase = .ePatch) (huseq : s.useq = 0) :
    sequence s = .next (issuePatch s) := by
  simp only [sequence, hphase, huseq]

theorem issuePatch_of_le {s : State} (h : 2 ^ 32 ≤ s.db) : issuePatch s = s.faultEntry .lengthOverflow := if_pos h

/-- Settles O36: by the length of the payload, which is 1 to 255 bits for each byte of the input. -/
theorem lengthOverflowEndsEncode : Obligations.LengthOverflowEndsEncode := by
  refine ⟨fun s hs hphase huseq hir hq hdb => ?step, fun s hs hf hlen => ?overflow, fun s hs hf hlen => ?done⟩
  case step =>
    rw [step_eq_sequence hs hir hq, sequence_patch hphase huseq, issuePatch_of_le hdb]
    rfl
  case overflow =>
    obtain ⟨root, htree, hb⟩ := inputTree_isBuilt (s := s) (by omega)
    obtain ⟨u, hrun, hdata, hout⟩ := encodeBody_overflow hf (hlen.trans (length_inputPayload htree hb).1)
    exact ⟨u.faultEntry .lengthOverflow, by rw [exec_encode hs, hrun, Res.toStep_halted], ⟨rfl, rfl, rfl⟩,
      hdata, hout⟩
  case done =>
    have hdata : (inputPayload s).length < 2 ^ 32 := by
      rcases Nat.eq_zero_or_pos s.inLen with h0 | hpos
      · rw [inputPayload_of_empty h0]
        decide
      · obtain ⟨root, htree, hb⟩ := inputTree_isBuilt hpos
        have := (length_inputPayload htree hb).2
        omega
    obtain ⟨t, hrun, ht⟩ := exec_encode_encoded hs hf hdata
    exact ⟨t, hrun, ht.endedOk⟩

end Sys2Proof.Machine

/-! ### The bit reader: the bits an operation took (R81, R82, R18) -/

namespace Sys2Proof.Machine

/-- The reader can be relied on: it is well formed and no access fails (R18, R53). -/
def ready (s : State) : Prop := noFail s ∧ readerOk s

/-- From `s` to `t` the reader took the bits `bs`, a byte of `IN` at a time (R81, R90). -/
def reads (bs : List Bool) (s t : State) : Prop :=
  readerBits s = bs ++ readerBits t ∧ ready t ∧ t.rdBitcnt = s.rdBitcnt + bs.length ∧
    t.rdBitcnt + t.rdNbits + 8 * s.inPos = s.rdBitcnt + s.rdNbits + 8 * t.inPos

/-- The state without what `DESERIALIZE` and `RDSYM` write beside the reader's registers. -/
def State.held (s : State) : State :=
  { s with
    rdByte := 0, rdNbits := 0, rdBitcnt := 0, inPos := 0, envFail := []
    cur := .leaf 0 false, stack := [], nodeCnt := 0, tree := none }

section
variable {bs cs rest : List Bool} {b : Bool} {s t u : State}

theorem reads.refl (h : ready s) : reads [] s s := ⟨rfl, h, rfl, rfl⟩

theorem reads.trans (h : reads bs s t) (h' : reads cs t u) : reads (bs ++ cs) s u := by
  obtain ⟨hbits, -, hcnt, hal⟩ := h
  obtain ⟨hbits', hr, hcnt', hal'⟩ := h'
  refine ⟨by rw [hbits, hbits', List.append_assoc], hr, ?_, ?_⟩
  · rw [List.length_append]
    omega
  · omega

theorem reads.bits (h : reads bs s t) : readerBits s = bs ++ readerBits t := h.1

theorem reads.ready (h : reads bs s t) : ready t := by
  obtain ⟨-, hr, -, -⟩ := h
  exact hr

theorem reads.rdBitcnt (h : reads bs s t) : t.rdBitcnt = s.rdBitcnt + bs.length := by
  obtain ⟨-, -, hcnt, -⟩ := h
  exact hcnt

theorem reads.remaining (h : reads bs s t) (hbits : readerBits s = bs ++ rest) : readerBits t = rest :=
  List.append_cancel_left (h.bits.symm.trans hbits)

theorem readOnly.held (h : readOnly s t) : t.held = s.held := by
  rw [h]
  rfl

theorem readOnly.tree (h : readOnly s t) : t.tree = s.tree := by rw [h]

theorem readOnly.stack (h : readOnly s t) : t.stack = s.stack := by rw [h]

theorem readOnly.nodeCnt (h : readOnly s t) : t.nodeCnt = s.nodeCnt := by rw [h]

theorem rbit_runs (hr : ready s) (hbits : readerBits s = b :: bs) :
    ∃ t, rbit s = .ok b t ∧ reads [b] s t ∧ readOnly s t := by
  obtain ⟨t, hrun, hbs, hok, hf, ho, hcnt, hal⟩ := rbit_reads hr.1 hr.2 hbits
  exact ⟨t, hrun, ⟨by rw [hbits, hbs]; rfl, ⟨hf, hok⟩, hcnt, hal⟩, ho⟩

/-- `RBIT` that completes took the bit it returns (R81). -/
theorem reads_of_rbit (hr : ready s) (hrun : rbit s = .ok b t) : reads [b] s t ∧ readOnly s t := by
  cases hbits : readerBits s with
  | nil => cases hrun.symm.trans (rbit_at_end hr.1 hr.2 hbits)
  | cons c cs =>
    obtain ⟨u, hrun', hread, ho⟩ := rbit_runs hr hbits
    obtain ⟨rfl, rfl⟩ := Res.ok.inj (hrun.symm.trans hrun')
    exact ⟨hread, ho⟩

theorem rbits_runs {n : Nat} (hn : countOk n) (hr : ready s) (hbits : readerBits s = bs ++ rest)
    (hlen : bs.length = n) : ∃ t, rbits n s = .ok (bitsVal bs) t ∧ reads bs s t ∧ readOnly s t := by
  obtain ⟨t, hrun, hrest, hok, hf, ho, hcnt, hal⟩ := rbitsFrom_reads n 0 hr.1 hr.2 (by simp [hbits, hlen])
  rw [hbits, List.take_left' hlen] at hrun
  rw [hbits, List.drop_left' hlen] at hrest
  exact ⟨t, (rbits_eq hn s).trans hrun, ⟨by rw [hbits, hrest], ⟨hf, hok⟩, by rw [hcnt, hlen], hal⟩, ho⟩

theorem reads_of_rbitsFrom {n v w : Nat} (hr : ready s) (hrun : rbitsFrom n v s = .ok w t) :
    ∃ bs : List Bool, bs.length = n ∧ w = bs.foldl (fun v b => 2 * v + b.toNat) v ∧ reads bs s t ∧
      readOnly s t := by
  induction n generalizing v s with
  | zero =>
    obtain ⟨rfl, rfl⟩ := Res.ok.inj hrun
    exact ⟨[], rfl, rfl, .refl hr, rfl⟩
  | succ n ih =>
    obtain ⟨b, u, hbit, hrun⟩ := Res.bind_eq_ok.1 hrun
    obtain ⟨hread, ho⟩ := reads_of_rbit hr hbit
    obtain ⟨bs, hlen, hw, hread', ho'⟩ := ih hread.ready hrun
    exact ⟨b :: bs, by rw [List.length_cons, hlen], hw, hread.trans hread', ho.trans ho'⟩

/-- `RBITS` that completes took the bits of the number it returns (R82). -/
theorem reads_of_rbits {n w : Nat} (hn : countOk n) (hr : ready s) (hrun : rbits n s = .ok w t) :
    ∃ bs : List Bool, bs.length = n ∧ w = bitsVal bs ∧ reads bs s t ∧ readOnly s t :=
  reads_of_rbitsFrom hr ((rbits_eq hn s).symm.trans hrun)

end

/-! ### The open nodes of a tree that is being read (R112, R119) -/

/-- The bits that were read of the open nodes, the outermost first. -/
def openBits : List Frame → List Bool
  | [] => []
  | .needLeft :: st => openBits st ++ [true]
  | .needRight l :: st => openBits st ++ true :: serialBits l

/-- How many nodes these bits began. -/
def openCount : List Frame → Nat
  | [] => 0
  | .needLeft :: st => openCount st + 1
  | .needRight l :: st => openCount st + nodeCount l + 1

/-- A complete node completes the root, with all bits read so far its serialization, or leaves an open
node that waits for its right child (R112). -/
theorem closeFrames_cases (st : List Frame) (n : Node) :
    (∃ root, closeFrames st n = ([], some root) ∧ serialBits root = openBits st ++ serialBits n ∧
      nodeCount root = openCount st + nodeCount n) ∨
    (∃ l st', closeFrames st n = (.needRight l :: st', none) ∧
      openBits (.needRight l :: st') = openBits st ++ serialBits n ∧
      openCount (.needRight l :: st') = openCount st + nodeCount n) := by
  induction st generalizing n with
  | nil => exact .inl ⟨n, rfl, rfl, (Nat.zero_add _).symm⟩
  | cons f st ih =>
    cases f with
    | needLeft =>
      refine .inr ⟨n, st, rfl, by simp [openBits], ?_⟩
      simp only [openCount]
      omega
    | needRight l =>
      have hbits : openBits st ++ serialBits (.internal l n) = openBits (.needRight l :: st) ++ serialBits n := by
        simp [openBits, serialBits]
      have hcount : openCount st + nodeCount (.internal l n) = openCount (.needRight l :: st) + nodeCount n := by
        simp only [openCount, nodeCount]
        omega
      rw [← hbits, ← hcount]
      exact ih (.internal l n)

end Sys2Proof.Machine

/-! ### `DESERIALIZE` (R112, R113) -/

namespace Sys2Proof.Machine

section
variable {bs rest : List Bool} {b : Bool} {s t u : State} {k : Nat}

theorem nodeCap_of_held (h : t.held = s.held) : t.nodeCap = s.nodeCap := by
  have hcap := congrArg State.nodeCap h
  exact hcap

/-- No record has begun when no node is open (R112). -/
abbrev countsFromZero (s : State) : Prop := s.stack = [] → s.nodeCnt = 0

/-- From `s` to `t` a node record began with the flag bit `b` (R112). -/
def recordBegun (b : Bool) (s t : State) : Prop :=
  reads [b] s t ∧ t.held = s.held ∧ t.stack = s.stack ∧ t.nodeCnt = s.nodeCnt + 1

/-- The record of the root is number 1 and every other one more than the one before (R112, R113). -/
theorem countNode_eq (h : countsFromZero s) : s.countNode = { s with nodeCnt := s.nodeCnt + 1 } := by
  by_cases hs : s.stack = []
  · simp [State.countNode, hs, h hs]
  · simp [State.countNode, hs]

/-- The start of a node record, once its flag bit is read (R112, R113). -/
theorem nodeFlag_of_rbit (h : countsFromZero s) (hrun : rbit s = .ok b u) (ho : readOnly s u) :
    nodeFlag s =
      if s.nodeCap < s.nodeCnt + 1 then raise .capacityExceeded { u with nodeCnt := s.nodeCnt + 1 }
      else .ok b { u with nodeCnt := s.nodeCnt + 1 } := by
  have hu : countsFromZero u := fun hst => ho.nodeCnt.trans (h (ho.stack.symm.trans hst))
  rw [nodeFlag, hrun, Res.bind_ok, countNode_eq hu, ← ho.nodeCnt, ← nodeCap_of_held ho.held]

theorem recordBegun_of_rbit (hread : reads [b] s u) (ho : readOnly s u) :
    recordBegun b s { u with nodeCnt := s.nodeCnt + 1 } :=
  ⟨hread, ho.held, ho.stack, rfl⟩

theorem nodeFlag_runs (hr : ready s) (hzero : countsFromZero s) (hcap : s.nodeCnt < s.nodeCap)
    (hbits : readerBits s = b :: rest) : ∃ t, nodeFlag s = .ok b t ∧ recordBegun b s t := by
  obtain ⟨u, hrun, hread, ho⟩ := rbit_runs hr hbits
  exact ⟨_, (nodeFlag_of_rbit hzero hrun ho).trans (if_neg (not_lt.2 hcap)), recordBegun_of_rbit hread ho⟩

/-- A node record that began stayed within the limit (R113). -/
theorem recordBegun_of_nodeFlag (hr : ready s) (hzero : countsFromZero s) (hrun : nodeFlag s = .ok b t) :
    s.nodeCnt < s.nodeCap ∧ recordBegun b s t := by
  obtain ⟨c, u, hbit, -⟩ := Res.bind_eq_ok.1 hrun
  obtain ⟨hread, ho⟩ := reads_of_rbit hr hbit
  rw [nodeFlag_of_rbit hzero hbit ho] at hrun
  split at hrun
  · cases hrun
  · next hcap =>
    obtain ⟨rfl, rfl⟩ := Res.ok.inj hrun
    exact ⟨not_lt.1 hcap, recordBegun_of_rbit hread ho⟩

/-- `NODE_CNT` is the number of records that the open nodes began (R112). -/
def countsOpen (s : State) : Prop := s.nodeCnt = openCount s.stack

theorem countsOpen.fromZero (h : countsOpen s) : countsFromZero s := fun hs => by rw [h, hs]; rfl

theorem byteBits_of_bitsVal (h : bs.length = 8) : byteBits (BitVec.ofNat 8 (bitsVal bs)) = bs := by
  have hpad : bs ++ List.replicate (8 - bs.length) false = bs := by simp [h]
  have := byteBits_byteOfBits h
  rwa [byteOfBits, hpad] at this

/-- A complete node is the root, or leaves a node open that waits for its right child (R112). -/
theorem closeNode_cases (s : State) (n : Node) :
    (∃ root, (s.closeNode n).stack = [] ∧ (s.closeNode n).tree = some root ∧
      serialBits root = openBits s.stack ++ serialBits n ∧ nodeCount root = openCount s.stack + nodeCount n) ∨
    ((s.closeNode n).stack ≠ [] ∧ openBits (s.closeNode n).stack = openBits s.stack ++ serialBits n ∧
      openCount (s.closeNode n).stack = openCount s.stack + nodeCount n) := by
  rcases closeFrames_cases s.stack n with ⟨root, h, hbits, hcount⟩ | ⟨l, st, h, hbits, hcount⟩
  · exact .inl ⟨root, by rw [State.closeNode, h], by rw [State.closeNode, h], hbits, hcount⟩
  · refine .inr ⟨?_, ?_, ?_⟩
    · rw [State.closeNode, h]
      exact List.cons_ne_nil _ _
    · rw [State.closeNode, h, hbits]
    · rw [State.closeNode, h, hcount]

/-- `DESERIALIZE` that completes took the serialization of the tree it leaves in `TREE`, and the tree is
within NODE_CAP (R112, R113). -/
theorem serialBits_of_nodeRecords (hr : ready s) (hcnt : countsOpen s) (hk : k + s.nodeCnt = s.nodeCap + 1)
    (hle : s.nodeCnt ≤ s.nodeCap) (hrun : nodeRecords k s = .ok () t) :
    ∃ root bs, t.tree = some root ∧ serialBits root = openBits s.stack ++ bs ∧ nodeCount root ≤ s.nodeCap ∧
      reads bs s t ∧ t.held = s.held := by
  induction k generalizing s with
  | zero => omega
  | succ k ih =>
    obtain ⟨b, u, hflag, hrun⟩ := Res.bind_eq_ok.1 hrun
    obtain ⟨hcap, hread, hheld, hstack, hucnt⟩ := recordBegun_of_nodeFlag hr hcnt.fromZero hflag
    have hucap := nodeCap_of_held hheld
    cases b with
    | true =>
      obtain ⟨root, bs, htree, hbits, hroot, hread', hheld'⟩ := ih (s := u.openNode) hread.ready
        (hucnt.trans (by rw [hcnt, State.openNode_stack, hstack]; rfl))
        (by rw [State.openNode_nodeCnt, State.openNode_nodeCap, hucnt, hucap]; omega)
        (by rw [State.openNode_nodeCnt, State.openNode_nodeCap, hucnt, hucap]; omega) hrun
      refine ⟨root, true :: bs, htree, ?_, hucap ▸ hroot, hread.trans hread', hheld'.trans hheld⟩
      rw [hbits, State.openNode_stack, hstack]
      simp [openBits]
    | false =>
      obtain ⟨v, w, hsym, hrun⟩ := Res.bind_eq_ok.1 hrun
      obtain ⟨bs, hlen, rfl, hread', ho⟩ := reads_of_rbits (by decide) hread.ready hsym
      have hleaf : serialBits (.leaf (BitVec.ofNat 8 (bitsVal bs)) false) = false :: bs := by
        rw [serialBits, byteBits_of_bitsVal hlen]
      have hcount : nodeCount (.leaf (BitVec.ofNat 8 (bitsVal bs)) false) = 1 := rfl
      generalize Node.leaf (BitVec.ofNat 8 (bitsVal bs)) false = n at hleaf hcount hrun
      have hwheld : (w.closeNode n).held = s.held := ho.held.trans hheld
      have hwcap := nodeCap_of_held hwheld
      have hwcnt : (w.closeNode n).nodeCnt = s.nodeCnt + 1 := ho.nodeCnt.trans hucnt
      have hwread : reads (false :: bs) s (w.closeNode n) := hread.trans hread'
      have hclose := closeNode_cases w n
      rw [ho.stack, hstack, hleaf, hcount, ← hcnt] at hclose
      rcases hclose with ⟨root, hnil, htree, hbits, hroot⟩ | ⟨hne, hbits, hopen⟩
      · obtain rfl : w.closeNode n = t := (Res.ok.inj ((if_pos hnil).symm.trans hrun)).2
        exact ⟨root, _, htree, hbits, by omega, hwread, hwheld⟩
      · obtain ⟨root, cs, htree, hroot, hrcap, hread'', hheld'⟩ := ih (s := w.closeNode n) hwread.ready
          (hwcnt.trans hopen.symm) (by omega) (by omega) ((if_neg hne).symm.trans hrun)
        refine ⟨root, false :: bs ++ cs, htree, ?_, hwcap ▸ hrcap, hwread.trans hread'', hheld'.trans hwheld⟩
        rw [hroot, hbits, List.append_assoc]

/-- The records of a tree are read as one: what is left is a complete node with the sentinel flags off, and
the loop goes on unless it was the root (R112). -/
theorem nodeRecords_runs (n : Node) (hr : ready s) (hzero : countsFromZero s)
    (hcap : s.nodeCnt + nodeCount n ≤ s.nodeCap) (hbits : readerBits s = serialBits n ++ rest) :
    ∃ t, nodeRecords (k + nodeCount n) s = (if t.stack = [] then .ok () t else nodeRecords k t) ∧
      reads (serialBits n) s t ∧ t.held = s.held ∧ t.stack = (closeFrames s.stack (plainTree n)).1 ∧
      (∀ root, (closeFrames s.stack (plainTree n)).2 = some root → t.tree = some root) ∧
      t.nodeCnt = s.nodeCnt + nodeCount n := by
  induction n generalizing k s rest with
  | leaf sym flag =>
    obtain ⟨u, hflag, hread, hheld, hstack, hcnt⟩ := nodeFlag_runs hr hzero hcap hbits
    obtain ⟨w, hsym, hread', ho⟩ := rbits_runs (n := Config.symW) (by decide) hread.ready
      (hread.remaining (rest := byteBits sym ++ rest) hbits) (byteBits_length sym)
    have hwstack := ho.stack.trans hstack
    refine ⟨w.closeNode (.leaf sym false), ?_, hread.trans hread', ho.held.trans hheld, ?_, fun root h => ?_,
      ho.nodeCnt.trans hcnt⟩
    · rw [nodeCount, nodeRecords, hflag, Res.bind_ok, if_neg Bool.false_ne_true, hsym, Res.bind_ok,
        ofNat_bitsVal_byteBits]
    · rw [State.closeNode, hwstack]
      rfl
    · rw [State.closeNode, hwstack]
      simp only [plainTree] at h
      rw [h]
  | internal l r ihl ihr =>
    simp only [nodeCount] at hcap
    obtain ⟨u, hflag, hread, hheld, hstack, hcnt⟩ := nodeFlag_runs hr hzero (by omega) hbits
    have hucap := nodeCap_of_held hheld
    have hubits := hread.remaining (rest := serialBits l ++ (serialBits r ++ rest))
      (hbits.trans (by simp [serialBits]))
    obtain ⟨v, hl, hlread, hlheld, hlstack, -, hlcnt⟩ := ihl (k := k + nodeCount r) (s := u.openNode) hread.ready
      (fun h => absurd h (List.cons_ne_nil _ _))
      (by rw [State.openNode_nodeCnt, State.openNode_nodeCap, hcnt, hucap]; omega) hubits
    have hvstack : v.stack = .needRight (plainTree l) :: s.stack := by
      rw [hlstack, State.openNode_stack, hstack]
      rfl
    have hvcnt : v.nodeCnt = s.nodeCnt + 1 + nodeCount l := hlcnt.trans (by rw [State.openNode_nodeCnt, hcnt])
    have hvheld : v.held = s.held := hlheld.trans hheld
    obtain ⟨w, hr', hrread, hrheld, hrstack, hrtree, hrcnt⟩ := ihr (k := k) (s := v) hlread.ready
      (fun h => absurd (hvstack.symm.trans h) (List.cons_ne_nil _ _))
      (by rw [hvcnt, nodeCap_of_held hvheld]; omega) (hlread.remaining hubits)
    rw [hvstack] at hrstack hrtree
    refine ⟨w, ?_, hread.trans (hlread.trans hrread), hrheld.trans hvheld, hrstack, hrtree, ?_⟩
    · rw [nodeCount, ← Nat.add_assoc, nodeRecords, hflag, Res.bind_ok, if_pos rfl,
        Nat.add_comm (nodeCount l), ← Nat.add_assoc, hl, if_neg (by rw [hvstack]; exact List.cons_ne_nil _ _), hr']
    · rw [hrcnt, hvcnt, nodeCount]
      omega

theorem tree_of_deserialize (hr : ready s) (hrun : deserialize s = .ok () t) :
    ∃ root, t.tree = some root ∧ nodeCount root ≤ s.nodeCap ∧ reads (serialBits root) s t ∧
      t.held = s.held := by
  obtain ⟨root, bs, htree, hbits, hcap, hread, hheld⟩ :=
    serialBits_of_nodeRecords (s := { s with stack := [], nodeCnt := 0 }) hr rfl rfl (Nat.zero_le _) hrun
  obtain rfl : serialBits root = bs := hbits
  exact ⟨root, htree, hcap, hread, hheld⟩

/-- `DESERIALIZE` reads back a serialized tree within NODE_CAP (R112). -/
theorem deserialize_runs {root : Node} (hr : ready s) (hcap : nodeCount root ≤ s.nodeCap)
    (hbits : readerBits s = serialBits root ++ rest) :
    ∃ t, deserialize s = .ok () t ∧ t.tree = some (plainTree root) ∧ reads (serialBits root) s t ∧
      t.held = s.held ∧ t.stack = [] ∧ t.nodeCnt = nodeCount root := by
  obtain ⟨k, hk⟩ := Nat.exists_eq_add_of_le' (Nat.le_succ_of_le hcap)
  obtain ⟨t, hrun, hread, hheld, hstack, htree, hcnt⟩ := nodeRecords_runs (k := k) root
    (s := { s with stack := [], nodeCnt := 0 }) hr (fun _ => rfl) ((Nat.zero_add _).trans_le hcap) hbits
  have hnil : t.stack = [] := hstack
  rw [if_pos hnil, ← hk] at hrun
  exact ⟨t, hrun, htree _ rfl, hread, hheld, hnil, hcnt.trans (Nat.zero_add _)⟩

end

end Sys2Proof.Machine

/-! ### `RDSYM` and the symbol loop of `D_PAYLOAD` (R117, R143) -/

namespace Sys2Proof.Machine

section
variable {bs rest : List Bool} {s t : State} {root : Node} {limit k : Nat} {v : Byte}

/-- A walk that completes took a path to a leaf with the symbol it returns, and stayed within the payload
(R117). -/
theorem path_of_walkSymbol {n : Node} (hr : ready s) (hle : s.rdBitcnt ≤ limit)
    (hrun : walkSymbol n limit s = .ok v t) :
    ∃ p flag, nodeAt p n = some (.leaf v flag) ∧ reads p s t ∧ t.rdBitcnt ≤ limit ∧ t.held = s.held ∧
      t.tree = s.tree := by
  induction n generalizing s with
  | leaf sym flag =>
    obtain ⟨rfl, rfl⟩ := Res.ok.inj hrun
    exact ⟨[], flag, rfl, .refl hr, hle, rfl, rfl⟩
  | internal l r ihl ihr =>
    rw [walkSymbol] at hrun
    split at hrun
    · cases hrun
    next hne =>
    obtain ⟨b, u, hbit, hrun⟩ := Res.bind_eq_ok.1 hrun
    obtain ⟨hread, ho⟩ := reads_of_rbit hr hbit
    have hule : u.rdBitcnt ≤ limit := by
      rw [hread.rdBitcnt]
      exact Nat.succ_le_of_lt (lt_of_le_of_ne hle hne)
    cases b with
    | true =>
      obtain ⟨p, flag, hp, hread', hle', hheld, htree⟩ := ihr (s := { u with cur := r }) hread.ready hule hrun
      exact ⟨true :: p, flag, hp, hread.trans hread', hle', hheld.trans ho.held, htree.trans ho.tree⟩
    | false =>
      obtain ⟨p, flag, hp, hread', hle', hheld, htree⟩ := ihl (s := { u with cur := l }) hread.ready hule hrun
      exact ⟨false :: p, flag, hp, hread.trans hread', hle', hheld.trans ho.held, htree.trans ho.tree⟩

/-- `RDSYM` that completes took the path to a leaf of `TREE`, at least one bit (R117, R118). -/
theorem path_of_rdsym (hr : ready s) (htree : s.tree = some root) (hrun : rdsym limit s = .ok v t) :
    ∃ p flag, nodeAt p root = some (.leaf v flag) ∧ 1 ≤ p.length ∧ reads p s t ∧ t.rdBitcnt ≤ limit ∧
      t.held = s.held ∧ t.tree = s.tree := by
  cases root with
  | leaf sym flag => cases hrun.symm.trans (rdsym_of_not_internal (by simp [htree]) limit)
  | internal l r =>
    rw [rdsym_of_internal htree] at hrun
    split at hrun
    next hlt =>
      obtain ⟨p, flag, hp, hread, hle, hheld, htree'⟩ :=
        path_of_walkSymbol (s := { s with cur := .internal l r }) hr hlt.le hrun
      refine ⟨p, flag, hp, List.length_pos_of_ne_nil ?_, hread, hle, hheld, htree'⟩
      rintro rfl
      cases hp
    · cases hrun

/-- The walk along a path to a leaf (R117). -/
theorem walkSymbol_runs {n : Node} {p : List Bool} {flag : Bool} (hr : ready s)
    (hp : nodeAt p n = some (.leaf v flag)) (hbits : readerBits s = p ++ rest)
    (hle : s.rdBitcnt + p.length ≤ limit) :
    ∃ t, walkSymbol n limit s = .ok v t ∧ reads p s t ∧ t.held = s.held ∧ t.tree = s.tree := by
  induction n generalizing s p with
  | leaf sym flag' =>
    obtain ⟨rfl, e⟩ := nodeAt_leaf.1 hp
    cases e
    exact ⟨s, rfl, .refl hr, rfl, rfl⟩
  | internal l r ihl ihr =>
    match p with
    | [] => cases hp
    | b :: p =>
      obtain ⟨u, hbit, hread, ho⟩ := rbit_runs hr hbits
      have hubits := hread.remaining (rest := p ++ rest) hbits
      have hule : u.rdBitcnt + p.length ≤ limit := by
        rw [hread.rdBitcnt]
        simp only [List.length_cons, List.length_nil] at hle ⊢
        omega
      have hne : s.rdBitcnt ≠ limit := by
        rw [List.length_cons] at hle
        omega
      rw [walkSymbol, if_neg hne, hbit, Res.bind_ok]
      cases b with
      | true =>
        obtain ⟨t, hrun, hread', hheld, htree⟩ := ihr (s := { u with cur := r }) hread.ready hp hubits hule
        exact ⟨t, hrun, hread.trans hread', hheld.trans ho.held, htree.trans ho.tree⟩
      | false =>
        obtain ⟨t, hrun, hread', hheld, htree⟩ := ihl (s := { u with cur := l }) hread.ready hp hubits hule
        exact ⟨t, hrun, hread.trans hread', hheld.trans ho.held, htree.trans ho.tree⟩

theorem rdsym_runs {l r : Node} {p : List Bool} {flag : Bool} (hr : ready s) (htree : s.tree = some (.internal l r))
    (hp : nodeAt p (.internal l r) = some (.leaf v flag)) (hbits : readerBits s = p ++ rest)
    (hle : s.rdBitcnt + p.length ≤ limit) :
    ∃ t, rdsym limit s = .ok v t ∧ reads p s t ∧ t.held = s.held ∧ t.tree = s.tree := by
  have hpos : 0 < p.length := List.length_pos_of_ne_nil (by rintro rfl; cases hp)
  rw [rdsym_of_internal htree, if_pos (by omega)]
  exact walkSymbol_runs (s := { s with cur := .internal l r }) hr hp hbits hle

end

/-! The output of `D_PAYLOAD` (R83, R143). -/

/-- The state without what `D_PAYLOAD` writes, but for `TREE`. -/
def State.settled (s : State) : State := { s.held with out := [], outLen := 0, outPos := 0 }

/-- The write cursor stands at the end of the output. -/
def atOutEnd (s : State) : Prop := s.outPos = s.outLen

/-- From `s` to `t` the bytes `vs` joined the output at its end. -/
def outputs (vs : List Byte) (s t : State) : Prop :=
  outBytes t = outBytes s ++ vs ∧ atOutEnd t ∧ ∀ a, t.outLen ≤ a → t.out.read a = s.out.read a

section
variable {vs ws : List Byte} {v : Byte} {s t u : State}

theorem length_outBytes (s : State) : (outBytes s).length = s.outLen := by simp [outBytes]

theorem outputs.refl (h : atOutEnd s) : outputs [] s s := ⟨(List.append_nil _).symm, h, fun _ _ => rfl⟩

theorem outputs.atOutEnd (h : outputs vs s t) : atOutEnd t := by
  obtain ⟨-, hend, -⟩ := h
  exact hend

theorem outputs.trans (h : outputs vs s t) (h' : outputs ws t u) : outputs (vs ++ ws) s u := by
  obtain ⟨hbytes, -, hout⟩ := h
  obtain ⟨hbytes', hend, hout'⟩ := h'
  have hle : t.outLen ≤ u.outLen := by
    rw [← length_outBytes, ← length_outBytes, hbytes', List.length_append]
    omega
  exact ⟨by rw [hbytes', hbytes, List.append_assoc], hend, fun a ha => (hout' a ha).trans (hout a (hle.trans ha))⟩

/-- What does not touch `OUT` leaves the output as it was. -/
theorem outputs_of_held (h : t.held = s.held) (hend : atOutEnd s) : outputs [] s t := by
  have hout : t.out = s.out := by
    have e := congrArg State.out h
    exact e
  have hlen : t.outLen = s.outLen := by
    have e := congrArg State.outLen h
    exact e
  have hpos : t.outPos = s.outPos := by
    have e := congrArg State.outPos h
    exact e
  refine ⟨?_, ?_, fun a _ => by rw [hout]⟩
  · rw [outBytes, outBytes, hout, hlen, List.append_nil]
  · rw [atOutEnd, hpos, hlen]
    exact hend

theorem outputs_storeOut (v : Byte) (h : atOutEnd s) : outputs [v] s (s.storeOut v) := by
  have hlen : (s.storeOut v).outLen = s.outLen + 1 := by
    rw [State.storeOut_outLen, h]
    omega
  refine ⟨?_, ?_, fun a ha => ?_⟩
  · rw [outBytes, hlen, List.range_succ, List.map_append, List.map_singleton, State.storeOut_out, h,
      Mem.read_write_same]
    congr 1
    exact List.map_congr_left fun a ha => Mem.read_write_other _ _ (List.mem_range.1 ha).ne
  · rw [atOutEnd, hlen, State.storeOut_outPos, h]
  · rw [hlen] at ha
    rw [State.storeOut_out, h, Mem.read_write_other _ _ (by omega)]

/-- From `s` to `t` the bits of the code words were taken and their symbols put out (R143, R144). -/
def decodes (words : List (List Bool × Byte)) (s t : State) : Prop :=
  reads (wordBits words) s t ∧ outputs (words.map Prod.snd) s t ∧ t.settled = s.settled ∧ t.tree = s.tree

theorem decodes.refl (hr : ready s) (hend : atOutEnd s) : decodes [] s s := ⟨.refl hr, .refl hend, rfl, rfl⟩

theorem decodes.cons {w : List Bool × Byte} {words : List (List Bool × Byte)} (h : decodes [w] s t)
    (h' : decodes words t u) : decodes (w :: words) s u := by
  obtain ⟨hread, hout, hset, htree⟩ := h
  obtain ⟨hread', hout', hset', htree'⟩ := h'
  have hall := hread.trans hread'
  rw [wordBits, wordBits, ← List.flatMap_append] at hall
  exact ⟨hall, hout.trans hout', hset'.trans hset, htree'.trans htree⟩

section
variable {words : List (List Bool × Byte)}

theorem decodes.ready (h : decodes words s t) : ready t := h.1.ready

theorem decodes.atOutEnd (h : decodes words s t) : atOutEnd t := by
  obtain ⟨-, hout, -, -⟩ := h
  exact hout.atOutEnd

theorem decodes.tree (h : decodes words s t) : t.tree = s.tree := by
  obtain ⟨-, -, -, htree⟩ := h
  exact htree

theorem decodes.payEnd (h : decodes words s t) : t.payEnd = s.payEnd := by
  obtain ⟨-, -, hset, -⟩ := h
  have hpay := congrArg State.payEnd hset
  exact hpay

end

/-- `RDSYM` and then `OUTBYTE` (R143). -/
theorem decodes_storeOut {p : List Bool} (hend : atOutEnd s) (hread : reads p s u) (hheld : u.held = s.held)
    (htree : u.tree = s.tree) : decodes [(p, v)] s (u.popEnv.storeOut v) := by
  have hout := outputs_of_held hheld hend
  obtain ⟨hbits, ⟨hf, hok⟩, hcnt, hal⟩ := hread
  have hread' : reads p s (u.popEnv.storeOut v) := ⟨hbits, ⟨hf.popEnv, hok⟩, hcnt, hal⟩
  rw [← List.append_nil p] at hread'
  exact ⟨hread', hout.trans (outputs_storeOut (s := u.popEnv) v hout.atOutEnd),
    congrArg (fun x : State => { x with out := [], outLen := 0, outPos := 0 }) hheld, htree⟩

end

section
variable {rest : List Bool} {s t : State} {root : Node} {words : List (List Bool × Byte)} {k : Nat}

theorem codeWords_cons {w : List Bool × Byte} :
    codeWords root (w :: words) ↔ (∃ flag, nodeAt w.1 root = some (.leaf w.2 flag)) ∧ codeWords root words :=
  List.forall_mem_cons

/-- The symbol loop that completes cut the payload into code words, up to its end (R143, R144). -/
theorem codeWords_of_payloadLoop (hr : ready s) (hend : atOutEnd s) (htree : s.tree = some root)
    (hle : s.rdBitcnt ≤ s.payEnd) (hk : s.payEnd ≤ s.rdBitcnt + k) (hrun : payloadLoop k s = .ok () t) :
    ∃ words, codeWords root words ∧ decodes words s t ∧ t.rdBitcnt = s.payEnd := by
  have hnone : codeWords root [] := fun _ h => absurd h List.not_mem_nil
  induction k generalizing s with
  | zero =>
    obtain rfl := (Res.ok.inj hrun).2
    exact ⟨[], hnone, .refl hr hend, le_antisymm hle hk⟩
  | succ k ih =>
    rw [payloadLoop] at hrun
    split at hrun
    next hlt =>
      obtain ⟨v, u, hsym, hrun⟩ := Res.bind_eq_ok.1 hrun
      obtain ⟨_, w, hput, hrun⟩ := Res.bind_eq_ok.1 hrun
      obtain ⟨p, flag, hp, hpos, hread, hule, hheld, hutree⟩ := path_of_rdsym hr htree hsym
      obtain rfl : u.popEnv.storeOut v = w :=
        (Res.ok.inj ((outbyte_stores v hread.ready.1.envFails).symm.trans hput)).2
      have hone := decodes_storeOut (v := v) hend hread hheld hutree
      have hcnt := hread.rdBitcnt
      have hpay := hone.payEnd
      obtain ⟨words, hwords, hall, hlast⟩ := ih hone.ready hone.atOutEnd (hutree.trans htree)
        (by rw [hpay]; exact hule) (by rw [hpay]; change _ ≤ u.rdBitcnt + k; omega) hrun
      exact ⟨(p, v) :: words, codeWords_cons.2 ⟨⟨flag, hp⟩, hwords⟩, hone.cons hall, hlast.trans hpay⟩
    next hge =>
      obtain rfl := (Res.ok.inj hrun).2
      exact ⟨[], hnone, .refl hr hend, le_antisymm hle (not_lt.1 hge)⟩

/-- A payload of root-to-leaf paths is decoded to its end (R143). -/
theorem payloadLoop_runs {l r : Node} (hr : ready s) (hend : atOutEnd s) (htree : s.tree = some (.internal l r))
    (hwords : codeWords (.internal l r) words) (hbits : readerBits s = wordBits words ++ rest)
    (hpay : s.payEnd = s.rdBitcnt + (wordBits words).length) (hk : s.payEnd ≤ s.rdBitcnt + k) :
    ∃ t, payloadLoop k s = .ok () t ∧ decodes words s t := by
  induction words generalizing s k with
  | nil =>
    have hnot : ¬ s.rdBitcnt < s.payEnd := not_lt.2 hpay.le
    refine ⟨s, ?_, .refl hr hend⟩
    cases k with
    | zero => rfl
    | succ k => exact if_neg hnot
  | cons w words ih =>
    obtain ⟨⟨flag, hp⟩, hwords⟩ := codeWords_cons.1 hwords
    have hcons : wordBits (w :: words) = w.1 ++ wordBits words := rfl
    rw [hcons, List.append_assoc] at hbits
    rw [hcons, List.length_append] at hpay
    have hpos : 0 < w.1.length := List.length_pos_of_ne_nil fun hnil => by rw [hnil] at hp; cases hp
    obtain ⟨u, hsym, hread, hheld, hutree⟩ := rdsym_runs (limit := s.payEnd) hr htree hp hbits (by omega)
    have hone := decodes_storeOut (v := w.2) hend hread hheld hutree
    have hcnt : (u.popEnv.storeOut w.2).rdBitcnt = s.rdBitcnt + w.1.length := hread.rdBitcnt
    obtain ⟨k, rfl⟩ : ∃ j, k = j + 1 := ⟨k - 1, by omega⟩
    obtain ⟨t, hrun, hall⟩ := ih (k := k) hone.ready hone.atOutEnd (hutree.trans htree) hwords
      (hread.remaining hbits) (by rw [hone.payEnd, hcnt]; omega) (by rw [hone.payEnd, hcnt]; omega)
    refine ⟨t, ?_, hone.cons hall⟩
    rw [payloadLoop, if_pos (by omega), hsym, Res.bind_ok, outbyte_stores _ hread.ready.1.envFails, Res.bind_ok, hrun]

end

end Sys2Proof.Machine

/-! ### `DECODE` (R140 to R144) -/

namespace Sys2Proof.Machine

/-- `DECODE` while no command runs: `START(1)` and the three steps (R130, R140). -/
theorem exec_decode {s : State} (h : s.status ≠ .busy) :
    exec .decode s = (decodeBody (s.begin 1#1)).toStep fun _ s => s := by
  change execDecode s = _
  rw [execDecode, if_neg h, start, if_neg h]

theorem ready_begin {s : State} (hf : noFail s) (op : BitVec 1) : ready (s.begin op) :=
  ⟨hf, Nat.zero_le _, Nat.zero_le _⟩

/-! The header (R141). -/

/-- What the header leaves in the latches (R141). -/
def State.headed (s : State) (tb db : Nat) : State :=
  { s with tb := tb, db := db, hdrTree := BitVec.ofNat 32 tb, hdrData := BitVec.ofNat 32 db }

/-- `DECODE` once both fields stand in the latches (R140, R141). -/
def decodeLatched (s : State) : Res Unit :=
  if s.tb = 0 then if s.db ≠ 0 then raise .invalidHeader s else .ok () s.complete else decodeTree s

theorem decodeBody_eq (s : State) :
    decodeBody s = (rbits Config.lenW s).bind fun tb s =>
      (rbits Config.lenW { s with tb := tb }).bind fun db s => decodeLatched (s.latchHeader db) := rfl

section
variable {bs rest : List Bool} {s t u : State} {root : Node} {words : List (List Bool × Byte)} {tb db : Nat}

theorem bitsVal_bitsN_of_lt {n v : Nat} (h : v < 2 ^ n) : bitsVal (bitsN n v) = v := by
  rw [bitsVal_bitsN, Nat.mod_eq_of_lt h]

theorem decodeBody_header (hr : ready s) (htb : tb < 2 ^ 32) (hdb : db < 2 ^ 32)
    (hbits : readerBits s = headerBits tb db ++ rest) :
    ∃ u, decodeBody s = decodeLatched u ∧ reads (headerBits tb db) s u ∧ readOnly (s.headed tb db) u := by
  have hcount : countOk Config.lenW := by decide
  rw [headerBits, List.append_assoc] at hbits
  obtain ⟨t, hrun, hread, ho⟩ := rbits_runs hcount hr hbits (Laws.bitsN_length 32 tb)
  obtain ⟨u, hrun', hread', ho'⟩ := rbits_runs (s := { t with tb := tb }) hcount hread.ready (hread.remaining hbits)
    (Laws.bitsN_length 32 db)
  rw [bitsVal_bitsN_of_lt htb] at hrun
  rw [bitsVal_bitsN_of_lt hdb] at hrun'
  refine ⟨u.latchHeader db, ?_, hread.trans hread', ?_⟩
  · rw [decodeBody_eq, hrun, Res.bind_ok, hrun', Res.bind_ok]
  · have hutb : u.tb = tb := by rw [ho']
    have hlatch : u.latchHeader db = u.headed tb db := by
      rw [← hutb]
      rfl
    have h1 : readOnly (s.headed tb db) (t.headed tb db) := congrArg (·.headed tb db) ho
    have h2 : readOnly (t.headed tb db) (u.headed tb db) := congrArg (·.headed tb db) ho'
    rw [hlatch]
    exact h1.trans h2

/-- `DECODE` that completes took a header first (R141). -/
theorem header_of_decodeBody (hr : ready s) (hrun : decodeBody s = .ok () t) :
    ∃ tb db rest, tb < 2 ^ 32 ∧ db < 2 ^ 32 ∧ readerBits s = headerBits tb db ++ rest := by
  have hcount : countOk Config.lenW := by decide
  rw [decodeBody_eq] at hrun
  obtain ⟨tb, u, hfirst, hrun⟩ := Res.bind_eq_ok.1 hrun
  obtain ⟨db, v, hsecond, -⟩ := Res.bind_eq_ok.1 hrun
  obtain ⟨bs, hlen, rfl, hread, -⟩ := reads_of_rbits hcount hr hfirst
  obtain ⟨cs, hlen', rfl, hread', -⟩ := reads_of_rbits (s := { u with tb := bitsVal bs }) hcount hread.ready hsecond
  have hall := (hread.trans hread').bits
  have hlt := bitsVal_lt bs
  have hlt' := bitsVal_lt cs
  have hbs := bitsN_bitsVal bs
  have hcs := bitsN_bitsVal cs
  rw [hlen] at hlt hbs
  rw [hlen'] at hlt' hcs
  refine ⟨_, _, readerBits v, hlt, hlt', ?_⟩
  rw [headerBits]
  change _ = bitsN Config.lenW _ ++ bitsN Config.lenW _ ++ _
  rw [hbs, hcs]
  exact hall

/-! The tree and the payload (R142, R143). -/

/-- The state without what `D_TREE` and `D_PAYLOAD` write, but for `TREE`. -/
def State.carried (s : State) : State := { s.settled with t0 := 0, payEnd := 0, status := .done, phase := .halt }

theorem carried_of_held (h : t.held = s.held) : t.carried = s.carried :=
  congrArg (fun x : State =>
    { x with out := [], outLen := 0, outPos := 0, t0 := 0, payEnd := 0, status := .done, phase := .halt }) h

/-- From `s` to `t` the bits `bs` of a tree and the code words after it were taken, the symbols put out and the
command completed (R142, R143). -/
def decodesTree (root : Node) (words : List (List Bool × Byte)) (s t : State) : Prop :=
  reads (serialBits root ++ wordBits words) s t ∧ outputs (words.map Prod.snd) s t ∧ t.carried = s.carried ∧
    t.status = .done ∧ t.phase = .halt

theorem atOutEnd_of_held (h : t.held = s.held) (hend : atOutEnd s) : atOutEnd t := (outputs_of_held h hend).atOutEnd

theorem latches_of_held (h : t.held = s.held) : t.t0 = s.t0 ∧ t.tb = s.tb ∧ t.db = s.db := by
  have ht0 := congrArg State.t0 h
  have htb := congrArg State.tb h
  have hdb := congrArg State.db h
  exact ⟨ht0, htb, hdb⟩

/-- `D_PAYLOAD` after `DESERIALIZE` (R143). -/
theorem decodesTree_complete (hread : reads (serialBits root) { s with t0 := s.rdBitcnt } u)
    (hheld : u.held = { s with t0 := s.rdBitcnt }.held) (hend : atOutEnd s) {e : Nat}
    (hpay : decodes words { u with payEnd := e } t) : decodesTree root words s t.complete := by
  obtain ⟨hread', hout, hset, -⟩ := hpay
  have hall : reads (serialBits root ++ wordBits words) s t := hread.trans hread'
  have hu : outputs [] s u := outputs_of_held (s := { s with t0 := s.rdBitcnt }) hheld hend
  refine ⟨hall, hu.trans hout, ?_, rfl, rfl⟩
  have h1 := congrArg (fun x : State => { x with t0 := 0, payEnd := 0, status := .done, phase := .halt }) hset
  have h2 : u.carried = s.carried := carried_of_held (s := { s with t0 := s.rdBitcnt }) hheld
  exact h1.trans h2

/-- `D_TREE` that completes read a tree of the stated length and cut the payload into its code words
(R142, R143, R144). -/
theorem decodesTree_of_decodeTree (hr : ready s) (hend : atOutEnd s) (hrun : decodeTree s = .ok () t) :
    ∃ root words, t.tree = some root ∧ nodeCount root ≤ s.nodeCap ∧ codeWords root words ∧
      s.tb = (serialBits root).length ∧ s.db = (wordBits words).length ∧ decodesTree root words s t := by
  obtain ⟨_, u, htree, hrun⟩ := Res.bind_eq_ok.1 hrun
  obtain ⟨root, huroot, hcap, hread, hheld⟩ := tree_of_deserialize (s := { s with t0 := s.rdBitcnt }) hr htree
  obtain ⟨hut0, hutb, hudb⟩ : u.t0 = s.rdBitcnt ∧ u.tb = s.tb ∧ u.db = s.db := latches_of_held hheld
  have hcnt : u.rdBitcnt = s.rdBitcnt + (serialBits root).length := hread.rdBitcnt
  split at hrun
  · cases hrun
  next hlen =>
  rw [decodePayload] at hrun
  split at hrun
  · cases hrun
  obtain ⟨_, v, hloop, hrun⟩ := Res.bind_eq_ok.1 hrun
  obtain rfl : v.complete = t := (Res.ok.inj hrun).2
  have huend : atOutEnd u := atOutEnd_of_held (s := { s with t0 := s.rdBitcnt }) hheld hend
  obtain ⟨words, hwords, hpay, hlast⟩ := codeWords_of_payloadLoop (s := { u with payEnd := u.rdBitcnt + u.db })
    hread.ready huend huroot (Nat.le_add_right _ _) le_rfl hloop
  have hvcnt : v.rdBitcnt = u.rdBitcnt + (wordBits words).length := hpay.1.rdBitcnt
  change v.rdBitcnt = u.rdBitcnt + u.db at hlast
  refine ⟨root, words, hpay.tree.trans huroot, hcap, hwords, ?_, ?_, decodesTree_complete hread hheld hend hpay⟩
  · omega
  · omega

theorem nodeAt_plainTree (p : List Bool) (n : Node) : nodeAt p (plainTree n) = (nodeAt p n).map plainTree := by
  induction n generalizing p with
  | leaf sym flag =>
    match p with
    | [] => rfl
    | true :: _ => rfl
    | false :: _ => rfl
  | internal l r ihl ihr =>
    match p with
    | [] => rfl
    | true :: p => exact ihr p
    | false :: p => exact ihl p

/-- The code words of a tree are those of the tree the decoder knows of it (R63, R65). -/
theorem codeWords_plainTree (h : codeWords root words) : codeWords (plainTree root) words := fun w hw => by
  obtain ⟨flag, hp⟩ := h w hw
  exact ⟨false, by rw [nodeAt_plainTree, hp]; rfl⟩

/-- `D_TREE` and `D_PAYLOAD` of a serialized tree and a payload of its code words (R142, R143). -/
theorem decodeTree_runs (hr : ready s) (hend : atOutEnd s) (hcap : nodeCount root ≤ s.nodeCap)
    (hwords : codeWords root words) (hroot : (∃ l r, root = .internal l r) ∨ words = [])
    (htb : s.tb = (serialBits root).length) (hdb : s.db = (wordBits words).length)
    (hbits : readerBits s = serialBits root ++ (wordBits words ++ rest)) :
    ∃ t, decodeTree s = .ok () t ∧ t.tree = some (plainTree root) ∧ decodesTree root words s t := by
  obtain ⟨u, hrun, htree, hread, hheld, -, -⟩ := deserialize_runs (s := { s with t0 := s.rdBitcnt }) hr hcap hbits
  obtain ⟨hut0, hutb, hudb⟩ : u.t0 = s.rdBitcnt ∧ u.tb = s.tb ∧ u.db = s.db := latches_of_held hheld
  have hcnt : u.rdBitcnt = s.rdBitcnt + (serialBits root).length := hread.rdBitcnt
  have huend : atOutEnd u := atOutEnd_of_held (s := { s with t0 := s.rdBitcnt }) hheld hend
  have hpayload : ¬ (u.db ≠ 0 ∧ rootIsLeaf u) ∧
      ∃ t, payloadLoop u.db { u with payEnd := u.rdBitcnt + u.db } = .ok () t ∧
        decodes words { u with payEnd := u.rdBitcnt + u.db } t := by
    rcases hroot with ⟨l, r, rfl⟩ | rfl
    · refine ⟨fun h => ?_, payloadLoop_runs (s := { u with payEnd := u.rdBitcnt + u.db }) hread.ready huend htree
        (codeWords_plainTree hwords) (hread.remaining hbits) ?_ le_rfl⟩
      · rw [rootIsLeaf, htree] at h
        exact Bool.false_ne_true h.2
      · rw [hudb, hdb]
    · have hzero : u.db = 0 := hudb.trans hdb
      rw [hzero]
      exact ⟨fun h => h.1 rfl, _, rfl, .refl hread.ready huend⟩
  obtain ⟨hleaf, t, hloop, hpay⟩ := hpayload
  refine ⟨t.complete, ?_, hpay.tree.trans htree, decodesTree_complete hread hheld hend hpay⟩
  rw [decodeTree, hrun, Res.bind_ok, if_neg ?_, decodePayload, if_neg hleaf, hloop, Res.bind_ok]
  rw [hcnt, hut0, hutb, htb, Nat.add_sub_cancel_left]
  exact fun h => h rfl

end

/-! What `DECODE` leaves (R141 to R144). -/

/-- `DECODE` read the bits `bs` of `IN` from its start, and no byte of `IN` but those they stand in (R144). -/
def took (bs : List Bool) (s t : State) : Prop :=
  bytesBits (inBytes s) = bs ++ readerBits t ∧ t.rdBitcnt = bs.length ∧ t.inPos = (bs.length + 7) / 8

theorem took_of_reads {bs : List Bool} {s t : State} {op : BitVec 1} (h : reads bs (s.begin op) t) : took bs s t := by
  obtain ⟨hbits, ⟨-, hnbits, -⟩, hcnt, hal⟩ := h
  have hcnt' : t.rdBitcnt = bs.length := hcnt.trans (Nat.zero_add _)
  have hal' : t.rdBitcnt + t.rdNbits = 8 * t.inPos := hal.trans (Nat.zero_add _)
  exact ⟨hbits, hcnt', by omega⟩

/-- What `DECODE` leaves in `DONE` (R141, R144): the empty container, or a tree and a payload of its code
words. -/
inductive Decoded (s t : State) : Prop where
  /-- Both fields are 0 (R141). -/
  | empty (hdrTree : t.hdrTree = 0) (hdrData : t.hdrData = 0) (tree : t.tree = none) (out : outBytes t = [])
      (read : took (headerBits 0 0) s t)
  /-- A tree within NODE_CAP and a payload that is cut into its code words (R142, R143). -/
  | cut (root : Node) (words : List (List Bool × Byte)) (tree : t.tree = some root)
      (cap : nodeCount root ≤ s.nodeCap) (code : codeWords root words) (treeLen : (serialBits root).length < 2 ^ 32)
      (dataLen : (wordBits words).length < 2 ^ 32)
      (hdrTree : t.hdrTree = BitVec.ofNat 32 (serialBits root).length)
      (hdrData : t.hdrData = BitVec.ofNat 32 (wordBits words).length) (out : outBytes t = words.map Prod.snd)
      (read : took (headerBits (serialBits root).length (wordBits words).length ++
        (serialBits root ++ wordBits words)) s t)

theorem Decoded.of_quiet {s t : State} (h : Decoded s.quiet t.quiet) : Decoded s t := by
  cases h with
  | empty hdrTree hdrData tree out read => exact .empty hdrTree hdrData tree out read
  | cut root words tree cap code treeLen dataLen hdrTree hdrData out read =>
    exact .cut root words tree cap code treeLen dataLen hdrTree hdrData out read

/-- The latches of the header stay as they are behind it. -/
theorem hdr_of_carried {s u t : State} {tb db : Nat} (h : t.carried = u.carried) (ho : readOnly (s.headed tb db) u) :
    t.hdrTree = BitVec.ofNat 32 tb ∧ t.hdrData = BitVec.ofNat 32 db := by
  have htree := congrArg State.hdrTree h
  have hdata := congrArg State.hdrData h
  change t.hdrTree = u.hdrTree at htree
  change t.hdrData = u.hdrData at hdata
  rw [htree, hdata, ho]
  exact ⟨rfl, rfl⟩

/-- `DECODE` that completes left one of these (R144). -/
theorem decoded_of_decodeBody {s t : State} (hf : noFail s) (hrun : decodeBody (s.begin 1#1) = .ok () t) :
    Decoded s t := by
  have hr := ready_begin hf 1#1
  obtain ⟨tb, db, rest, htb, hdb, hbits⟩ := header_of_decodeBody hr hrun
  obtain ⟨u, hlatched, hread, ho⟩ := decodeBody_header hr htb hdb hbits
  rw [hlatched, decodeLatched] at hrun
  have hutb : u.tb = tb := by rw [ho]; rfl
  have hudb : u.db = db := by rw [ho]; rfl
  have huend : atOutEnd u := by rw [ho]; rfl
  split at hrun
  next hzero =>
    split at hrun
    · cases hrun
    next hzero' =>
    obtain rfl : u.complete = t := (Res.ok.inj hrun).2
    obtain rfl : tb = 0 := hutb.symm.trans hzero
    obtain rfl : db = 0 := hudb.symm.trans (not_not.1 hzero')
    exact .empty (by rw [ho]; rfl) (by rw [ho]; rfl) (by rw [ho]; rfl) (by rw [ho]; rfl) (took_of_reads hread)
  next hpos =>
    obtain ⟨root, words, htree, hcap, hwords, hlen, hlen', hall, hout, hcar, -, -⟩ :=
      decodesTree_of_decodeTree hread.ready huend hrun
    obtain ⟨hhdr, hhdr'⟩ := hdr_of_carried hcar ho
    obtain rfl : tb = (serialBits root).length := hutb.symm.trans hlen
    obtain rfl : db = (wordBits words).length := hudb.symm.trans hlen'
    have hnone : outBytes u = [] := by rw [ho]; rfl
    refine .cut root words htree ?_ hwords htb hdb hhdr hhdr' ?_ (took_of_reads (hread.trans hall))
    · rw [ho] at hcap
      exact hcap
    · rw [hout.1, hnone, List.nil_append]

/-- `DECODE` of a container completes with the symbols of its code words (R143). -/
theorem decodeBody_container {s : State} {root : Node} {words : List (List Bool × Byte)} {rest : List Bool}
    (hf : noFail s) (hcap : nodeCount root ≤ s.nodeCap) (hwords : codeWords root words)
    (hroot : (∃ l r, root = .internal l r) ∨ words = []) (htb : (serialBits root).length < 2 ^ 32)
    (hdb : (wordBits words).length < 2 ^ 32)
    (hbits : bytesBits (inBytes s) = headerBits (serialBits root).length (wordBits words).length ++
      (serialBits root ++ (wordBits words ++ rest))) :
    ∃ t, decodeBody (s.begin 1#1) = .ok () t ∧ endedOk t ∧ outputs (words.map Prod.snd) (s.begin 1#1) t ∧
      t.tree = some (plainTree root) ∧
      t.carried = ((s.begin 1#1).headed (serialBits root).length (wordBits words).length).carried := by
  obtain ⟨u, hlatched, hread, ho⟩ := decodeBody_header (ready_begin hf 1#1) htb hdb hbits
  have hpos := serialBits_length_succ root
  have hdepth := depth_lt_leafCount root
  have hutb : u.tb = (serialBits root).length := by rw [ho]; rfl
  have huheld := ho.held
  have hnone : outputs [] (s.begin 1#1) u := outputs_of_held (s := (s.begin 1#1).headed _ _) huheld rfl
  obtain ⟨t, hrun, htree, -, hout, hcar, hstatus, hphase⟩ := decodeTree_runs (s := u) hread.ready
    (by rw [ho]; rfl) (by rw [ho]; exact hcap) hwords hroot hutb (by rw [ho]; rfl) (hread.remaining hbits)
  have hcar' := hcar.trans (carried_of_held huheld)
  have herr := congrArg State.err hcar'
  refine ⟨t, ?_, ⟨hstatus, herr, hphase⟩, hnone.trans hout, htree, hcar'⟩
  rw [hlatched, decodeLatched, if_neg (by omega), hrun]

/-- `DECODE` of the empty container completes with no output (R141). -/
theorem decodeBody_empty {s : State} {rest : List Bool} (hf : noFail s)
    (hbits : bytesBits (inBytes s) = headerBits 0 0 ++ rest) :
    ∃ t, decodeBody (s.begin 1#1) = .ok () t ∧ endedOk t ∧ outBytes t = [] := by
  obtain ⟨u, hlatched, -, ho⟩ := decodeBody_header (ready_begin hf 1#1) (by decide) (by decide) hbits
  have hutb : u.tb = 0 := by rw [ho]; rfl
  have hudb : u.db = 0 := by rw [ho]; rfl
  refine ⟨u.complete, ?_, ⟨rfl, ?_, rfl⟩, ?_⟩
  · rw [hlatched, decodeLatched, if_pos hutb, if_neg (not_not.2 hudb)]
  · rw [ho]; rfl
  · rw [ho]; rfl

/-- Whatever accesses fail, `DECODE` that ended in `DONE` left one of the results of `Decoded` (R144). -/
theorem decoded_of_done {s t : State} (hs : s.status ≠ .busy) (h : exec .decode s = .next t) (ht : t.status = .done) :
    Decoded s t := by
  rw [exec_decode hs] at h
  have hq : decodeBody (s.quiet.begin 1#1) = .ok () t.quiet := (quietly_decodeBody (s.begin 1#1)).of_done h ht
  exact (decoded_of_decodeBody (noFail_quiet s) hq).of_quiet

/-- Settles O39: the two ways `DECODE` ends in `DONE`, with an empty container or with the payload cut. -/
theorem decodeDoneMeansThePayloadWasCut : Obligations.DecodeDoneMeansThePayloadWasCut := by
  intro s t hs hrun ht
  cases decoded_of_done hs hrun ht with
  | empty hhdr hdata htree hout hread =>
    obtain ⟨hbits, hcnt, hpos⟩ := hread
    rw [length_headerBits] at hcnt hpos
    rw [hhdr, hdata]
    exact ⟨[], [], readerBits t, by simpa [headerBits] using hbits, rfl, rfl, fun _ => ⟨rfl, htree, hout⟩,
      fun h => absurd rfl h, hcnt, hpos⟩
  | cut root words htree hcap hwords hlen hlen' hhdr hdata hout hread =>
    obtain ⟨hbits, hcnt, hpos⟩ := hread
    rw [List.length_append, List.length_append, length_headerBits, ← Nat.add_assoc] at hcnt hpos
    have htb : t.hdrTree.toNat = (serialBits root).length := by
      rw [hhdr, BitVec.toNat_ofNat, Nat.mod_eq_of_lt hlen]
    have hdb : t.hdrData.toNat = (wordBits words).length := by
      rw [hdata, BitVec.toNat_ofNat, Nat.mod_eq_of_lt hlen']
    have hne : t.hdrTree ≠ 0 := fun h => by
      have hpos := serialBits_length_succ root
      have hdepth := depth_lt_leafCount root
      rw [h] at htb
      change 0 = _ at htb
      omega
    rw [htb, hdb]
    exact ⟨serialBits root, wordBits words, readerBits t, by simpa [headerBits] using hbits, rfl, rfl,
      fun h => absurd h hne, fun _ => ⟨root, words, htree, rfl, hcap, hwords, rfl, hout⟩, hcnt, hpos⟩

/-! ### `DECODE` of what `ENCODE` wrote (R145) -/

/-- A full tree has one internal node less than it has leaves (R21). -/
theorem nodeCount_succ (n : Node) : nodeCount n + 1 = 2 * leafCount n := by
  induction n with
  | leaf sym flag => rfl
  | internal l r ihl ihr =>
    simp only [nodeCount, leafCount]
    omega

/-- The payload of an input is the code words of its bytes (R64, R139). -/
theorem inputPayload_words {s : State} {root : Node} (htree : inputTree s = some root)
    (hb : IsBuilt (freqOf (inBytes s)) root) :
    ∃ words, codeWords root words ∧ wordBits words = inputPayload s ∧ words.map Prod.snd = inBytes s := by
  refine ⟨(inBytes s).map fun b => (((s.inputCode root).get b).bits, b), fun w hw => ?_, ?_, ?_⟩
  · obtain ⟨b, hmem, rfl⟩ := List.mem_map.1 hw
    obtain ⟨p, hp, e⟩ := hb.path (t := clearCodes s.code) hmem
    exact ⟨false, by rw [State.inputCode, e]; exact hp⟩
  · rw [inputPayload_eq htree hb, wordBits, List.flatMap_map]
    rfl
  · rw [List.map_map]
    exact List.map_id _

/-- `DECODE` of a container of `ENCODE` completes with the input (R145). -/
theorem decodeBody_of_encoded {s t u : State} (he : Encoded s t) (hdata : (inputPayload s).length < 2 ^ 32)
    (hf : noFail u) (hcap : 511 ≤ u.nodeCap) (hin : inBytes u = outBytes t) :
    ∃ v, decodeBody (u.begin 1#1) = .ok () v ∧ endedOk v ∧ outBytes v = inBytes s := by
  have hbits := he.bytesBits_outBytes
  rw [← hin] at hbits
  rcases Nat.eq_zero_or_pos s.inLen with hlen | hlen
  · rw [inputTreeBits_of_empty hlen, inputPayload_of_empty hlen] at hbits
    have hnil : inBytes s = [] := by rw [inBytes, hlen]; rfl
    rw [hnil]
    exact decodeBody_empty hf hbits
  · obtain ⟨root, htree, hb⟩ := inputTree_isBuilt hlen
    obtain ⟨words, hwords, hpay, hout⟩ := inputPayload_words htree hb
    have htb := (length_inputTreeBits htree hb).2
    have hleaves := hb.leaves
    have hnodes := nodeCount_succ root
    rw [inputTreeBits_eq htree] at hbits htb
    rw [← hpay] at hbits hdata
    obtain ⟨v, hrun, hend, hputs, -, -⟩ := decodeBody_container hf (by omega) hwords (.inl hb.internal) htb hdata
      (hbits.trans (by rw [containerBits, List.append_assoc]))
    exact ⟨v, hrun, hend, hputs.1.trans hout⟩

/-- Settles O43: `DECODE` reads the container `ENCODE` wrote back into the code words of the input. -/
theorem decodeOfEncodeIsTheInput : Obligations.DecodeOfEncodeIsTheInput := by
  intro s hs hf hdata
  obtain ⟨t, hrun, he⟩ := exec_encode_encoded hs hf hdata
  refine ⟨t, hrun, he.endedOk, fun u hu hfu hcap hin => ?_⟩
  obtain ⟨v, hdec, hend, hout⟩ := decodeBody_of_encoded he hdata hfu hcap hin
  exact ⟨v, by rw [exec_decode hu, hdec, Res.toStep_ok], hend, hout⟩

end Sys2Proof.Machine

/-! ### Fault entry (R156) -/

namespace Sys2Proof.Machine

/-- Raising a fault ends the command in fault entry, whatever the operation would have returned. -/
theorem raise_eq_halted {α : Type} (k : Err) (s : State) : (raise k s : Res α) = .halted (s.faultEntry k) := rfl

/-- What would follow a raised fault is not done: every caller of the operation ends with it. -/
theorem raise_bind {α β : Type} (k : Err) (s : State) (f : α → State → Res β) :
    (raise k s : Res α).bind f = raise k s := by
  rw [raise_eq_halted, Res.bind_halted, raise_eq_halted]

/-- Settles O51: fault entry is the state with its three registers set, and sequencing stops at it. -/
theorem faultEntryChangesThreeRegisters : Obligations.FaultEntryChangesThreeRegisters := by
  intro s k f
  have hentry : s.faultEntry k = { s with err := k, status := .fault, phase := .halt } := rfl
  exact ⟨by rw [raise_eq_halted, hentry], raise_bind k s f⟩

end Sys2Proof.Machine

/-! ### Reset (R170, R171, R28) -/

namespace Sys2Proof.Machine

/-- R170: the host's reset is one step from any state, `BUSY` or not, whatever the latch holds. -/
theorem step_reset {s : State} {q : List HostAct} (h : s.hostQ = .reset :: q) :
    step s = .next ({ s with hostQ := q } : State).doReset := by
  rw [step_of_hostQ_cons h, hostAct]

@[simp] theorem State.doReset_op (s : State) : s.doReset.op = 0 := rfl
@[simp] theorem State.doReset_status (s : State) : s.doReset.status = .idle := rfl
@[simp] theorem State.doReset_err (s : State) : s.doReset.err = .none := rfl
@[simp] theorem State.doReset_hdrTree (s : State) : s.doReset.hdrTree = 0 := rfl
@[simp] theorem State.doReset_hdrData (s : State) : s.doReset.hdrData = 0 := rfl
@[simp] theorem State.doReset_outLen (s : State) : s.doReset.outLen = 0 := rfl
@[simp] theorem State.doReset_phase (s : State) : s.doReset.phase = .idle := rfl
@[simp] theorem State.doReset_inPos (s : State) : s.doReset.inPos = 0 := rfl
@[simp] theorem State.doReset_rdByte (s : State) : s.doReset.rdByte = 0 := rfl
@[simp] theorem State.doReset_rdNbits (s : State) : s.doReset.rdNbits = 0 := rfl
@[simp] theorem State.doReset_rdBitcnt (s : State) : s.doReset.rdBitcnt = 0 := rfl
@[simp] theorem State.doReset_outPos (s : State) : s.doReset.outPos = 0 := rfl
@[simp] theorem State.doReset_wrAcc (s : State) : s.doReset.wrAcc = [] := rfl
@[simp] theorem State.doReset_wrBitcnt (s : State) : s.doReset.wrBitcnt = 0 := rfl
@[simp] theorem State.doReset_tree (s : State) : s.doReset.tree = none := rfl
@[simp] theorem State.doReset_inp (s : State) : s.doReset.inp = s.inp := rfl
@[simp] theorem State.doReset_inLen (s : State) : s.doReset.inLen = s.inLen := rfl
@[simp] theorem State.doReset_out (s : State) : s.doReset.out = s.out := rfl

/-- Settles O48: the step of a reset is `doReset`, and each register and stream is read off its law. -/
theorem resetPutsEveryRegisterBack : Obligations.ResetPutsEveryRegisterBack := by
  intro s q h
  exact ⟨_, step_reset h, by simp⟩

end Sys2Proof.Machine

/-! ### Encoder and decoder (R60 to R73) -/

namespace Sys2Proof

/-- A select code is the word of the micro-operation it selects (R69). -/
theorem encode_of_decodeUop {sel : Nat} {r : Operands} {i : Instr} (h : decodeUop sel r = some i) :
    i.format = .uop ∧ i.width = 4 ∧ (encode i).word = uopWord sel := by
  unfold decodeUop at h
  split at h <;> cases h <;> exact ⟨rfl, rfl, rfl⟩

/-- A select code and the bits after it decode to the micro-operation it selects (R69). -/
theorem decodeSel_bitsN {sel : Nat} {r : Operands} {i : Instr} (hsel : sel < 16) (h : decodeUop sel r = some i)
    (rest : List Bool) : decodeSel (bitsN 4 sel ++ rest) r = .ok i rest := by
  have hlen := Laws.bitsN_length 4 sel
  have hval : bitsVal (bitsN 4 sel) = sel := Machine.bitsVal_bitsN_of_lt hsel
  rw [decodeSel, if_neg (by simp [hlen]), List.take_left' hlen, hval, h, List.drop_left' hlen]

theorem decode_of_uopWord {sel : Nat} {i : Instr} (hword : (encode i).word = uopWord sel) (hsel : sel < 16)
    (h : decodeUop sel (encode i).opnd = some i) (rest : List Bool) :
    decode ⟨(encode i).word.fmt, (encode i).word.bits ++ rest⟩ (encode i).opnd = .ok i rest := by
  rw [hword]
  exact decodeSel_bitsN hsel h rest

/-- A header field and the bits after it decode to the field's value (R61). -/
theorem decodeHdr_bitsN (fmt : Format) (mk : Word32 → Instr) (v : Word32) (rest : List Bool) :
    decodeHdr fmt mk (bitsN 32 v.toNat ++ rest) = .ok (mk v) rest := by
  have hlen : (bitsN 32 v.toNat).length = Config.lenW := Laws.bitsN_length 32 v.toNat
  have hval : bitsVal (bitsN 32 v.toNat) = v.toNat := Machine.bitsVal_bitsN_of_lt v.isLt
  rw [decodeHdr, if_neg (by simp [hlen]), List.take_left' hlen, hval, List.drop_left' hlen, BitVec.ofNat_toNat,
    BitVec.setWidth_eq]

/-- A leaf record and the bits after it decode to the leaf (R63). -/
theorem decodeNode_leaf (v : Byte) (rest : List Bool) :
    decodeNode (false :: (bitsN 8 v.toNat ++ rest)) = .ok (.nodeLeaf v) rest := by
  have hlen : (bitsN 8 v.toNat).length = Config.symW := Laws.bitsN_length 8 v.toNat
  have hval : bitsVal (bitsN 8 v.toNat) = v.toNat := Machine.bitsVal_bitsN_of_lt v.isLt
  rw [decodeNode, if_neg (by simp [hlen]), List.take_left' hlen, hval, List.drop_left' hlen, BitVec.ofNat_toNat,
    BitVec.setWidth_eq]

/-- Settles O1: by the format; a micro-operation's select code selects it with the operands the registers hold. -/
theorem encodeThenDecodeGivesTheOperation : Obligations.EncodeThenDecodeGivesTheOperation := by
  intro i rest _
  cases i with
  | encode | decode | nodeInternal | pathLeft | pathRight | pad => rfl
  | hdrTreebitlen v => exact decodeHdr_bitsN .hdrTree .hdrTreebitlen v rest
  | hdrDatabitlen v => exact decodeHdr_bitsN .hdrData .hdrDatabitlen v rest
  | nodeLeaf v => exact decodeNode_leaf v rest
  | rbit | rbits | wbit | wbits | wtell | wseek | wflush | build | serialize | deserialize | derive | rdsym | count
  | emit | patch =>
    exact decode_of_uopWord rfl (by decide) rfl rest

/-- What `decodeSel` read is a select code and the rest (R69). -/
theorem decodeSel_eq_ok {bs rest : List Bool} {r : Operands} {i : Instr} (h : decodeSel bs r = .ok i rest) :
    4 ≤ bs.length ∧ rest = bs.drop 4 ∧ decodeUop (bitsVal (bs.take 4)) r = some i := by
  rw [decodeSel] at h
  split at h
  · cases h
  next hlen =>
  split at h
  next hi =>
    cases h
    exact ⟨not_lt.1 hlen, rfl, hi⟩
  · cases h

/-- A bit string is the bits of the value of its first `n` and the rest (R67). -/
theorem bitsN_take_append_drop {n : Nat} {bs : List Bool} (h : n ≤ bs.length) :
    bitsN n (bitsVal (bs.take n)) ++ bs.drop n = bs := by
  have htake := Machine.bitsN_bitsVal (bs.take n)
  rw [List.length_take_of_le h] at htake
  rw [htake, List.take_append_drop]

/-- The word of the value of `n` bits has these bits (R67). -/
theorem toNat_ofNat_bitsVal {n : Nat} {bs : List Bool} (h : bs.length = n) :
    (BitVec.ofNat n (bitsVal bs)).toNat = bitsVal bs := by
  subst h
  rw [BitVec.toNat_ofNat, Nat.mod_eq_of_lt (Machine.bitsVal_lt bs)]

/-- What `decodeHdr` read is a header field and the rest (R61). -/
theorem decodeHdr_eq_ok {fmt : Format} {mk : Word32 → Instr} {bs rest : List Bool} {i : Instr}
    (h : decodeHdr fmt mk bs = .ok i rest) :
    ∃ v, i = mk v ∧ bs.length = 32 + rest.length ∧ bs = bitsN 32 v.toNat ++ rest := by
  rw [decodeHdr] at h
  split at h
  · cases h
  next hlen =>
  cases h
  have hlen : 32 ≤ bs.length := not_lt.1 hlen
  refine ⟨_, rfl, ?_, ?_⟩
  · rw [List.length_drop]
    exact (Nat.add_sub_of_le hlen).symm
  · have hval := toNat_ofNat_bitsVal (List.length_take_of_le hlen)
    exact (congrArg (bitsN 32 · ++ bs.drop 32) hval |>.trans (bitsN_take_append_drop hlen)).symm

/-- What `decodeNode` read is a node record and the rest (R63). -/
theorem decodeNode_eq_ok {bs rest : List Bool} {i : Instr} (h : decodeNode bs = .ok i rest) :
    (i = .nodeInternal ∧ bs = true :: rest) ∨ ∃ v, i = .nodeLeaf v ∧ bs = false :: (bitsN 8 v.toNat ++ rest) := by
  match bs with
  | [] => cases h
  | true :: bs =>
    cases h
    exact .inl ⟨rfl, rfl⟩
  | false :: bs =>
    rw [decodeNode] at h
    split at h
    · cases h
    next hlen =>
    cases h
    have hlen : 8 ≤ bs.length := not_lt.1 hlen
    refine .inr ⟨_, rfl, ?_⟩
    have hval := toNat_ofNat_bitsVal (List.length_take_of_le hlen)
    exact congrArg _ (congrArg (bitsN 8 · ++ bs.drop 8) hval |>.trans (bitsN_take_append_drop hlen)).symm

/-- Settles O2: by the format, each decoder read the word of the operation it gives. -/
theorem decodedBitsAreTheOperationsWord : Obligations.DecodedBitsAreTheOperationsWord := by
  rintro ⟨fmt, bs⟩ r i rest h
  cases fmt with
  | cmd =>
    match bs, h with
    | false :: _, rfl => exact ⟨rfl, Nat.add_comm _ _, fun _ => rfl⟩
    | true :: _, rfl => exact ⟨rfl, Nat.add_comm _ _, fun _ => rfl⟩
  | path =>
    match bs, h with
    | false :: _, rfl => exact ⟨rfl, Nat.add_comm _ _, fun _ => rfl⟩
    | true :: _, rfl => exact ⟨rfl, Nat.add_comm _ _, fun _ => rfl⟩
  | pad =>
    match bs, h with
    | _ :: _, rfl => exact ⟨rfl, Nat.add_comm _ _, fun hne => absurd rfl hne⟩
  | uop =>
    obtain ⟨hlen, rfl, hi⟩ := decodeSel_eq_ok h
    obtain ⟨hfmt, hwidth, hword⟩ := encode_of_decodeUop hi
    refine ⟨hfmt, ?_, fun _ => ?_⟩
    · rw [hwidth, List.length_drop]
      exact (Nat.add_sub_of_le hlen).symm
    · rw [hword]
      exact (bitsN_take_append_drop hlen).symm
  | hdrTree =>
    obtain ⟨v, rfl, hlen, hbits⟩ := decodeHdr_eq_ok h
    exact ⟨rfl, hlen, fun _ => hbits⟩
  | hdrData =>
    obtain ⟨v, rfl, hlen, hbits⟩ := decodeHdr_eq_ok h
    exact ⟨rfl, hlen, fun _ => hbits⟩
  | node =>
    rcases decodeNode_eq_ok h with ⟨rfl, hbits⟩ | ⟨v, rfl, hbits⟩
    · cases hbits
      exact ⟨rfl, Nat.add_comm _ _, fun _ => rfl⟩
    · cases hbits
      refine ⟨rfl, ?_, fun _ => rfl⟩
      simp only [List.length_cons, List.length_append, Laws.bitsN_length, Instr.width]
      omega

/-- Settles O3: each word is short and given, so the decoder can be run on it. -/
theorem wordsOfTheSpecDecode : Obligations.WordsOfTheSpecDecode := by
  unfold Obligations.WordsOfTheSpecDecode
  decide

end Sys2Proof

/-! ### The step of a latched operation (R69, D18) -/

namespace Sys2Proof.Machine

/-- A silent host, or one that waits, lets the block advance (R181). -/
theorem step_of_silent {s : State} (h : s.hostQ = []) : step s = advance s := by
  rw [step, h]

/-- The latched operation runs, and the latch is emptied (R69). -/
theorem advance_of_latched {s : State} {w : IWord} {i : Instr} {rest : List Bool} (hir : s.ir = some w)
    (h : decode w s.opnd = .ok i rest) : advance s = exec i { s with ir := none } := by
  rw [advance, hir]
  simp only [runLatch, h]

/-- An issued operation stands in the latch as the word that decodes to it (R69, R73). -/
theorem decode_issued {i : Instr} (h : i.wellFormed = true) : decode (encode i).word (encode i).opnd = .ok i [] := by
  have hdec := encodeThenDecodeGivesTheOperation i [] h
  rwa [List.append_nil] at hdec

/-- The operation the sequencer issues is the one the next step runs (D18). -/
theorem step_issue {s : State} {i : Instr} (k : Nat) (hi : i.wellFormed = true) (hq : s.hostQ = []) :
    step (s.issue i k) = exec i { s with opnd := (encode i).opnd, useq := k, ir := none } := by
  have hq' : (s.issue i k).hostQ = [] := hq
  rw [step_of_silent hq', advance_of_latched (State.issue_ir s i k) (decode_issued hi)]
  rfl

/-- Settles O4: the block advances by the latched operation, and what is issued decodes to itself. -/
theorem stepRunsTheLatchedOperation : Obligations.StepRunsTheLatchedOperation := by
  refine ⟨fun s w i rest hir hdec => ⟨fun hq => ?silent, fun q hq => ?waits⟩, fun s i k hi hq => step_issue k hi hq⟩
  case silent => rw [step_of_silent hq, advance_of_latched hir hdec]
  case waits =>
    rw [step_of_hostQ_cons hq, hostAct]
    exact advance_of_latched (s := { s with hostQ := q }) hir hdec

end Sys2Proof.Machine

/-! ### The merges of `BUILD` (R100 to R102) -/

namespace Sys2Proof.Machine

/-- The order of R101 is the one of (weight, ord). -/
theorem ForestEntry.before_iff {x y : ForestEntry} :
    x.before y = true ↔ x.weight < y.weight ∨ x.weight = y.weight ∧ x.ord < y.ord := by
  simp [ForestEntry.before]

/-- The order of R101 is total on entries of different `ord`. -/
theorem ForestEntry.before_of_not {x y : ForestEntry} (h : ¬ x.before y = true) (hne : x.ord ≠ y.ord) :
    y.before x = true := by
  rw [before_iff] at h ⊢
  omega

theorem ForestEntry.before_trans {x y z : ForestEntry} (hxy : x.before y = true) (hyz : y.before z = true) :
    x.before z = true := by
  rw [before_iff] at *
  omega

theorem ForestEntry.weight_le_of_before {x y : ForestEntry} (h : x.before y = true) : x.weight ≤ y.weight := by
  rw [before_iff] at h
  omega

theorem ForestEntry.weight_le_of_not_before {x y : ForestEntry} (h : ¬ x.before y = true) : y.weight ≤ x.weight := by
  rw [before_iff] at h
  omega

/-- Adding an entry of a new `ord` keeps the order of R101. -/
theorem insertForest_sorted {e : ForestEntry} {forest : List ForestEntry} (hord : ∀ x ∈ forest, x.ord ≠ e.ord)
    (h : forest.Pairwise fun x y => x.before y = true) :
    (insertForest e forest).Pairwise fun x y => x.before y = true := by
  induction forest with
  | nil => exact List.pairwise_singleton _ _
  | cons x xs ih =>
    obtain ⟨hne, hord⟩ := List.forall_mem_cons.1 hord
    obtain ⟨hx, hxs⟩ := List.pairwise_cons.1 h
    rw [insertForest]
    split
    next hbefore =>
      exact List.pairwise_cons.2
        ⟨List.forall_mem_cons.2 ⟨hbefore, fun y hy => ForestEntry.before_trans hbefore (hx y hy)⟩, h⟩
    next hnot =>
      refine List.pairwise_cons.2 ⟨fun y hy => ?_, ih hord hxs⟩
      rcases List.mem_cons.1 ((insertForest_perm e xs).mem_iff.1 hy) with rfl | hy
      · exact ForestEntry.before_of_not hnot hne.symm
      · exact hx y hy

/-- The leaf entries stand in the order of R101. -/
theorem leafEntries_sorted (freq : Table Nat) {syms : List Byte} (h : syms.Nodup) :
    (leafEntries freq syms).Pairwise fun x y => x.before y = true := by
  induction syms with
  | nil => exact .nil
  | cons b bs ih =>
    obtain ⟨hb, hbs⟩ := List.nodup_cons.1 h
    rw [leafEntries]
    split
    · refine insertForest_sorted (fun x hx => ?_) (ih hbs)
      obtain ⟨c, hc, rfl⟩ := List.mem_map.1 ((leafEntries_perm freq bs).mem_iff.1 hx)
      exact fun e => hb (BitVec.eq_of_toNat_eq e ▸ (List.mem_filter.1 hc).1)
    · exact ih hbs

/-- Each merge takes the next number for its node (R100, R101). -/
theorem nextOrd_mergeForest {n : Nat} {forest : List ForestEntry} (ord : Nat) (hne : forest ≠ [])
    (hn : forest.length ≤ n + 1) : (mergeForest n forest ord).2 + 1 = ord + forest.length := by
  fun_induction mergeForest n forest ord with
  | case1 n a b rest ord ih =>
    have hlen := (insertForest_perm (mergeEntries a b ord) rest).length_eq
    simp only [List.length_cons] at hlen hn ⊢
    have := ih (List.ne_nil_of_length_pos (by omega)) (by omega)
    omega
  | case2 n forest ord h =>
    match n, forest with
    | _, [e] => rfl
    | 0, a :: b :: rest => simp at hn
    | n + 1, a :: b :: rest => exact (h n a b rest rfl rfl).elim

/-- `BUILD` of two symbols or more leaves the one entry that the merges of the leaves make (R100). -/
theorem build_of_two {s : State} (h : 2 ≤ symbolCount s.freq) :
    ∃ e ord, mergeForest (leafEntries s.freq symbols).length (leafEntries s.freq symbols) 256 = ([e], ord) ∧
      ord = 255 + symbolCount s.freq ∧ s.build = { s with forest := [e], nextOrd := ord, tree := some e.node } := by
  have hlen := length_leafEntries s.freq
  have hne : leafEntries s.freq symbols ≠ [] := List.ne_nil_of_length_pos (by omega)
  have hone := length_mergeForest (n := (leafEntries s.freq symbols).length) 256 hne (Nat.le_succ _)
  have hord := nextOrd_mergeForest (n := (leafEntries s.freq symbols).length) 256 hne (Nat.le_succ _)
  rcases s.build_cases with ⟨h0, -⟩ | ⟨e, h1, -⟩ | ⟨a, b, rest, forest, ord, h2, hm, hb⟩
  · exact absurd h0 hne
  · rw [h1, List.length_singleton] at hlen
    omega
  · have hm' : mergeForest (leafEntries s.freq symbols).length (leafEntries s.freq symbols) 256 = (forest, ord) := by
      rw [h2]
      exact hm
    rw [hm'] at hone hord
    obtain ⟨e, rfl⟩ := List.length_eq_one_iff.1 hone
    exact ⟨e, ord, hm', by omega, hb⟩

/-- Settles O19: insertion keeps the order of R101, so the first two entries are the two least. -/
theorem buildExtractsTheTwoLeast : Obligations.BuildExtractsTheTwoLeast := by
  refine ⟨fun freq => leafEntries_sorted freq symbols_nodup,
    fun e forest hord h => ⟨insertForest_sorted hord h, insertForest_perm e forest⟩,
    fun a b rest n ord h => ?least, fun s h => ?built⟩
  case least =>
    obtain ⟨ha, hb⟩ := List.pairwise_cons.1 h
    exact ⟨fun x hx => ForestEntry.before_iff.1 (ha x hx),
      fun x hx => ForestEntry.before_iff.1 ((List.pairwise_cons.1 hb).1 x hx), rfl⟩
  case built =>
    obtain ⟨e, ord, hm, -, hb⟩ := build_of_two h
    exact ⟨e, ord, hm, congrArg Host.Outcome.next hb⟩

/-! ### What the tree weighs (R105 (f)) -/

/-- The sum of the counts of a tree's leaves. -/
def treeWeight (freq : Table Nat) : Node → Nat
  | .leaf sym _ => freq.get sym
  | .internal l r => treeWeight freq l + treeWeight freq r

/-- Every entry weighs what its leaves do (R100, R102). -/
abbrev weighsLeaves (freq : Table Nat) (forest : List ForestEntry) : Prop :=
  ∀ e ∈ forest, e.weight = treeWeight freq e.node

theorem weighsLeaves_leafEntries (freq : Table Nat) : weighsLeaves freq (leafEntries freq symbols) := fun e he => by
  obtain ⟨b, -, rfl⟩ := List.mem_map.1 ((leafEntries_perm freq symbols).mem_iff.1 he)
  rfl

/-- A merge keeps the sum of the weights (R102). -/
theorem sum_weight_mergeForest (n : Nat) (forest : List ForestEntry) (ord : Nat) :
    ((mergeForest n forest ord).1.map (·.weight)).sum = (forest.map (·.weight)).sum := by
  fun_induction mergeForest n forest ord with
  | case1 n a b rest ord ih =>
    rw [ih, ((insertForest_perm _ rest).map _).sum_eq]
    simp [mergeEntries, Nat.add_assoc]
  | case2 => rfl

/-- A sum over the symbols with a count is the sum over all, where the others add nothing. -/
theorem sum_map_countedSymbols (freq : Table Nat) : ((countedSymbols freq).map freq.get).sum = freqTotal freq := by
  rw [freqTotal, sum_map_symbols, ← List.sum_toFinset _ (countedSymbols_nodup freq)]
  refine Finset.sum_subset (fun b _ => by simp [mem_symbols]) fun b _ hb => ?_
  simpa [mem_countedSymbols] using hb

/-- The leaves `BUILD` starts from weigh the counts (R100). -/
theorem weights_leafEntries (freq : Table Nat) :
    ((leafEntries freq symbols).map (·.weight)).Perm ((countedSymbols freq).map freq.get) := by
  refine ((leafEntries_perm freq symbols).map _).trans (.of_eq ?_)
  rw [List.map_map]
  rfl

/-- Settles O18: the merges keep the sum of the weights. -/
theorem buildRootWeighsTheInput : Obligations.BuildRootWeighsTheInput := by
  intro s h
  obtain ⟨e, ord, hm, -, hb⟩ := build_of_two h
  have hsum := sum_weight_mergeForest (leafEntries s.freq symbols).length (leafEntries s.freq symbols) 256
  rw [hm, (weights_leafEntries s.freq).sum_eq, sum_map_countedSymbols] at hsum
  exact ⟨s.build, e, rfl, by rw [hb], by rw [hb], by simpa using hsum⟩

/-- Settles O17: by the number of symbols with a count; the size of the tree follows from its leaves. -/
theorem buildMakesTheTreeOfTheCounts : Obligations.BuildMakesTheTreeOfTheCounts := by
  intro s
  have hlen := length_leafEntries s.freq
  refine ⟨s.build, rfl, build_eq s, fun h0 => ?none, fun b h1 hb => ?one, fun h2 => ?many⟩
  case none =>
    have hnil : leafEntries s.freq symbols = [] := List.eq_nil_of_length_eq_zero (hlen.trans h0)
    rw [State.build, hnil]
    exact ⟨rfl, rfl, rfl⟩
  case one =>
    obtain ⟨c, hc, htree⟩ := build_tree_of_one h1
    obtain rfl : b = c := by simpa [hc] using mem_countedSymbols.2 hb
    obtain ⟨e, he⟩ := List.length_eq_one_iff.1 (hlen.trans h1)
    exact ⟨htree, by rw [State.build, he]; rfl⟩
  case many =>
    obtain ⟨e, ord, -, hord, hb⟩ := build_of_two h2
    obtain ⟨root, htree, hleaves⟩ := build_tree_of_two h2
    obtain ⟨-, -, hcount⟩ := realSymbols_of_leavesOf hleaves
    rw [length_countedSymbols] at hcount
    obtain ⟨l, r, rfl⟩ := (isBuilt_of_leavesOf h2 hleaves).internal
    have hle := symbolCount_le s.freq
    have hnodes := nodeCount_succ (.internal l r)
    have hdepth := depth_lt_leafCount (.internal l r)
    refine ⟨l, r, htree, hleaves, by omega, by omega, by omega, ?_⟩
    rw [hb]
    exact hord

/-- Settles O20: the three inputs are given, so `BUILD` can be run on their counts. -/
theorem workedMergesGiveTheirTrees : Obligations.WorkedMergesGiveTheirTrees := by
  unfold Obligations.WorkedMergesGiveTheirTrees
  decide +kernel

end Sys2Proof.Machine

/-! ### No full tree costs less (R105 (g))

A tree is seen as a list of pairs of a count and a depth. The two least counts can be moved to two deepest
places without making the list cost more, and there they are siblings: this is the merge `BUILD` makes. -/

namespace Sys2Proof.Machine

/-- What pairs of a count and a depth cost in bits. -/
def pairsCost (pairs : List (Nat × Nat)) : Nat := (pairs.map fun p => p.1 * p.2).sum

/-- The depths of the leaves of a full tree fill the Kraft sum. -/
def kraftFull (ds : List Nat) : Prop := ∃ k, (∀ d ∈ ds, d ≤ k) ∧ (ds.map fun d => 2 ^ (k - d)).sum = 2 ^ k

/-- The leaves of a tree that stands at depth `d`, as pairs of count and depth. -/
def leafPairs (freq : Table Nat) : Node → Nat → List (Nat × Nat)
  | .leaf sym _, d => [(freq.get sym, d)]
  | .internal l r, d => leafPairs freq l (d + 1) ++ leafPairs freq r (d + 1)

theorem pairsCost_cons (p : Nat × Nat) (pairs : List (Nat × Nat)) :
    pairsCost (p :: pairs) = p.1 * p.2 + pairsCost pairs := rfl

theorem pairsCost_append (ps qs : List (Nat × Nat)) : pairsCost (ps ++ qs) = pairsCost ps + pairsCost qs := by
  simp [pairsCost]

theorem pairsCost_perm {ps qs : List (Nat × Nat)} (h : ps.Perm qs) : pairsCost ps = pairsCost qs :=
  (h.map _).sum_eq

theorem pairsCost_leafPairs (freq : Table Nat) (n : Node) (d : Nat) :
    pairsCost (leafPairs freq n d) = costFrom freq n d := by
  induction n generalizing d with
  | leaf sym flag => exact Nat.add_zero _
  | internal l r ihl ihr => rw [leafPairs, pairsCost_append, ihl, ihr, costFrom]

theorem leafPairs_counts (freq : Table Nat) (n : Node) (d : Nat) :
    (leafPairs freq n d).map Prod.fst = (leavesOf n).map fun w => freq.get w.1 := by
  induction n generalizing d with
  | leaf sym flag => rfl
  | internal l r ihl ihr => simp [leafPairs, leavesOf, ihl, ihr]

theorem leafPairs_depths_le (freq : Table Nat) (n : Node) (d : Nat) :
    ∀ e ∈ (leafPairs freq n d).map Prod.snd, e ≤ d + depth n := by
  induction n generalizing d with
  | leaf sym flag => simp [leafPairs, depth]
  | internal l r ihl ihr =>
    intro e he
    rw [leafPairs, List.map_append, List.mem_append] at he
    have hl := ihl (d + 1) e
    have hr := ihr (d + 1) e
    simp only [depth]
    rcases he with he | he
    · have := hl he
      omega
    · have := hr he
      omega

/-- The leaves below a place have the Kraft sum of the place. -/
theorem leafPairs_kraft (freq : Table Nat) (n : Node) {d k : Nat} (h : d + depth n ≤ k) :
    (((leafPairs freq n d).map Prod.snd).map fun e => 2 ^ (k - e)).sum = 2 ^ (k - d) := by
  induction n generalizing d with
  | leaf sym flag => simp [leafPairs]
  | internal l r ihl ihr =>
    simp only [depth] at h
    have hpow : k - d = k - (d + 1) + 1 := by omega
    rw [leafPairs, List.map_append, List.map_append, List.sum_append, ihl (by omega), ihr (by omega), hpow, pow_succ]
    omega

theorem kraftFull_leafPairs (freq : Table Nat) (n : Node) : kraftFull ((leafPairs freq n 0).map Prod.snd) :=
  ⟨depth n, fun e he => by simpa using leafPairs_depths_le freq n 0 e he, leafPairs_kraft freq n (by simp)⟩

/-- The Kraft sum of full depths, scaled by the largest of them. -/
theorem kraftFull.scaled {ds : List Nat} {m : Nat} (h : kraftFull ds) (hmem : m ∈ ds) (hmax : ∀ d ∈ ds, d ≤ m) :
    (ds.map fun d => 2 ^ (m - d)).sum = 2 ^ m := by
  obtain ⟨k, hk, hsum⟩ := h
  have hscale : (ds.map fun d => 2 ^ (k - d)) = ds.map fun d => 2 ^ (k - m) * 2 ^ (m - d) :=
    List.map_congr_left fun d hd => by
      have := hmax d hd
      have := hk m hmem
      rw [← pow_add]
      congr 1
      omega
  have hpow : 2 ^ k = 2 ^ (k - m) * 2 ^ m := by
    have := hk m hmem
    rw [← pow_add]
    congr 1
    omega
  rw [hscale, List.sum_map_mul_left, hpow] at hsum
  exact Nat.eq_of_mul_eq_mul_left (by positivity) hsum

/-- A least count can be moved to a deepest place without making the list cost more. -/
theorem exists_least_deepest {pairs : List (Nat × Nat)} {a m : Nat} (ha : a ∈ pairs.map Prod.fst)
    (hmin : ∀ x ∈ pairs.map Prod.fst, a ≤ x) (hm : m ∈ pairs.map Prod.snd) (hmax : ∀ d ∈ pairs.map Prod.snd, d ≤ m) :
    ∃ rest : List (Nat × Nat), (pairs.map Prod.fst).Perm (a :: rest.map Prod.fst) ∧
      (pairs.map Prod.snd).Perm (m :: rest.map Prod.snd) ∧ a * m + pairsCost rest ≤ pairsCost pairs := by
  obtain ⟨⟨a', d⟩, hmem, ha'⟩ := List.mem_map.1 ha
  obtain rfl : a' = a := ha'
  have hperm := List.perm_cons_erase hmem
  generalize pairs.erase _ = others at hperm
  have hcounts := hperm.map Prod.fst
  have hdepths := hperm.map Prod.snd
  have hcost := (pairsCost_perm hperm).trans (pairsCost_cons ..)
  by_cases hd : d = m
  · subst hd
    exact ⟨others, hcounts, hdepths, hcost.ge⟩
  · have hm' : m ∈ others.map Prod.snd := (List.mem_cons.1 (hdepths.mem_iff.1 hm)).resolve_left (Ne.symm hd)
    obtain ⟨⟨x, m'⟩, hmem', hm''⟩ := List.mem_map.1 hm'
    obtain rfl : m' = m := hm''
    have hperm' := List.perm_cons_erase hmem'
    generalize others.erase _ = rest at hperm'
    have hcounts' := hperm'.map Prod.fst
    have hdepths' := hperm'.map Prod.snd
    have hcost' := (pairsCost_perm hperm').trans (pairsCost_cons ..)
    refine ⟨(x, d) :: rest, hcounts.trans (hcounts'.cons _), (hdepths.trans (hdepths'.cons _)).trans (.swap ..), ?_⟩
    have hx := hmin x (hcounts.mem_iff.2 (List.mem_cons_of_mem _ (hcounts'.mem_iff.2 List.mem_cons_self)))
    have hdm := hmax d (hdepths.mem_iff.2 List.mem_cons_self)
    have hswap := mul_add_mul_le_mul_add_mul hx hdm
    rw [hcost, hcost', pairsCost_cons]
    dsimp only
    omega

/-- A deepest place has a sibling, which is as deep: at least two depths are the largest. -/
theorem kraftFull.mem_of_perm {ds rest : List Nat} {m : Nat} (h : kraftFull ds) (hperm : ds.Perm (m :: rest))
    (hmax : ∀ d ∈ ds, d ≤ m) (hne : rest ≠ []) : m ∈ rest := by
  have hsum := h.scaled (hperm.mem_iff.2 List.mem_cons_self) hmax
  rw [(hperm.map _).sum_eq, List.map_cons, List.sum_cons, Nat.sub_self, pow_zero] at hsum
  have hle : ∀ d ∈ rest, d ≤ m := fun d hd => hmax d (hperm.mem_iff.2 (List.mem_cons_of_mem m hd))
  by_contra hm
  have heven : ∀ x ∈ rest.map fun d => 2 ^ (m - d), 2 ∣ x := by
    intro x hx
    obtain ⟨d, hd, rfl⟩ := List.mem_map.1 hx
    have hlt : d < m := lt_of_le_of_ne (hle d hd) fun e => hm (e ▸ hd)
    exact dvd_pow_self 2 (by omega)
  obtain ⟨d, hd⟩ := List.exists_mem_of_ne_nil rest hne
  have hpos : 2 ∣ 2 ^ m := dvd_pow_self 2 fun h0 => hm (by
    have := hle d hd
    obtain rfl : d = m := by omega
    exact hd)
  have := List.dvd_sum heven
  omega

/-- Two deepest siblings give way to their parent, one less deep. -/
theorem kraftFull.merge {ds rest : List Nat} {m : Nat} (h : kraftFull ds) (hperm : ds.Perm (m :: m :: rest))
    (hmax : ∀ d ∈ ds, d ≤ m) (hm : 0 < m) : kraftFull ((m - 1) :: rest) := by
  have hsum := h.scaled (hperm.mem_iff.2 List.mem_cons_self) hmax
  have hone : 2 ^ (m - (m - 1)) = 2 := by rw [Nat.sub_sub_self hm, pow_one]
  rw [(hperm.map _).sum_eq, List.map_cons, List.map_cons, List.sum_cons, List.sum_cons, Nat.sub_self, pow_zero] at hsum
  refine ⟨m, List.forall_mem_cons.2 ⟨Nat.sub_le _ _, fun d hd => hmax d (hperm.mem_iff.2 (by simp [hd]))⟩, ?_⟩
  rw [List.map_cons, List.sum_cons, hone]
  omega

/-- Full depths of two leaves or more are not all 0. -/
theorem kraftFull.pos {ds rest : List Nat} {m : Nat} (h : kraftFull ds) (hperm : ds.Perm (m :: m :: rest))
    (hmax : ∀ d ∈ ds, d ≤ m) : 0 < m := by
  have hsum := h.scaled (hperm.mem_iff.2 List.mem_cons_self) hmax
  rw [(hperm.map _).sum_eq, List.map_cons, List.map_cons, List.sum_cons, List.sum_cons, Nat.sub_self, pow_zero] at hsum
  refine Nat.pos_of_ne_zero fun h0 => ?_
  subst h0
  omega

/-- The two least counts of a full list can be merged at the price of their sum, as `BUILD` does (R102). -/
theorem exists_merged {pairs : List (Nat × Nat)} {a b : Nat} {counts : List Nat}
    (hcounts : (pairs.map Prod.fst).Perm (a :: b :: counts)) (ha : ∀ x ∈ b :: counts, a ≤ x)
    (hb : ∀ x ∈ counts, b ≤ x) (hfull : kraftFull (pairs.map Prod.snd)) :
    ∃ merged : List (Nat × Nat), (merged.map Prod.fst).Perm ((a + b) :: counts) ∧
      kraftFull (merged.map Prod.snd) ∧ a + b + pairsCost merged ≤ pairsCost pairs := by
  have hne : pairs.map Prod.snd ≠ [] := fun hnil => by
    have hlen := hcounts.length_eq
    rw [List.map_eq_nil_iff.1 hnil] at hlen
    cases hlen
  obtain ⟨m, hm⟩ := List.maximum_ne_bot_of_ne_nil hne |> WithBot.ne_bot_iff_exists.1
  have hmem : m ∈ pairs.map Prod.snd := List.maximum_mem hm.symm
  have hmax : ∀ d ∈ pairs.map Prod.snd, d ≤ m := fun d hd => List.le_maximum_of_mem hd hm.symm
  obtain ⟨first, hc1, hd1, hle1⟩ := exists_least_deepest (hcounts.mem_iff.2 List.mem_cons_self)
    (fun x hx => (List.mem_cons.1 (hcounts.mem_iff.1 hx)).elim (·.ge) (ha x)) hmem hmax
  have hc1' : (first.map Prod.fst).Perm (b :: counts) := (hc1.symm.trans hcounts).cons_inv
  have hne1 : first.map Prod.snd ≠ [] := fun hnil => by
    have hlen := hc1'.length_eq
    rw [List.map_eq_nil_iff.1 hnil] at hlen
    cases hlen
  have hmax1 : ∀ d ∈ first.map Prod.snd, d ≤ m := fun d hd => hmax d (hd1.mem_iff.2 (List.mem_cons_of_mem m hd))
  obtain ⟨rest, hc2, hd2, hle2⟩ := exists_least_deepest (hc1'.mem_iff.2 List.mem_cons_self)
    (fun x hx => (List.mem_cons.1 (hc1'.mem_iff.1 hx)).elim (·.ge) (hb x)) (hfull.mem_of_perm hd1 hmax hne1) hmax1
  have hperm := hd1.trans (hd2.cons m)
  have hpos := hfull.pos hperm hmax
  refine ⟨(a + b, m - 1) :: rest, (hc2.symm.trans hc1').cons_inv.cons _, hfull.merge hperm hmax hpos, ?_⟩
  have hprice : (a + b) * (m - 1) + (a + b) = a * m + b * m := by
    rw [← Nat.mul_succ, Nat.succ_eq_add_one, Nat.sub_add_cancel hpos, Nat.add_mul]
  rw [pairsCost_cons]
  dsimp only
  omega

/-! The merges of `BUILD`. -/

/-- What the trees of a forest cost, each from its own root. -/
def forestCost (freq : Table Nat) (forest : List ForestEntry) : Nat := (forest.map fun e => costFrom freq e.node 0).sum

theorem forestCost_cons (freq : Table Nat) (e : ForestEntry) (forest : List ForestEntry) :
    forestCost freq (e :: forest) = costFrom freq e.node 0 + forestCost freq forest := rfl

theorem forestCost_perm (freq : Table Nat) {xs ys : List ForestEntry} (h : xs.Perm ys) :
    forestCost freq xs = forestCost freq ys :=
  (h.map _).sum_eq

/-- Every level above a tree costs what the tree weighs. -/
theorem costFrom_add (freq : Table Nat) (n : Node) (d k : Nat) :
    costFrom freq n (d + k) = costFrom freq n d + treeWeight freq n * k := by
  induction n generalizing d with
  | leaf sym flag => exact Nat.mul_add ..
  | internal l r ihl ihr =>
    have hl := ihl (d + 1)
    have hr := ihr (d + 1)
    rw [Nat.add_right_comm] at hl hr
    rw [costFrom, costFrom, treeWeight, hl, hr, Nat.add_mul]
    omega

/-- A merge costs the weight of the node it makes. -/
theorem costFrom_internal (freq : Table Nat) (l r : Node) :
    costFrom freq (.internal l r) 0 =
      costFrom freq l 0 + costFrom freq r 0 + (treeWeight freq l + treeWeight freq r) := by
  have hl := costFrom_add freq l 0 1
  have hr := costFrom_add freq r 0 1
  rw [costFrom, hl, hr]
  omega

/-- The entries of a forest stand by rising weight. -/
abbrev byWeight (forest : List ForestEntry) : Prop := forest.Pairwise fun x y => x.weight ≤ y.weight

theorem insertForest_byWeight (e : ForestEntry) {forest : List ForestEntry} (h : byWeight forest) :
    byWeight (insertForest e forest) := by
  induction forest with
  | nil => exact List.pairwise_singleton _ _
  | cons x xs ih =>
    obtain ⟨hx, hxs⟩ := List.pairwise_cons.1 h
    rw [insertForest]
    split
    next hbefore =>
      have hle := ForestEntry.weight_le_of_before hbefore
      exact List.pairwise_cons.2 ⟨List.forall_mem_cons.2 ⟨hle, fun y hy => hle.trans (hx y hy)⟩, h⟩
    next hnot =>
      refine List.pairwise_cons.2 ⟨fun y hy => ?_, ih hxs⟩
      rcases List.mem_cons.1 ((insertForest_perm e xs).mem_iff.1 hy) with rfl | hy
      · exact ForestEntry.weight_le_of_not_before hnot
      · exact hx y hy

/-- Whatever full list of depths the entries of a forest are given, merging them costs no more. -/
theorem forestCost_mergeForest_le (freq : Table Nat) {n : Nat} {forest : List ForestEntry} {ord : Nat}
    {pairs : List (Nat × Nat)} (hsorted : byWeight forest) (hweights : weighsLeaves freq forest)
    (hcounts : (pairs.map Prod.fst).Perm (forest.map (·.weight))) (hfull : kraftFull (pairs.map Prod.snd)) :
    forestCost freq (mergeForest n forest ord).1 ≤ forestCost freq forest + pairsCost pairs := by
  fun_induction mergeForest n forest ord generalizing pairs with
  | case1 n a b rest ord ih =>
    obtain ⟨ha, hsorted'⟩ := List.pairwise_cons.1 hsorted
    obtain ⟨hb, hrest⟩ := List.pairwise_cons.1 hsorted'
    obtain ⟨hwa, hweights'⟩ := List.forall_mem_cons.1 hweights
    obtain ⟨hwb, hwrest⟩ := List.forall_mem_cons.1 hweights'
    obtain ⟨merged, hc, hf, hle⟩ := exists_merged (a := a.weight) (b := b.weight)
      (counts := rest.map ForestEntry.weight) hcounts (List.forall_mem_map.2 ha) (List.forall_mem_map.2 hb) hfull
    have hperm := insertForest_perm (mergeEntries a b ord) rest
    have hmerge := ih (insertForest_byWeight _ hrest)
      (fun e he => by
        rcases List.mem_cons.1 (hperm.mem_iff.1 he) with rfl | he
        · exact congrArg₂ _ hwa hwb
        · exact hwrest e he)
      (hc.trans (hperm.map ForestEntry.weight).symm) hf
    have hcost : costFrom freq (mergeEntries a b ord).node 0 =
        costFrom freq a.node 0 + costFrom freq b.node 0 + (a.weight + b.weight) := by
      rw [hwa, hwb]
      exact costFrom_internal ..
    rw [forestCost_perm freq hperm, forestCost_cons, hcost] at hmerge
    rw [forestCost_cons, forestCost_cons]
    omega
  | case2 => exact Nat.le_add_right _ _

/-- The leaves `BUILD` starts from cost nothing yet. -/
theorem forestCost_leafEntries (freq : Table Nat) : forestCost freq (leafEntries freq symbols) = 0 := by
  rw [forestCost_perm freq (leafEntries_perm freq symbols)]
  refine List.sum_eq_zero fun x hx => ?_
  obtain ⟨e, he, rfl⟩ := List.mem_map.1 hx
  obtain ⟨b, -, rfl⟩ := List.mem_map.1 he
  exact Nat.mul_zero _

/-- Settles O21: the depths of the other tree's leaves are a full list for the leaves `BUILD` starts from. -/
theorem builtTreeCostsTheLeast : Obligations.BuiltTreeCostsTheLeast := by
  intro s h
  obtain ⟨e, ord, hm, -, hb⟩ := build_of_two h
  obtain ⟨root, htree, hleaves⟩ := build_tree_of_two h
  refine ⟨s.build, root, rfl, htree, fun other hother => ?_⟩
  obtain rfl : e.node = root := by
    rw [hb] at htree
    exact Option.some.inj htree
  have hcounts : ((leafPairs s.freq other 0).map Prod.fst).Perm
      ((leafEntries s.freq symbols).map (·.weight)) := by
    rw [leafPairs_counts]
    refine ((hother.trans hleaves).map _).trans (.trans (.of_eq ?_) (weights_leafEntries s.freq).symm)
    rw [List.map_map]
    rfl
  have hle := forestCost_mergeForest_le s.freq (n := (leafEntries s.freq symbols).length) (ord := 256)
    ((leafEntries_sorted s.freq symbols_nodup).imp ForestEntry.weight_le_of_before)
    (weighsLeaves_leafEntries s.freq) hcounts (kraftFull_leafPairs s.freq other)
  rw [hm, forestCost_leafEntries, pairsCost_leafPairs, forestCost_cons] at hle
  simpa [forestCost] using hle

end Sys2Proof.Machine

/-! ### `RBIT`, `WBIT` and `WSEEK`: one law per outcome (R81, R84, R87) -/

namespace Sys2Proof.Machine

/-- While the reader holds a bit, `RBIT` takes it (R81). -/
theorem rbit_held {s : State} (h : 0 < s.rdNbits) :
    rbit s = .ok (bitOf s.rdByte (s.rdNbits - 1)) s.takeBit := by
  simpa [h.ne', h] using rbit_cases s

/-- With no bit held and a failing access `RBIT` raises `IOError` (R81, R53). -/
theorem rbit_fails {s : State} (h : s.rdNbits = 0) (hf : s.envFails = true) :
    rbit s = .halted (s.popEnv.faultEntry .ioError) := by
  simpa [h, hf] using rbit_cases s

/-- With no bit held at the end of `IN`, `RBIT` raises `TruncatedContainer` (R81, R152). -/
theorem rbit_end {s : State} (h : s.rdNbits = 0) (hf : s.envFails = false) (hend : s.inPos = s.inLen) :
    rbit s = .halted (s.popEnv.faultEntry .truncatedContainer) := by
  simpa [h, hf, hend] using rbit_cases s

/-- With no bit held and a byte left, `RBIT` fetches the byte and takes its first bit (R81). -/
theorem rbit_fetches {s : State} (h : s.rdNbits = 0) (hf : s.envFails = false) (hlt : s.inPos < s.inLen) :
    rbit s = .ok (bitOf (s.inp.read s.inPos) 7)
      { s.popEnv with
        inPos := s.inPos + 1, rdByte := s.inp.read s.inPos, rdNbits := 7, rdBitcnt := s.rdBitcnt + 1 } := by
  simpa [h, hf, hlt, hlt.ne, hlt.not_gt] using rbit_cases s

theorem exec_rbit (s : State) : exec .rbit s = (rbit s).toStep fun b s => s.setRes b.toNat := rfl

/-- Settles O7: each clause is the law of `RBIT` for that outcome. -/
theorem rbitTakesTheNextBit : Obligations.RbitTakesTheNextBit := fun s =>
  ⟨fun h => by rw [exec_rbit, rbit_held h]; rfl, fun h hf => by rw [exec_rbit, rbit_fails h hf]; rfl,
    fun h hf hend => by rw [exec_rbit, rbit_end h hf hend]; rfl,
    fun h hf hlt => by rw [exec_rbit, rbit_fetches h hf hlt]; rfl⟩

/-- Settles O8: the bit held next is bit RD_BITCNT of the stream, since RD_BITCNT + RD_NBITS = 8 * IN_POS. -/
theorem readerFollowsTheBitString : Obligations.ReaderFollowsTheBitString := by
  refine ⟨fun s op => ⟨rfl, Nat.zero_lt_succ 7, Nat.zero_le _, fun h => absurd h (lt_irrefl 0)⟩, ?_⟩
  rintro s ⟨hcnt, hlt, hpos, hbyte⟩ hf hleft
  rcases Nat.eq_zero_or_pos s.rdNbits with h0 | h0
  · have hin : s.inPos < s.inLen := by omega
    have hdiv : s.rdBitcnt / 8 = s.inPos := by omega
    have hmod : s.rdBitcnt % 8 = 0 := by omega
    rw [exec_rbit, rbit_fetches h0 hf.envFails hin, hdiv, hmod]
    refine ⟨_, rfl, rfl, rfl, ⟨?_, Nat.lt_succ_self 7, hin, fun _ => rfl⟩, rfl⟩
    simp only [State.setRes_rdBitcnt, State.setRes_rdNbits, State.setRes_inPos]
    omega
  · have hdiv : s.rdBitcnt / 8 = s.inPos - 1 := by omega
    have hmod : 7 - s.rdBitcnt % 8 = s.rdNbits - 1 := by omega
    rw [exec_rbit, rbit_held h0, hdiv, hmod, ← hbyte h0]
    refine ⟨_, rfl, rfl, rfl, ⟨?_, ?_, hpos, fun _ => hbyte h0⟩, rfl⟩
    · simp only [State.setRes_rdBitcnt, State.setRes_rdNbits, State.setRes_inPos, State.takeBit_rdBitcnt,
        State.takeBit_rdNbits, State.takeBit_inPos]
      omega
    · simp only [State.setRes_rdNbits, State.takeBit_rdNbits]
      omega

theorem exec_wbit (b : Bool) (s : State) : exec (.wbit b) s = (wbit b s).toStep fun _ s => s := rfl

/-- A bit that completes no byte joins the pending ones (R84). -/
theorem wbit_pending (b : Bool) {s : State} (h : s.wrAcc.length ≠ 7) : wbit b s = .ok () (s.appendBit b) := by
  simpa [h] using wbit_cases b s

/-- The eighth bit completes a byte, which is stored (R84). -/
theorem wbit_stores (b : Bool) {s : State} (h : s.wrAcc.length = 7) (hf : s.envFails = false) :
    wbit b s = .ok () ((s.appendBit b).popEnv.storeOut (byteOfBits (s.wrAcc ++ [b]))).clearAcc := by
  simpa [h, hf] using wbit_cases b s

/-- A failing store leaves the eight bits pending (R84, R156, log entry 10). -/
theorem wbit_fails (b : Bool) {s : State} (h : s.wrAcc.length = 7) (hf : s.envFails = true) :
    wbit b s = .halted ((s.appendBit b).popEnv.faultEntry .ioError) := by
  simpa [h, hf] using wbit_cases b s

/-- Settles O11: each clause is the law of `WBIT` for that outcome; the byte's bits are `bitOf_byteOfBits`. -/
theorem wbitAppendsOneBit : Obligations.WbitAppendsOneBit := by
  refine fun s b => ⟨fun h => ?pending, fun h hf => ?stores, fun h hf => ?fails,
    fun i hi h => bitOf_byteOfBits (by simp [h]) hi⟩
  case pending => rw [exec_wbit, wbit_pending b h]; rfl
  case stores => rw [exec_wbit, wbit_stores b h hf]; rfl
  case fails => rw [exec_wbit, wbit_fails b h hf]; rfl

theorem exec_wseek (a : Nat) (s : State) : exec (.wseek a) s = (wseek a s).toStep fun _ s => s := rfl

theorem wseek_pending (a : Nat) {s : State} (h : s.wrAcc ≠ []) : wseek a s = .refused .seekWithBitsPending :=
  if_neg (by simpa using h)

/-- Settles O14: with nothing pending `WSEEK` sets the byte cursor. -/
theorem wseekMovesTheByteCursor : Obligations.WseekMovesTheByteCursor := fun s a h => by
  rw [exec_wseek, wseek_of_nothing_pending a h]
  rfl

theorem exec_rbits (n : Nat) (s : State) : exec (.rbits n) s = (rbits n s).toStep fun v s => s.setRes v := rfl

theorem exec_wbits (v n : Nat) (s : State) : exec (.wbits v n) s = (wbits v n s).toStep fun _ s => s := rfl

theorem exec_rdsym (limit : Nat) (s : State) :
    exec (.rdsym limit) s = (rdsym limit s).toStep fun v s => s.setRes v.toNat := rfl

/-- Settles O16: each operation tests its domain before anything else. -/
theorem operationsOutsideTheirDomainAreRefused : Obligations.OperationsOutsideTheirDomainAreRefused := by
  refine ⟨fun s n h => ?rbits, fun s v n h => ?wbits, fun s a h => ?wseek, fun s h => ?derive, fun s limit h => ?rdsym⟩
  case rbits => rw [exec_rbits, rbits, if_neg h]; rfl
  case wbits => rw [exec_wbits, wbits, if_neg h]; rfl
  case wseek => rw [exec_wseek, wseek_pending a h]; rfl
  case derive =>
    change execDerive s = _
    rw [execDerive, derive, h]
    rfl
  case rdsym =>
    have hrefused : rdsym limit s = .refused .rdsymOutsideDomain := by
      by_cases hroot : ∃ l r, s.tree = some (.internal l r)
      · obtain ⟨l, r, hroot⟩ := hroot
        have hle := h.resolve_left fun hne => hne l r hroot
        rw [rdsym_of_internal hroot, if_neg (not_lt.2 hle)]
      · exact rdsym_of_not_internal (fun l r e => hroot ⟨l, r, e⟩) limit
    rw [exec_rdsym, hrefused]
    rfl

/-! ### `RBITS` and `WBITS` (R82, R85) -/

section
variable {s t : State} {bs rest : List Bool} {n v : Nat}

/-- What the reader took, in the terms of the statements. -/
theorem reads.consumed (h : reads bs s t) : consumed bs (readerBits t) s t := ⟨h.bits, rfl, h.rdBitcnt⟩

theorem reads.readerOk (h : reads bs s t) : readerOk t := h.ready.2

/-- The result latch is no part of the reader. -/
theorem readOnly.setRes (h : readOnly s t) (n : Nat) : readOnly { s with res := n } (t.setRes n) :=
  congrArg (·.setRes n) h

/-- Settles O9: `RBITS` takes the bits and returns their value. -/
theorem rbitsAssemblesTheNextBits : Obligations.RbitsAssemblesTheNextBits := by
  intro s n bs rest hn hok hf hbits hlen
  obtain ⟨t, hrun, hread, ho⟩ := rbits_runs hn ⟨hf, hok⟩ hbits hlen
  obtain rfl := hread.remaining hbits
  refine ⟨t.setRes (bitsVal bs), ?_, rfl, hlen ▸ bitsVal_lt bs, hread.consumed, hread.readerOk, ho.setRes _⟩
  rw [exec_rbits, hrun, Res.toStep_ok]

/-- The reader's end: what `RBITS` leaves when it asks for more bits than there are (R82, R152). -/
theorem rbitsFrom_runs_out (hr : ready s) (hlt : (readerBits s).length < n) :
    ∃ t, rbitsFrom n v s = .halted (t.faultEntry .truncatedContainer) ∧ reads (readerBits s) s t ∧ readOnly s t := by
  induction n generalizing v s with
  | zero => exact absurd hlt (Nat.not_lt_zero _)
  | succ n ih =>
    cases hbits : readerBits s with
    | nil =>
      refine ⟨s.popEnv, ?_, ⟨hbits.trans hbits.symm, ⟨hr.1.popEnv, hr.2⟩, rfl, rfl⟩, rfl⟩
      rw [rbitsFrom, rbit_at_end hr.1 hr.2 hbits, Res.bind_halted]
    | cons b bs =>
      obtain ⟨t, hbit, hread, ho⟩ := rbit_runs hr hbits
      obtain rfl : readerBits t = bs := hread.remaining hbits
      rw [hbits] at hlt
      obtain ⟨u, hrun, hread', ho'⟩ := ih (v := 2 * v + b.toNat) hread.ready (Nat.lt_of_succ_lt_succ hlt)
      exact ⟨u, by rw [rbitsFrom, hbit, Res.bind_ok, hrun], hread.trans hread', ho.trans ho'⟩

/-- Fault entry is no part of the reader. -/
theorem readOnly.faultEntry (h : readOnly s t) (k : Err) : readOnly (s.faultEntry k) (t.faultEntry k) :=
  congrArg (·.faultEntry k) h

/-- Settles O10: `RBITS` takes what bits there are before it asks for one too many. -/
theorem rbitsRunsOutOfBits : Obligations.RbitsRunsOutOfBits := by
  intro s n hn hok hf hlt
  obtain ⟨t, hrun, hread, ho⟩ := rbitsFrom_runs_out (v := 0) ⟨hf, hok⟩ hlt
  have hnil : readerBits t = [] := hread.remaining (List.append_nil _).symm
  refine ⟨_, ?_, ⟨rfl, rfl, rfl⟩, hnil ▸ hread.consumed, ho.faultEntry _⟩
  rw [exec_rbits, rbits_eq hn, hrun, Res.toStep_halted]

/-- Only the low bits of a number are its bits (R67). -/
theorem bitsN_mod (n v : Nat) : bitsN n (v % 2 ^ n) = bitsN n v := by
  rw [bitsN_eq_map, bitsN_eq_map]
  refine List.map_congr_left fun i hi => ?_
  have hi : i < n := by simpa using hi
  simp [Nat.testBit_mod_two_pow, hi]

end

/-- Settles O12: `WBITS` appends `bitsN` of the value, which are the bits of its low part. -/
theorem wbitsAppendsTheLowBits : Obligations.WbitsAppendsTheLowBits := by
  intro s v n hn hf hacc
  obtain ⟨t, hrun, happ, hpos, henv⟩ := wbitAll_appends (bitsN n v) hf hacc
  refine ⟨⟨t, bitsN n v, ?_, Laws.bitsN_length n v, bitsVal_bitsN n v, happ, hpos, ?_⟩, ?_⟩
  · rw [exec_wbits, wbits_eq hn, hrun, Res.toStep_ok]
  · rw [henv, List.length_append, Laws.bitsN_length]
  · rw [exec_wbits, exec_wbits, wbits_eq hn, wbits_eq hn, bitsN_mod]

/-- Settles O22: `SERIALIZE` appends the serialization of the tree. -/
theorem serializeWritesThePreOrder : Obligations.SerializeWritesThePreOrder := by
  intro s n hf hacc
  obtain ⟨t, hrun, happ, hpos, henv⟩ := wbitAll_appends (serialBits n) hf hacc
  exact ⟨t, by rw [exec_serialize, hrun, Res.toStep_ok], happ, hpos, by rw [henv, List.length_append]⟩

/-! ### `DERIVE`, `COUNT`, `EMIT` and `PATCH` (R115, R132, R136, R137) -/

/-- Settles O27: `WALK` writes the path of each real leaf into the cleared table. -/
theorem deriveGivesRootToLeafPaths : Obligations.DeriveGivesRootToLeafPaths := by
  intro s root htree
  refine ⟨_, exec_derive htree, rfl, fun b hb => ?_, fun hnd b p hp => ?_⟩
  · rw [walkCodes_get_of_notMem _ _ hb, clearCodes, Table.get_mapAll]
  · exact walkCodes_codesPaths [] (clearCodes s.code) hnd b p hp

/-- Every byte is counted once (R132). -/
theorem freqTotal_freqOf (bs : List Byte) : freqTotal (freqOf bs) = bs.length := by
  have hget : (freqOf bs).get = fun b => (bs : Multiset Byte).count b := funext fun b => by
    rw [get_freqOf, Multiset.coe_count, tallies]
  rw [freqTotal, hget, sum_map_symbols,
    Multiset.sum_count_eq_card fun b _ => List.mem_toFinset.2 (mem_symbols b), Multiset.coe_card]

/-- Settles O31: `COUNT` leaves the counts of the bytes of `IN`. -/
theorem countTalliesTheInput : Obligations.CountTalliesTheInput := by
  intro s hf
  refine ⟨{ s with freq := freqOf (inBytes s), inPos := s.inLen, envFail := s.envFail.drop (s.inLen + 1) }, ?_,
    get_freqOf (inBytes s), ?_, rfl⟩
  · change (countIn s).toStep _ = _
    rw [countIn_runs hf, Res.toStep_ok]
  · exact (freqTotal_freqOf _).trans (inBytes_length s)

theorem exec_emit (s : State) : exec .emit s = (emit s).toStep fun _ s => s := rfl

/-- Settles O32: `EMIT` appends the code words of the bytes of `IN`. -/
theorem emitAppendsTheCodeWords : Obligations.EmitAppendsTheCodeWords := by
  intro s hf hacc hv
  obtain ⟨t, hrun, happ, hpos, henv⟩ := emit_runs hf hacc hv
  exact ⟨t, by rw [exec_emit, hrun, Res.toStep_ok], happ, hpos, henv⟩

/-- `t` is `s` but for the writer's registers, `OUT` and the environment's outcomes. -/
abbrev writeOnly (s t : State) : Prop :=
  t = { s with wrAcc := t.wrAcc, wrBitcnt := t.wrBitcnt, out := t.out, outLen := t.outLen, outPos := t.outPos,
               envFail := t.envFail }

theorem writeOnly.trans {s t u : State} (h1 : writeOnly s t) (h2 : writeOnly t u) : writeOnly s u := by
  unfold writeOnly at *
  rw [h1] at h2
  exact h2

/-- While no access fails the writer takes every bit, whatever is pending (R84). -/
theorem wbitAll_completes (bs : List Bool) {s : State} (hf : noFail s) :
    ∃ t, wbitAll bs s = .ok () t ∧ noFail t ∧ writeOnly s t := by
  induction bs generalizing s with
  | nil => exact ⟨s, rfl, hf, rfl⟩
  | cons b bs ih =>
    obtain ⟨t, hbit, hft, ht⟩ : ∃ t, wbit b s = .ok () t ∧ noFail t ∧ writeOnly s t := by
      by_cases h : s.wrAcc.length = 7
      · exact ⟨_, wbit_stores b h hf.envFails, hf.popEnv, rfl⟩
      · exact ⟨_, wbit_pending b h, hf, rfl⟩
    obtain ⟨u, hrun, hfu, hu⟩ := ih hft
    exact ⟨u, by rw [wbitAll, hbit, Res.bind_ok, hrun], hfu, ht.trans hu⟩

/-- While a byte is left of `IN` the read cursor is below its end. -/
theorem inPos_lt_of_drop_inBytes {s : State} {b : Byte} {bs : List Byte} (h : (inBytes s).drop s.inPos = b :: bs) :
    s.inPos < s.inLen := by
  have hlen := congrArg List.length h
  rw [List.length_drop, inBytes_length, List.length_cons] at hlen
  omega

/-- The loop of `EMIT` is refused at the first byte without a code word (U7, log entry 13). -/
theorem emitLoop_refused {n : Nat} {s : State} {before after : List Byte} {b : Byte} (hf : noFail s)
    (hin : (inBytes s).drop s.inPos = before ++ b :: after) (hn : before.length < n)
    (hv : ∀ c ∈ before, (s.code.get c).valid = true) (hb : (s.code.get b).valid = false) :
    emitLoop n s = .refused (.emitWithoutCode b) := by
  induction before generalizing n s with
  | nil =>
    have hlt := inPos_lt_of_drop_inBytes hin
    obtain ⟨rfl, -⟩ := List.cons.inj ((drop_inBytes hlt).symm.trans hin)
    obtain ⟨n, rfl⟩ := Nat.exists_eq_succ_of_ne_zero hn.ne'
    have hnot : emitSymbol (s.inp.read s.inPos) s.nextByte = .refused (.emitWithoutCode (s.inp.read s.inPos)) :=
      if_neg fun hvalid => Bool.false_ne_true (hb.symm.trans hvalid)
    rw [emitLoop, inbyte_nextByte hf hlt, Res.bind_ok]
    exact congrArg (Res.bind · _) hnot
  | cons c before ih =>
    have hlt := inPos_lt_of_drop_inBytes hin
    obtain ⟨rfl, hrest⟩ := List.cons.inj ((drop_inBytes hlt).symm.trans hin)
    obtain ⟨n, rfl⟩ := Nat.exists_eq_succ_of_ne_zero (Nat.ne_zero_of_lt hn)
    obtain ⟨hc, hv⟩ := List.forall_mem_cons.1 hv
    obtain ⟨t, hrun, hft, ht⟩ := wbitAll_completes (s.code.get (s.inp.read s.inPos)).bits (s := s.nextByte) hf.popEnv
    have hput : emitSymbol (s.inp.read s.inPos) s.nextByte = .ok () t := (if_pos hc).trans hrun
    have hcode : t.code = s.code := by rw [ht]; rfl
    have hbytes : inBytes t = inBytes s := inBytes_congr (by rw [ht]; rfl) (by rw [ht]; rfl)
    have hpos : t.inPos = s.inPos + 1 := by rw [ht]; rfl
    rw [emitLoop, inbyte_nextByte hf hlt, Res.bind_ok]
    refine (congrArg (Res.bind · fun _ s => emitLoop n s) hput).trans
      (ih hft ?_ (Nat.lt_of_succ_lt_succ hn) (by rwa [hcode]) (by rwa [hcode]))
    rw [hbytes, hpos]
    exact hrest

/-- Settles O33: the loop goes on over bytes with a code word and stops at the first without. -/
theorem emitRefusesAByteWithoutCode : Obligations.EmitRefusesAByteWithoutCode := by
  intro s before after b hf hin hv hb
  have hlen : before.length < s.inLen + 1 := by
    have := congrArg List.length hin
    rw [inBytes_length, List.length_append] at this
    omega
  have hrun : emit s = .refused (.emitWithoutCode b) :=
    emitLoop_refused (s := { s with inPos := 0 }) hf hin hlen hv hb
  rw [exec_emit, hrun]
  rfl

/-- The bits of a number are those above and those below a place (R67). -/
theorem bitsN_add (m n v : Nat) : bitsN (m + n) v = bitsN m (v / 2 ^ n) ++ bitsN n v := by
  induction m with
  | zero => rw [Nat.zero_add]; rfl
  | succ m ih => rw [Nat.succ_add, bitsN, bitsN, ih, Nat.testBit_div_two_pow, List.cons_append]

theorem byteOfBits_bitsN (v : Nat) : byteOfBits (bitsN 8 v) = BitVec.ofNat 8 v := by
  have hpad : bitsN 8 v ++ List.replicate (8 - (bitsN 8 v).length) false = bitsN 8 v := by
    simp [Laws.bitsN_length]
  apply BitVec.eq_of_toNat_eq
  rw [byteOfBits, hpad, bitsVal_bitsN, BitVec.toNat_ofNat, BitVec.toNat_ofNat, Nat.mod_mod]

/-- A 32-bit field is stored big-endian (R42). -/
theorem packedByte_field (v : Nat) (rest : List Bool) {a : Nat} (h : a < 4) :
    packedByte (bitsN 32 v ++ rest) a = BitVec.ofNat 8 (v / 2 ^ (8 * (3 - a))) := by
  have hsplit : bitsN 32 v =
      bitsN (8 * a) (v / 2 ^ (32 - 8 * a)) ++ (bitsN 8 (v / 2 ^ (8 * (3 - a))) ++ bitsN (8 * (3 - a)) v) := by
    have hlow : 8 + 8 * (3 - a) = 32 - 8 * a := by omega
    have hall : 8 * a + (32 - 8 * a) = 32 := by omega
    rw [← bitsN_add, hlow, ← bitsN_add, hall]
  rw [packedByte, hsplit, List.append_assoc, List.drop_left' (Laws.bitsN_length _ _), List.append_assoc,
    List.take_left' (Laws.bitsN_length _ _), byteOfBits_bitsN]

/-- The eight bytes of a header (R42, R61). -/
theorem packedByte_headerBits (tb db : Nat) {a : Nat} (h : a < 8) :
    packedByte (headerBits tb db) a =
      if a < 4 then BitVec.ofNat 8 (tb / 2 ^ (8 * (3 - a))) else BitVec.ofNat 8 (db / 2 ^ (8 * (7 - a))) := by
  split
  next h4 => exact packedByte_field tb _ h4
  next h4 =>
    obtain ⟨i, rfl⟩ := Nat.exists_eq_add_of_le (not_lt.1 h4)
    have hdrop : (headerBits tb db).drop (8 * 4) = bitsN 32 db ++ [] :=
      (List.drop_left' (Laws.bitsN_length 32 tb)).trans (List.append_nil _).symm
    have hi : 7 - (4 + i) = 3 - i := by omega
    rw [← packedByte_drop, hdrop, packedByte_field db [] (by omega), hi]

/-- Settles O34: what `PATCH` leaves, with the header's bytes written out. -/
theorem patchWritesTheHeader : Obligations.PatchWritesTheHeader := by
  intro s tb db hf _ _ _
  obtain ⟨t, hrun, ht, hout⟩ := patch_runs tb db hf
  refine ⟨t, ?_, fun a => ?_, ht⟩
  · change (patch tb db s).toStep _ = _
    rw [hrun, Res.toStep_ok]
  · rw [hout a]
    by_cases h8 : a < 8
    · rw [if_pos h8, packedByte_headerBits tb db h8]
      simp only [h8, if_true]
    · have h4 : ¬ a < 4 := by omega
      simp only [h8, h4, if_false]

/-! ### The host's actions while a command runs and while none does (R130, R181) -/

/-- Settles O46: a block that is not `BUSY`, with nothing latched and a silent host, has no move. -/
theorem haltedBlockStaysStill : Obligations.HaltedBlockStaysStill := by
  intro s hs hir hq
  simp only [step_of_silent hq, advance, hir, hs, if_false]

theorem ofNat_one_eq_zero_iff (v : Nat) : BitVec.ofNat 1 v = 0#1 ↔ v % 2 = 0 := by
  rw [← BitVec.toNat_inj, BitVec.toNat_ofNat, pow_one]
  rfl

/-- Settles O47: the write starts the command that bit 0 of the value names, and `BUSY` ignores it. -/
theorem startBeginsACommand : Obligations.StartBeginsACommand := by
  intro s v q h
  rw [step_of_hostQ_cons h, hostAct, writeReg_ctrl, start]
  refine ⟨fun hs => congrArg _ (if_pos hs), fun hs => congrArg _ ((if_neg hs).trans ?_)⟩
  simp only [State.begin, ofNat_one_eq_zero_iff]
  rfl

/-- Settles O50: each action of the host on the streams tests `STATUS` first. -/
theorem hostKeepsOffWhileBusy : Obligations.HostKeepsOffWhileBusy := by
  refine fun s q a v => ⟨fun hs => ⟨?_, ?_, ?_, ?_⟩, fun hs => ⟨?_, ?_, fun h ha => ?readOut⟩⟩
  case readOut =>
    rw [step_of_hostQ_cons h]
    exact (if_neg hs).trans (if_pos ha)
  all_goals
    intro h
    rw [step_of_hostQ_cons h]
  · exact if_pos hs
  · exact if_pos hs
  · exact if_pos hs
  · exact if_pos hs
  · exact if_neg hs
  · exact if_neg hs

/-- Settles O53: the reset state is given. -/
theorem invariantHoldsAtReset : Obligations.InvariantHoldsAtReset :=
  ⟨⟨State.reset_wf.1, State.reset_wf.2, ⟨rfl, rfl⟩, .inl (Nat.zero_le 7), Nat.zero_le 7⟩, rfl, rfl, rfl⟩

/-- Settles O60: the operation `PAD` has no effect (R66, R72 (a)). -/
theorem paddingIsNeverRead : Obligations.PaddingIsNeverRead := fun _ => rfl

end Sys2Proof.Machine

/-! ### The walk along a path (R117, R65) -/

namespace Sys2Proof.Machine

section
variable {s t : State} {rest : List Bool} {limit : Nat} {v : Byte} {flag : Bool} {l r : Node}

/-- The node a bit leads to. -/
theorem nodeAt_cons (b : Bool) (p : List Bool) (l r : Node) :
    nodeAt (b :: p) (.internal l r) = nodeAt p (if b then r else l) := by
  cases b <;> rfl

/-- One turn of the loop of `RDSYM` (R117). -/
theorem walkSymbol_internal (l r : Node) (limit : Nat) (s : State) :
    walkSymbol (.internal l r) limit s =
      if s.rdBitcnt = limit then raise .invalidHeader s
      else (rbit s).bind fun b s =>
        walkSymbol (if b then r else l) limit { s with cur := if b then r else l } := by
  rw [walkSymbol]
  congr 2
  funext b u
  cases b <;> rfl

/-- The walk takes the bits of a path and stands on the node it leads to (R117). -/
theorem walkSymbol_along {n m : Node} {p : List Bool} (hr : ready s) (hcur : s.cur = n) (hp : nodeAt p n = some m)
    (hbits : readerBits s = p ++ rest) (hle : s.rdBitcnt + p.length ≤ limit) :
    ∃ t, walkSymbol n limit s = walkSymbol m limit t ∧ reads p s t ∧ readOnly { s with cur := m } t := by
  induction p generalizing n s with
  | nil =>
    obtain rfl : n = m := Option.some.inj hp
    refine ⟨s, rfl, .refl hr, ?_⟩
    rw [← hcur]
  | cons b p ih =>
    cases n with
    | leaf sym flag => exact absurd (nodeAt_leaf.1 hp).1 (List.cons_ne_nil _ _)
    | internal l r =>
      rw [nodeAt_cons] at hp
      rw [List.length_cons] at hle
      obtain ⟨u, hbit, hread, ho⟩ := rbit_runs hr hbits
      have hcnt := hread.rdBitcnt
      rw [List.length_singleton] at hcnt
      obtain ⟨t, hrun, hread', ho'⟩ := ih (s := { u with cur := if b then r else l }) hread.ready rfl hp
        (hread.remaining (rest := p ++ rest) hbits) (by change u.rdBitcnt + _ ≤ _; omega)
      refine ⟨t, ?_, hread.trans hread', ?_⟩
      · rw [walkSymbol_internal, if_neg (by omega), hbit, Res.bind_ok, hrun]
      · have hm := congrArg (fun x : State => { x with cur := m }) ho
        exact readOnly.trans hm ho'

theorem rdsym_along {m : Node} {p : List Bool} (hr : ready s) (htree : s.tree = some (.internal l r))
    (hp : nodeAt p (.internal l r) = some m) (hbits : readerBits s = p ++ rest) (hlt : s.rdBitcnt < limit)
    (hle : s.rdBitcnt + p.length ≤ limit) :
    ∃ t, rdsym limit s = walkSymbol m limit t ∧ reads p s t ∧ readOnly { s with cur := m } t := by
  rw [rdsym_of_internal htree, if_pos hlt]
  exact walkSymbol_along (s := { s with cur := .internal l r }) hr rfl hp hbits hle

/-- Settles O29: the walk along a path to a leaf returns its symbol. -/
theorem rdsymWalksToALeaf : Obligations.RdsymWalksToALeaf := by
  intro s l r p rest v flag limit htree hp hok hf hbits hle
  have hpos : 0 < p.length := List.length_pos_of_ne_nil (by rintro rfl; cases hp)
  obtain ⟨t, hrun, hread, ho⟩ := rdsym_along ⟨hf, hok⟩ htree hp hbits (by omega) hle
  obtain rfl := hread.remaining hbits
  refine ⟨t.setRes v.toNat, ?_, rfl, hread.consumed, hread.readerOk, ho.setRes _⟩
  rw [exec_rdsym, hrun, walkSymbol, Res.toStep_ok]

/-- Settles O30: on an internal node the walk tests for the end of the payload, then asks for a bit. -/
theorem rdsymStopsInsideACodeWord : Obligations.RdsymStopsInsideACodeWord := by
  intro s l r l' r' p rest limit htree hp hok hf hbits hlt
  refine ⟨fun hend => ?payload, fun hlt' hnil => ?input⟩
  case payload =>
    obtain ⟨t, hrun, hread, ho⟩ := rdsym_along ⟨hf, hok⟩ htree hp hbits hlt hend.le
    obtain rfl := hread.remaining hbits
    refine ⟨t.faultEntry .invalidHeader, ?_, ⟨rfl, rfl, rfl⟩, hread.consumed, ho.faultEntry _⟩
    rw [exec_rdsym, hrun, walkSymbol_internal, if_pos (hread.rdBitcnt.trans hend)]
    rfl
  case input =>
    subst hnil
    obtain ⟨t, hrun, hread, ho⟩ := rdsym_along ⟨hf, hok⟩ htree hp hbits hlt hlt'.le
    have hempty := hread.remaining hbits
    have hne : t.rdBitcnt ≠ limit := (hread.rdBitcnt.trans_lt hlt').ne
    have hpop : readOnly t t.popEnv := rfl
    refine ⟨t.popEnv.faultEntry .truncatedContainer, ?_, ⟨rfl, rfl, rfl⟩, ⟨hbits, hempty, hread.rdBitcnt⟩,
      (ho.trans hpop).faultEntry _⟩
    rw [exec_rdsym, hrun, walkSymbol_internal, if_neg hne, rbit_at_end hread.ready.1 hread.readerOk hempty]
    rfl

/-! ### Records run as operations of their own (log entry 8) -/

/-- A record of the container passes the reader over its bits. -/
theorem skipBits_runs {bs : List Bool} (hr : ready s) (hbits : readerBits s = bs ++ rest) :
    ∃ t, skipBits bs.length s = .ok () t ∧ reads bs s t ∧ readOnly s t := by
  induction bs generalizing s with
  | nil => exact ⟨s, rfl, .refl hr, rfl⟩
  | cons b bs ih =>
    obtain ⟨t, hbit, hread, ho⟩ := rbit_runs hr hbits
    obtain ⟨u, hrun, hread', ho'⟩ := ih hread.ready (hread.remaining (rest := bs ++ rest) hbits)
    exact ⟨u, by rw [List.length_cons, skipBits, hbit, Res.bind_ok, hrun], hread.trans hread', ho.trans ho'⟩

/-- Settles O56: a header record takes its 32 bits and then sets its latches. -/
theorem headerRecordsAreLatched : Obligations.HeaderRecordsAreLatched := by
  intro s v rest hok hf hbits
  obtain ⟨t, hrun, hread, ho⟩ := skipBits_runs ⟨hf, hok⟩ hbits
  rw [Laws.bitsN_length] at hrun
  obtain rfl := hread.remaining hbits
  refine ⟨⟨{ t with tb := v.toNat }, ?_, hread.consumed, hread.readerOk, ?_⟩,
    ⟨{ t with db := v.toNat, hdrTree := BitVec.ofNat 32 t.tb, hdrData := v }, ?_, hread.consumed, hread.readerOk, ?_⟩⟩
  · change (skipBits 32 s).toStep _ = _
    rw [hrun, Res.toStep_ok]
  · exact congrArg (fun x : State => { x with tb := v.toNat }) ho
  · change (skipBits 32 s).toStep _ = _
    rw [hrun, Res.toStep_ok]
  · exact congrArg (fun x : State => { x with db := v.toNat, hdrTree := BitVec.ofNat 32 x.tb, hdrData := v }) ho

/-- The node a bit of a code word is taken at: `CUR`, or the root after a code word (R65). -/
theorem pathNode_eq
    (h : s.cur = .internal l r ∨ (∃ v flag, s.cur = .leaf v flag) ∧ s.tree = some (.internal l r)) :
    pathNode s = some (l, r) := by
  rcases h with h | ⟨⟨v, flag, h⟩, htree⟩
  · rw [pathNode, h]
  · rw [pathNode, h, htree]

theorem exec_path (b : Bool) (s : State) :
    exec (if b then .pathRight else .pathLeft) s = (pathStep b s).toStep fun _ s => s := by
  cases b <;> rfl

/-- Settles O59: a bit of a code word is one turn of the loop of `RDSYM`. -/
theorem pathBitsMoveTheWalker : Obligations.PathBitsMoveTheWalker := by
  intro s l r b rest hok hf hnode hbits
  rw [exec_path, pathStep, pathNode_eq hnode]
  refine ⟨fun hne => ?_, fun hend => ?_⟩
  · obtain ⟨t, hbit, hread, ho⟩ := rbit_runs ⟨hf, hok⟩ hbits
    obtain rfl : readerBits t = rest := hread.remaining hbits
    refine ⟨{ t with cur := if b then r else l }, ?_, hread.consumed, hread.readerOk,
      congrArg (fun x : State => { x with cur := if b then r else l }) ho⟩
    simp only [hne, if_false, hbit, Res.bind_ok, Res.toStep_ok]
  · exact congrArg (Res.toStep · fun _ s => s) (if_pos hend)

end

end Sys2Proof.Machine

/-! ### Node records, one by one and in `DESERIALIZE` (R63, R112, R113) -/

namespace Sys2Proof.Machine

section
variable {s t u : State} {b : Bool} {bs rest : List Bool} {k : Nat}

theorem nodeFlag_eq (hrun : rbit s = .ok b u) (ho : readOnly s u) :
    nodeFlag s =
      if s.nodeCap < s.countNode.nodeCnt then raise .capacityExceeded u.countNode else .ok b u.countNode := by
  have hcnt : u.countNode.nodeCnt = s.countNode.nodeCnt := by rw [ho]; rfl
  rw [nodeFlag, hrun, Res.bind_ok, ← hcnt, ← nodeCap_of_held ho.held]
  rfl

theorem readOnly.countNode (h : readOnly s u) : readOnly s.countNode u.countNode := by
  have hc := congrArg State.countNode h
  exact hc

/-- A node record within NODE_CAP begins: its flag bit is taken and it is counted (R112). -/
theorem nodeFlag_counts (hr : ready s) (hbits : readerBits s = b :: rest) (hcap : s.countNode.nodeCnt ≤ s.nodeCap) :
    ∃ t, nodeFlag s = .ok b t ∧ reads [b] s t ∧ readOnly s.countNode t := by
  obtain ⟨u, hbit, hread, ho⟩ := rbit_runs hr hbits
  exact ⟨u.countNode, (nodeFlag_eq hbit ho).trans (if_neg (not_lt.2 hcap)), hread, ho.countNode⟩

/-- A node record beyond NODE_CAP ends in `CapacityExceeded` once its flag bit is taken (R113). -/
theorem nodeFlag_exceeds (hr : ready s) (hbits : readerBits s = b :: rest) (hcap : s.nodeCap < s.countNode.nodeCnt) :
    ∃ t, nodeFlag s = .halted (t.faultEntry .capacityExceeded) ∧ reads [b] s t ∧ readOnly s.countNode t := by
  obtain ⟨u, hbit, hread, ho⟩ := rbit_runs hr hbits
  exact ⟨u.countNode, (nodeFlag_eq hbit ho).trans (if_pos hcap), hread, ho.countNode⟩

/-- A node record of which no bit is left (R112, R152). -/
theorem nodeFlag_at_end (hr : ready s) (hbits : readerBits s = []) :
    nodeFlag s = .halted (s.popEnv.faultEntry .truncatedContainer) := by
  rw [nodeFlag, rbit_at_end hr.1 hr.2 hbits, Res.bind_halted]

/-- `RBITS` passes the reader over its bits. -/
theorem skipBits_of_rbitsFrom {n v w : Nat} (hrun : rbitsFrom n v s = .ok w t) : skipBits n s = .ok () t := by
  induction n generalizing v s with
  | zero =>
    obtain ⟨-, rfl⟩ := Res.ok.inj hrun
    rfl
  | succ n ih =>
    obtain ⟨b, u, hbit, hrun⟩ := Res.bind_eq_ok.1 hrun
    rw [skipBits, hbit, Res.bind_ok, ih hrun]

/-- A leaf record within NODE_CAP takes its nine bits, in `DESERIALIZE` as alone (R63, R112). -/
theorem leafRecord_runs {sym : Byte} (hr : ready s) (hbits : readerBits s = false :: (byteBits sym ++ rest))
    (hcap : s.countNode.nodeCnt ≤ s.nodeCap) :
    ∃ u t, nodeFlag s = .ok false u ∧ rbits Config.symW u = .ok (bitsVal (byteBits sym)) t ∧
      skipBits Config.symW u = .ok () t ∧ reads (false :: byteBits sym) s t ∧ readOnly s.countNode t := by
  have hn : countOk Config.symW := by decide
  obtain ⟨u, hflag, hread, ho⟩ := nodeFlag_counts hr hbits hcap
  obtain ⟨t, hsym, hread', ho'⟩ := rbits_runs hn hread.ready (hread.remaining hbits) (byteBits_length sym)
  exact ⟨u, t, hflag, hsym, skipBits_of_rbitsFrom ((rbits_eq hn u).symm.trans hsym), hread.trans hread', ho.trans ho'⟩

/-- What a complete node changes (R112). -/
theorem closeNode_eq (s : State) (n : Node) :
    s.closeNode n =
      { s with
        stack := (closeFrames s.stack n).1
        tree := (closeFrames s.stack n).2.orElse fun _ => s.tree } := by
  rw [State.closeNode]
  cases (closeFrames s.stack n).2 <;> rfl

theorem readOnly.closeNode (h : readOnly s t) (n : Node) : readOnly (s.closeNode n) (t.closeNode n) := by
  have hc := congrArg (·.closeNode n) h
  exact hc

/-- An internal record alone (R63, log entry 8). -/
theorem exec_nodeInternal (s : State) : exec .nodeInternal s = (nodeFlag s).toStep fun _ s => s.openNode := rfl

/-- A leaf record alone (R63, log entry 8). -/
theorem exec_nodeLeaf (sym : Byte) (s : State) :
    exec (.nodeLeaf sym) s =
      ((nodeFlag s).bind fun _ s => skipBits Config.symW s).toStep fun _ s => s.closeNode (.leaf sym false) := rfl

theorem exec_nodeInternal_runs (hr : ready s) (hbits : readerBits s = true :: rest)
    (hcap : s.countNode.nodeCnt ≤ s.nodeCap) :
    ∃ t, exec .nodeInternal s = .next t ∧ reads [true] s t ∧ readOnly s.countNode.openNode t := by
  obtain ⟨t, hflag, hread, ho⟩ := nodeFlag_counts hr hbits hcap
  exact ⟨t.openNode, by rw [exec_nodeInternal, hflag, Res.toStep_ok], hread, congrArg State.openNode ho⟩

theorem exec_nodeLeaf_runs {sym : Byte} (hr : ready s) (hbits : readerBits s = false :: (byteBits sym ++ rest))
    (hcap : s.countNode.nodeCnt ≤ s.nodeCap) :
    ∃ t, exec (.nodeLeaf sym) s = .next t ∧ reads (false :: byteBits sym) s t ∧
      readOnly (s.countNode.closeNode (.leaf sym false)) t := by
  obtain ⟨u, t, hflag, -, hskip, hread, ho⟩ := leafRecord_runs hr hbits hcap
  exact ⟨t.closeNode _, by rw [exec_nodeLeaf, hflag, Res.bind_ok, hskip, Res.toStep_ok], hread, ho.closeNode _⟩

/-- Settles O57: a record is its flag bit and count, then the node it opens or completes. -/
theorem nodeRecordsBuildTheTree : Obligations.NodeRecordsBuildTheTree := by
  intro s sym rest hok hf
  refine ⟨fun hbits hcap => ?internal, fun hbits hcap => ?leaf, fun b hbits hcap => ?exceeds⟩
  case internal =>
    obtain ⟨t, hrun, hread, ho⟩ := exec_nodeInternal_runs ⟨hf, hok⟩ hbits hcap
    obtain rfl : readerBits t = rest := hread.remaining hbits
    exact ⟨t, hrun, hread.consumed, hread.readerOk, ho⟩
  case leaf =>
    obtain ⟨t, hrun, hread, ho⟩ := exec_nodeLeaf_runs ⟨hf, hok⟩ hbits hcap
    obtain rfl : readerBits t = rest := hread.remaining hbits
    rw [closeNode_eq] at ho
    exact ⟨t, hrun, hread.consumed, hread.readerOk, ho⟩
  case exceeds =>
    obtain ⟨t, hflag, hread, ho⟩ := nodeFlag_exceeds ⟨hf, hok⟩ hbits hcap
    obtain rfl : readerBits t = rest := hread.remaining hbits
    refine ⟨t.faultEntry .capacityExceeded, ?_, ⟨rfl, rfl, rfl⟩, hread.consumed, ho.stack, ho.tree⟩
    cases b
    · rw [if_neg Bool.false_ne_true, exec_nodeLeaf, hflag]
      rfl
    · rw [if_pos rfl, exec_nodeInternal, hflag]
      rfl

/-! ### The records of a whole tree (R62, R112) -/

/-- The state with a complete node read as the records of `n` (R112). -/
def State.readNode (s : State) (n : Node) : State :=
  { s.closeNode (plainTree n) with nodeCnt := s.nodeCnt + nodeCount n }

/-- The records of a tree read within NODE_CAP, in the loop of `DESERIALIZE` and one by one (R112). -/
theorem readNode_runs (n : Node) (hr : ready s) (hzero : countsFromZero s)
    (hcap : s.nodeCnt + nodeCount n ≤ s.nodeCap) (hbits : readerBits s = serialBits n ++ rest) :
    ∃ t, (∀ k, nodeRecords (k + nodeCount n) s = if t.stack = [] then .ok () t else nodeRecords k t) ∧
      (∀ is, execAll (treeRecords n ++ is) s = execAll is t) ∧ reads (serialBits n) s t ∧ readOnly (s.readNode n) t := by
  have hcount : s.countNode.nodeCnt = s.nodeCnt + 1 := congrArg State.nodeCnt (countNode_eq hzero)
  induction n generalizing s rest with
  | leaf sym flag =>
    have hcap : s.countNode.nodeCnt ≤ s.nodeCap := hcount.trans_le hcap
    obtain ⟨u, t, hflag, hsym, hskip, hread, ho⟩ := leafRecord_runs hr hbits hcap
    refine ⟨t.closeNode (.leaf sym false), fun k => ?_, fun is => ?_, hread, ?_⟩
    · rw [nodeCount, nodeRecords, hflag, Res.bind_ok, if_neg Bool.false_ne_true, hsym, Res.bind_ok,
        ofNat_bitsVal_byteBits]
    · have hrun : exec (.nodeLeaf sym) s = .next (t.closeNode (.leaf sym false)) := by
        rw [exec_nodeLeaf, hflag, Res.bind_ok, hskip, Res.toStep_ok]
      rw [treeRecords, List.singleton_append, execAll, hrun]
    · have hc := ho.closeNode (.leaf sym false)
      rw [countNode_eq hzero] at hc
      exact hc
  | internal l r ihl ihr =>
    simp only [nodeCount] at hcap
    obtain ⟨u, hflag, hread, ho⟩ := nodeFlag_counts hr (b := true) (rest := serialBits l ++ (serialBits r ++ rest))
      (hbits.trans (by simp [serialBits])) (by omega)
    have hucap : u.nodeCap = s.nodeCap := by rw [ho]; rfl
    have hucnt : u.nodeCnt = s.nodeCnt + 1 := ho.nodeCnt.trans hcount
    have hubits := hread.remaining (rest := serialBits l ++ (serialBits r ++ rest)) (hbits.trans (by simp [serialBits]))
    obtain ⟨v, hl, hlexec, hlread, hlo⟩ := ihl (s := u.openNode) hread.ready (fun h => absurd h (List.cons_ne_nil _ _))
      (by simp only [State.openNode_nodeCnt, State.openNode_nodeCap]; omega) hubits
      (by simp [State.countNode])
    have hvstack : v.stack ≠ [] := by
      rw [hlo]
      exact List.cons_ne_nil _ _
    have hvcap : v.nodeCap = s.nodeCap := by rw [hlo]; exact hucap
    have hvcnt : v.nodeCnt = s.nodeCnt + 1 + nodeCount l := by rw [hlo, ← hucnt]; rfl
    obtain ⟨w, hr', hrexec, hrread, hro⟩ := ihr (s := v) hlread.ready (fun h => absurd h hvstack)
      (by omega) (hlread.remaining hubits) (by simp [State.countNode, hvstack])
    refine ⟨w, fun k => ?_, fun is => ?_, hread.trans (hlread.trans hrread), ?_⟩
    · have hfuel : k + nodeCount (.internal l r) = k + nodeCount r + nodeCount l + 1 := by
        simp only [nodeCount]
        omega
      rw [hfuel, nodeRecords, hflag, Res.bind_ok, if_pos rfl, hl, if_neg hvstack, hr']
    · have hrun : exec .nodeInternal s = .next u.openNode := by
        rw [exec_nodeInternal, hflag, Res.toStep_ok]
      simp only [treeRecords, List.cons_append, execAll, hrun, List.append_assoc, hlexec, hrexec]
    · have h1 : readOnly (s.countNode.openNode.readNode l) (u.openNode.readNode l) :=
        congrArg (fun x : State => x.openNode.readNode l) ho
      have h2 : readOnly ((s.countNode.openNode.readNode l).readNode r) (v.readNode r) :=
        congrArg (fun x : State => x.readNode r) (h1.trans hlo)
      have htwo : (s.countNode.openNode.readNode l).readNode r = s.readNode (.internal l r) := by
        have hsum : s.nodeCnt + 1 + nodeCount l + nodeCount r = s.nodeCnt + nodeCount (.internal l r) := by
          simp only [nodeCount]
          omega
        rw [State.readNode.eq_def s, ← hsum, countNode_eq hzero]
        rfl
      rw [← htwo]
      exact h2.trans hro

/-- The state `DESERIALIZE` starts from (R112). -/
def State.noRecords (s : State) : State := { s with stack := [], nodeCnt := 0 }

/-- `DESERIALIZE` of a tree within NODE_CAP, in the loop and record by record (R112). -/
theorem deserialize_tree {n : Node} (hr : ready s) (hcap : nodeCount n ≤ s.nodeCap)
    (hbits : readerBits s = serialBits n ++ rest) :
    ∃ t, deserialize s = .ok () t ∧ execAll (treeRecords n) s.noRecords = .next t ∧ reads (serialBits n) s t ∧
      readOnly { s with tree := some (plainTree n), stack := [], nodeCnt := nodeCount n } t := by
  obtain ⟨k, hk⟩ := Nat.exists_eq_add_of_le' (Nat.le_succ_of_le hcap)
  obtain ⟨t, hrun, hexec, hread, ho⟩ := readNode_runs n (s := s.noRecords) hr (fun _ => rfl)
    ((Nat.zero_add _).trans_le hcap) hbits
  have hnode : s.noRecords.readNode n =
      { s with tree := some (plainTree n), stack := [], nodeCnt := nodeCount n } := by
    have hcnt : s.noRecords.nodeCnt + nodeCount n = nodeCount n := Nat.zero_add _
    rw [State.readNode, hcnt]
    rfl
  rw [hnode] at ho
  refine ⟨t, ?_, ?_, hread, ho⟩
  · exact (congrArg (nodeRecords · s.noRecords) hk).trans ((hrun k).trans (if_pos ho.stack))
  · have hall := hexec []
    rw [List.append_nil] at hall
    exact hall

theorem exec_deserialize (s : State) : exec .deserialize s = (deserialize s).toStep fun _ s => s := rfl

/-- Settles O24: the records of a serialized tree are read as the tree. -/
theorem deserializeInvertsSerialize : Obligations.DeserializeInvertsSerialize := by
  intro s n rest hok hf hcap hbits
  obtain ⟨t, hrun, -, hread, ho⟩ := deserialize_tree ⟨hf, hok⟩ hcap hbits
  obtain rfl := hread.remaining hbits
  have htree : t.tree = some (plainTree n) := ho.tree
  refine ⟨t, by rw [exec_deserialize, hrun, Res.toStep_ok], htree, hread.consumed, hread.readerOk, ?_⟩
  rw [htree]
  exact ho

/-- Settles O58: both runs read the tree alike. -/
theorem recordsOfATreeMakeDeserialize : Obligations.RecordsOfATreeMakeDeserialize := by
  intro s n rest hok hf hcap hbits
  obtain ⟨t, hrun, hexec, -, -⟩ := deserialize_tree ⟨hf, hok⟩ hcap hbits
  exact ⟨t, hexec, by rw [exec_deserialize, hrun, Res.toStep_ok]⟩

/-! ### Trees that `DESERIALIZE` does not read to their end (R113, R152) -/

/-- `t` is `s` but for the reader's registers, the open nodes and their number: no root is complete. -/
abbrev recordsOnly (s t : State) : Prop := readOnly { s with stack := t.stack, nodeCnt := t.nodeCnt } t

theorem recordsOnly.trans (h1 : recordsOnly s t) (h2 : recordsOnly t u) : recordsOnly s u := by
  have h := congrArg (fun x : State => { x with stack := u.stack, nodeCnt := u.nodeCnt }) h1
  exact readOnly.trans h h2

theorem recordsOnly_of_countNode (h : readOnly s.countNode u) : recordsOnly s u := by
  have hstack : u.stack = s.stack := h.stack
  rw [recordsOnly, hstack, h.nodeCnt]
  exact h

theorem recordsOnly.openNode (h : recordsOnly s u) : recordsOnly s u.openNode := by
  have ho := congrArg State.openNode h
  exact ho

/-- After the left child of an open node its right child is to be read, and no root is complete. -/
theorem recordsOnly_of_left {l : Node} (h : readOnly (u.openNode.readNode l) t) :
    t.stack ≠ [] ∧ recordsOnly u t ∧ t.nodeCnt = u.nodeCnt + nodeCount l := by
  have hstack : t.stack = .needRight (plainTree l) :: u.stack := h.stack
  refine ⟨by rw [hstack]; exact List.cons_ne_nil _ _, ?_, h.nodeCnt⟩
  rw [recordsOnly, hstack, h.nodeCnt]
  exact h

/-- The record after NODE_CAP others ends the loop (R113). -/
theorem nodeRecords_full (hr : ready s) (hzero : countsFromZero s) (hfull : s.nodeCnt = s.nodeCap)
    (hbits : readerBits s = b :: rest) :
    ∃ t, nodeRecords (k + 1) s = .halted (t.faultEntry .capacityExceeded) ∧ t.nodeCnt = s.nodeCap + 1 ∧
      recordsOnly s t := by
  have hcount : s.countNode.nodeCnt = s.nodeCnt + 1 := congrArg State.nodeCnt (countNode_eq hzero)
  obtain ⟨t, hflag, -, ho⟩ := nodeFlag_exceeds hr hbits (by omega)
  exact ⟨t, by rw [nodeRecords, hflag, Res.bind_halted], by rw [ho.nodeCnt, hcount, hfull], recordsOnly_of_countNode ho⟩

/-- A tree of too many nodes ends the loop at record NODE_CAP + 1 (R113). -/
theorem nodeRecords_exceeds (n : Node) (hr : ready s) (hzero : countsFromZero s) (hle : s.nodeCnt ≤ s.nodeCap)
    (hover : s.nodeCap < s.nodeCnt + nodeCount n) (hk : k + s.nodeCnt = s.nodeCap + 1)
    (hbits : readerBits s = serialBits n ++ rest) :
    ∃ t, nodeRecords k s = .halted (t.faultEntry .capacityExceeded) ∧ t.nodeCnt = s.nodeCap + 1 ∧ recordsOnly s t := by
  have hcount : s.countNode.nodeCnt = s.nodeCnt + 1 := congrArg State.nodeCnt (countNode_eq hzero)
  obtain ⟨k, rfl⟩ : ∃ j, k = j + 1 := ⟨k - 1, by omega⟩
  induction n generalizing s rest k with
  | leaf sym flag =>
    simp only [nodeCount] at hover
    exact nodeRecords_full hr hzero (by omega) hbits
  | internal l r ihl ihr =>
    simp only [nodeCount] at hover
    have hbits' : readerBits s = true :: (serialBits l ++ (serialBits r ++ rest)) :=
      hbits.trans (by simp [serialBits])
    rcases hle.eq_or_lt with hfull | hlt
    · exact nodeRecords_full hr hzero hfull hbits'
    obtain ⟨u, hflag, hread, ho⟩ := nodeFlag_counts hr hbits' (by omega)
    obtain ⟨k, rfl⟩ : ∃ j, k = j + 1 := ⟨k - 1, by omega⟩
    have hucap : u.nodeCap = s.nodeCap := by rw [ho]; rfl
    have hucnt : u.nodeCnt = s.nodeCnt + 1 := ho.nodeCnt.trans hcount
    have hubits := hread.remaining hbits'
    have hopen : recordsOnly s u.openNode := (recordsOnly_of_countNode ho).openNode
    have hstart : nodeRecords (k + 1 + 1) s = nodeRecords (k + 1) u.openNode := by
      rw [nodeRecords, hflag, Res.bind_ok, if_pos rfl]
    have hunot : countsFromZero u.openNode := fun h => absurd h (List.cons_ne_nil _ _)
    by_cases hleft : s.nodeCap < s.nodeCnt + 1 + nodeCount l
    · obtain ⟨t, hrun, hcnt, hot⟩ := ihl (s := u.openNode) hread.ready hunot
        (by simp only [State.openNode_nodeCnt, State.openNode_nodeCap]; omega)
        (by simp only [State.openNode_nodeCnt, State.openNode_nodeCap]; omega) hubits (by simp [State.countNode]) k
        (by simp only [State.openNode_nodeCnt, State.openNode_nodeCap]; omega)
      exact ⟨t, hstart.trans hrun, hcnt.trans (congrArg (· + 1) hucap), hopen.trans hot⟩
    · obtain ⟨v, hl, -, hlread, hlo⟩ := readNode_runs l (s := u.openNode) hread.ready hunot
        (by simp only [State.openNode_nodeCnt, State.openNode_nodeCap]; omega) hubits
      obtain ⟨hvstack, hvo, hvcnt⟩ := recordsOnly_of_left hlo
      have hvcap : v.nodeCap = s.nodeCap := by rw [hvo]; exact hucap
      obtain ⟨j, hj⟩ : ∃ j, k + 1 = j + 1 + nodeCount l := ⟨k - nodeCount l, by omega⟩
      obtain ⟨t, hrun, hcnt, hot⟩ := ihr (s := v) hlread.ready (fun h => absurd h hvstack) (by omega) (by omega)
        (hlread.remaining hubits) (by simp [State.countNode, hvstack]) j (by omega)
      refine ⟨t, ?_, hcnt.trans (congrArg (· + 1) hvcap), (recordsOnly_of_countNode ho).trans (hvo.trans hot)⟩
      rw [hstart, hj, hl, if_neg hvstack, hrun]

/-- Settles O25: the loop stops at the flag bit of record NODE_CAP + 1, before a root is complete. -/
theorem deserializeStopsAtTheNodeLimit : Obligations.DeserializeStopsAtTheNodeLimit := by
  intro s n rest hok hf hcap hbits
  obtain ⟨t, hrun, hcnt, ho⟩ := nodeRecords_exceeds n (s := s.noRecords) ⟨hf, hok⟩ (fun _ => rfl) (Nat.zero_le _)
    (hcap.trans_eq (Nat.zero_add _).symm) rfl hbits
  refine ⟨t.faultEntry .capacityExceeded, ?_, ⟨rfl, rfl, rfl⟩, hcnt, readOnly.faultEntry ho _⟩
  exact congrArg (Res.toStep · fun _ s => s) hrun

theorem readOnly.recordsOnly (h : readOnly s t) : recordsOnly s t := by
  rw [Machine.recordsOnly, h.stack, h.nodeCnt]
  exact h

/-- A record of which no bit is left ends the loop (R112, R152). -/
theorem nodeRecords_none_left (hr : ready s) (hbits : readerBits s = []) :
    ∃ t, nodeRecords (k + 1) s = .halted (t.faultEntry .truncatedContainer) ∧ reads [] s t ∧ recordsOnly s t := by
  refine ⟨s.popEnv, ?_, ⟨rfl, ⟨hr.1.popEnv, hr.2⟩, rfl, rfl⟩, rfl⟩
  rw [nodeRecords, nodeFlag_at_end hr hbits, Res.bind_halted]

/-- A leaf cut short after its flag bit ends the loop (R112, R152). -/
theorem nodeRecords_leaf_cut (hr : ready s) (hcap : s.countNode.nodeCnt ≤ s.nodeCap) (hbits : readerBits s = false :: bs)
    (hshort : bs.length < 8) :
    ∃ t, nodeRecords (k + 1) s = .halted (t.faultEntry .truncatedContainer) ∧ reads (false :: bs) s t ∧
      recordsOnly s t := by
  obtain ⟨u, hflag, hread, ho⟩ := nodeFlag_counts hr hbits hcap
  obtain rfl : readerBits u = bs := hread.remaining hbits
  obtain ⟨t, hrun, hread', ho'⟩ := rbitsFrom_runs_out (v := 0) hread.ready hshort
  have hsym : rbits Config.symW u = .halted (t.faultEntry .truncatedContainer) := (rbits_eq (by decide) u).trans hrun
  refine ⟨t, ?_, hread.trans hread', (recordsOnly_of_countNode ho).trans ho'.recordsOnly⟩
  rw [nodeRecords, hflag, Res.bind_ok, if_neg Bool.false_ne_true, hsym, Res.bind_halted]

/-- A tree cut short ends the loop in `TruncatedContainer` (R112, R152). -/
theorem nodeRecords_runs_out {cut : List Bool} (n : Node) (hr : ready s) (hzero : countsFromZero s)
    (hcap : s.nodeCnt + nodeCount n ≤ s.nodeCap) (hk : nodeCount n ≤ k) (hbits : serialBits n = readerBits s ++ cut)
    (hcut : cut ≠ []) :
    ∃ t, nodeRecords k s = .halted (t.faultEntry .truncatedContainer) ∧ reads (readerBits s) s t ∧ recordsOnly s t := by
  have hcount : s.countNode.nodeCnt = s.nodeCnt + 1 := congrArg State.nodeCnt (countNode_eq hzero)
  induction n generalizing s k cut with
  | leaf sym flag =>
    obtain ⟨k, rfl⟩ := Nat.exists_eq_add_of_le' hk
    cases hleft : readerBits s with
    | nil => exact nodeRecords_none_left hr hleft
    | cons b bs =>
      rw [hleft, serialBits, List.cons_append] at hbits
      obtain ⟨rfl, hsym⟩ := List.cons.inj hbits
      have hlen := congrArg List.length hsym
      have hpos := List.length_pos_of_ne_nil hcut
      rw [byteBits_length, List.length_append] at hlen
      exact nodeRecords_leaf_cut hr (hcount.trans_le hcap) hleft (by omega)
  | internal l r ihl ihr =>
    simp only [nodeCount] at hcap hk
    obtain ⟨k, rfl⟩ : ∃ j, k = j + nodeCount r + nodeCount l + 1 := ⟨k - nodeCount r - nodeCount l - 1, by omega⟩
    cases hleft : readerBits s with
    | nil => exact nodeRecords_none_left hr hleft
    | cons b bs =>
      rw [hleft, serialBits, List.cons_append] at hbits
      obtain ⟨rfl, hchildren⟩ := List.cons.inj hbits
      obtain ⟨u, hflag, hread, ho⟩ := nodeFlag_counts hr hleft (by omega)
      obtain rfl : readerBits u = bs := hread.remaining hleft
      have hucap : u.nodeCap = s.nodeCap := by rw [ho]; rfl
      have hucnt : u.nodeCnt = s.nodeCnt + 1 := ho.nodeCnt.trans hcount
      have hunot : countsFromZero u.openNode := fun h => absurd h (List.cons_ne_nil _ _)
      have hstart : nodeRecords (k + nodeCount r + nodeCount l + 1) s =
          nodeRecords (k + nodeCount r + nodeCount l) u.openNode := by
        rw [nodeRecords, hflag, Res.bind_ok, if_pos rfl]
      have hcapl : u.openNode.nodeCnt + nodeCount l ≤ u.openNode.nodeCap := by
        simp only [State.openNode_nodeCnt, State.openNode_nodeCap]
        omega
      rcases le_or_gt (serialBits l).length (readerBits u).length with hle | hgt
      · obtain ⟨bs, hubits⟩ : serialBits l <+: readerBits u :=
          List.prefix_of_prefix_length_le (hchildren ▸ List.prefix_append _ _) (List.prefix_append _ _) hle
        obtain ⟨v, hl, -, hlread, hlo⟩ := readNode_runs l (s := u.openNode) hread.ready hunot hcapl hubits.symm
        obtain ⟨hvstack, hvo, hvcnt⟩ := recordsOnly_of_left hlo
        have hvcap : v.nodeCap = s.nodeCap := by rw [hvo]; exact hucap
        obtain rfl : readerBits v = bs := hlread.remaining hubits.symm
        rw [← hubits, List.append_assoc] at hchildren
        obtain ⟨t, hrun, hrread, hot⟩ := ihr (s := v) (k := k + nodeCount r) hlread.ready (fun h => absurd h hvstack)
          (by omega) (Nat.le_add_left _ _) (List.append_cancel_left hchildren) hcut (by simp [State.countNode, hvstack])
        refine ⟨t, ?_, ?_, (recordsOnly_of_countNode ho).trans (hvo.trans hot)⟩
        · rw [hstart, hl, if_neg hvstack, hrun]
        · rw [← hubits]
          exact hread.trans (hlread.trans hrread)
      · obtain ⟨cut', hcut'⟩ : readerBits u <+: serialBits l :=
          List.prefix_of_prefix_length_le (List.prefix_append _ _) (hchildren ▸ List.prefix_append _ _) hgt.le
        obtain ⟨t, hrun, hlread, hot⟩ := ihl (s := u.openNode) (k := k + nodeCount r + nodeCount l) hread.ready hunot
          hcapl (Nat.le_add_left _ _) hcut'.symm
          (by rintro rfl; rw [List.append_nil] at hcut'; exact absurd hgt (by rw [hcut']; exact lt_irrefl _))
          (by simp [State.countNode])
        exact ⟨t, hstart.trans hrun, hread.trans hlread, (recordsOnly_of_countNode ho).openNode.trans hot⟩

/-- Settles O26: the loop asks for a bit that `IN` does not have, before a root is complete. -/
theorem deserializeOfACutTreeIsTruncated : Obligations.DeserializeOfACutTreeIsTruncated := by
  intro s n cut hok hf hcap hbits hcut
  obtain ⟨t, hrun, hread, ho⟩ := nodeRecords_runs_out n (s := s.noRecords) (k := s.nodeCap + 1) ⟨hf, hok⟩ (fun _ => rfl)
    ((Nat.zero_add _).trans_le hcap) (Nat.le_succ_of_le hcap) hbits hcut
  have hnil : readerBits t = [] := hread.remaining (List.append_nil _).symm
  have hread' : reads (readerBits s) s t := hread
  refine ⟨t.faultEntry .truncatedContainer, ?_, ⟨rfl, rfl, rfl⟩, hnil ▸ hread'.consumed, readOnly.faultEntry ho _⟩
  exact congrArg (Res.toStep · fun _ s => s) hrun

end

end Sys2Proof.Machine

/-! ### What `DECODE` keeps and the containers it reads to their end (R140, R141, R143) -/

namespace Sys2Proof.Machine

/-- What `carried` keeps, register by register. -/
theorem eq_of_carried {u t : State} (h : t.carried = u.carried) :
    t = { u with
      rdByte := t.rdByte, rdNbits := t.rdNbits, rdBitcnt := t.rdBitcnt, inPos := t.inPos, envFail := t.envFail
      cur := t.cur, stack := t.stack, nodeCnt := t.nodeCnt, tree := t.tree, out := t.out, outLen := t.outLen
      outPos := t.outPos, t0 := t.t0, payEnd := t.payEnd, status := t.status, phase := t.phase } := by
  have hc := congrArg (fun x : State => { x with
    rdByte := t.rdByte, rdNbits := t.rdNbits, rdBitcnt := t.rdBitcnt, inPos := t.inPos, envFail := t.envFail
    cur := t.cur, stack := t.stack, nodeCnt := t.nodeCnt, tree := t.tree, out := t.out, outLen := t.outLen
    outPos := t.outPos, t0 := t.t0, payEnd := t.payEnd, status := t.status, phase := t.phase }) h
  exact hc

/-- Settles O38: `DECODE` of a container completes with the symbols of its code words. -/
theorem decodeReadsTheContainer : Obligations.DecodeReadsTheContainer := by
  intro s root words rest hs hf hcap hwords hroot htb hdb hbits
  obtain ⟨t, hrun, hend, ⟨hout, -, hbeyond⟩, htree, hcar⟩ := decodeBody_container (rest := rest) hf hcap hwords hroot
    htb hdb (hbits.trans (by simp [headerBits]))
  have hkeeps := eq_of_carried hcar
  refine ⟨t, by rw [exec_decode hs, hrun, Res.toStep_ok], hend, hout, ?_, ?_, htree, hbeyond, ?_⟩
  · rw [hkeeps]; rfl
  · rw [hkeeps]; rfl
  · rw [hkeeps]
    exact ⟨rfl, rfl, rfl, rfl, rfl, rfl, rfl, rfl, rfl, rfl, rfl, rfl, rfl⟩

/-- The bytes of `IN` begin with its first `n`. -/
theorem inBytes_eq_append {s : State} {n : Nat} (h : n ≤ s.inLen) :
    inBytes s = (List.range n).map s.inp.read ++ (inBytes s).drop n := by
  have htake : (List.range n).map s.inp.read = (inBytes s).take n := by
    rw [inBytes, ← List.map_take, List.take_range, min_eq_left h]
  rw [htake, List.take_append_drop]

/-- Eight zero bytes are the header of the empty container (R141). -/
theorem bytesBits_zeros : bytesBits (List.replicate 8 0x00) = headerBits 0 0 := by decide

theorem bytesBits_append (xs ys : List Byte) : bytesBits (xs ++ ys) = bytesBits xs ++ bytesBits ys :=
  List.flatMap_append

/-- Settles O40: the header's two fields are 0, so `DECODE` completes behind it. -/
theorem decodeOfTheEmptyContainer : Obligations.DecodeOfTheEmptyContainer := by
  intro s hs hf hlen hzero
  have hbytes : (List.range 8).map s.inp.read = List.replicate 8 0x00 :=
    List.map_eq_replicate_iff.2 fun a ha => hzero a (List.mem_range.1 ha)
  have hbits : bytesBits (inBytes s) = headerBits 0 0 ++ bytesBits ((inBytes s).drop 8) := by
    rw [← bytesBits_zeros, ← hbytes, ← bytesBits_append, ← inBytes_eq_append hlen]
  obtain ⟨u, hlatched, hread, ho⟩ := decodeBody_header (ready_begin hf 1#1) (by decide) (by decide) hbits
  obtain ⟨-, hcnt, hpos⟩ := took_of_reads hread
  rw [length_headerBits] at hcnt hpos
  have htb : u.tb = 0 := by rw [ho]; rfl
  have hdb : u.db = 0 := by rw [ho]; rfl
  refine ⟨u.complete, ?_, ⟨rfl, by rw [ho]; rfl, rfl⟩, by rw [ho]; rfl, by rw [ho]; rfl, by rw [ho]; rfl,
    by rw [ho]; rfl, by rw [ho]; rfl, hcnt, hpos⟩
  rw [exec_decode hs, hlatched, decodeLatched, if_pos htb, if_neg (not_not.2 hdb), Res.toStep_ok]

/-! ### The containers `DECODE` refuses (R152, R153) -/

section
variable {s t u : State} {n : Node} {tb db : Nat} {rest : List Bool}

/-- The state behind the tree of a container, for fields `tb` and `db` and a tree `n` (R142). -/
def State.treeRead (s : State) (tb db : Nat) (n : Node) : State :=
  { (s.begin 1#1).headed tb db with t0 := 64, tree := some (plainTree n), stack := [], nodeCnt := nodeCount n }

/-- `DECODE` of a header and a tree reaches the cross-check of the tree's length (R142). -/
theorem decodeBody_tree (hf : noFail s) (hpos : 0 < tb) (htb : tb < 2 ^ 32) (hdb : db < 2 ^ 32)
    (hcap : nodeCount n ≤ s.nodeCap) (hbits : bytesBits (inBytes s) = headerBits tb db ++ (serialBits n ++ rest)) :
    ∃ u, decodeBody (s.begin 1#1) =
        (if (serialBits n).length ≠ tb then raise .invalidHeader u else decodePayload u) ∧
      reads (headerBits tb db ++ serialBits n) (s.begin 1#1) u ∧ readOnly (s.treeRead tb db n) u := by
  obtain ⟨v, hlatched, hread, ho⟩ := decodeBody_header (ready_begin hf 1#1) htb hdb hbits
  have hvcnt := hread.rdBitcnt.trans (Nat.zero_add _)
  rw [length_headerBits] at hvcnt
  have hvtb : v.tb = tb := by rw [ho]; rfl
  have hvcap : v.nodeCap = s.nodeCap := by rw [ho]; rfl
  obtain ⟨u, hrun, -, hread', ho'⟩ := deserialize_tree (s := { v with t0 := v.rdBitcnt }) hread.ready
    (hcap.trans_eq hvcap.symm) (hread.remaining hbits)
  have hut0 : u.t0 = v.rdBitcnt := by rw [ho']
  have hutb : u.tb = tb := by rw [ho']; exact hvtb
  have hucnt : u.rdBitcnt = v.rdBitcnt + (serialBits n).length := hread'.rdBitcnt
  refine ⟨u, ?_, hread.trans hread', ?_⟩
  · rw [hlatched, decodeLatched, if_neg (hvtb.trans_ne hpos.ne'), decodeTree, hrun, Res.bind_ok, hut0, hutb, hucnt,
      Nat.add_sub_cancel_left]
  · rw [hvcnt] at ho'
    have h := congrArg (fun x : State =>
      { x with t0 := 64, tree := some (plainTree n), stack := [], nodeCnt := nodeCount n }) ho
    exact readOnly.trans h ho'

/-- The symbol loop goes through the code words it finds and on behind them (R143). -/
theorem payloadLoop_along {l r : Node} {words : List (List Bool × Byte)} {k : Nat} (hr : ready s) (hend : atOutEnd s)
    (htree : s.tree = some (.internal l r)) (hwords : codeWords (.internal l r) words)
    (hbits : readerBits s = wordBits words ++ rest) (hpay : s.rdBitcnt + (wordBits words).length ≤ s.payEnd)
    (hk : s.payEnd ≤ s.rdBitcnt + k) :
    ∃ t j, payloadLoop k s = payloadLoop j t ∧ decodes words s t ∧ t.payEnd ≤ t.rdBitcnt + j := by
  induction words generalizing s k with
  | nil => exact ⟨s, k, rfl, .refl hr hend, hk⟩
  | cons w words ih =>
    obtain ⟨⟨flag, hp⟩, hwords⟩ := codeWords_cons.1 hwords
    have hcons : wordBits (w :: words) = w.1 ++ wordBits words := rfl
    rw [hcons, List.append_assoc] at hbits
    rw [hcons, List.length_append] at hpay
    have hpos : 0 < w.1.length := List.length_pos_of_ne_nil fun hnil => by rw [hnil] at hp; cases hp
    obtain ⟨u, hsym, hread, hheld, hutree⟩ := rdsym_runs (limit := s.payEnd) hr htree hp hbits (by omega)
    have hone := decodes_storeOut (v := w.2) hend hread hheld hutree
    have hcnt : (u.popEnv.storeOut w.2).rdBitcnt = s.rdBitcnt + w.1.length := hread.rdBitcnt
    obtain ⟨k, rfl⟩ : ∃ j, k = j + 1 := ⟨k - 1, by omega⟩
    obtain ⟨t, j, hrun, hall, hj⟩ := ih (k := k) hone.ready hone.atOutEnd (hutree.trans htree) hwords
      (hread.remaining hbits) (by rw [hone.payEnd, hcnt]; omega) (by rw [hone.payEnd, hcnt]; omega)
    refine ⟨t, j, ?_, hone.cons hall, hj⟩
    rw [payloadLoop, if_pos (by omega), hsym, Res.bind_ok, outbyte_stores _ hread.ready.1.envFails, Res.bind_ok, hrun]

/-- `D_PAYLOAD` of code words and a part of one ends as the walk does that stands on an internal node (R143,
R117). -/
theorem decodePayload_part {l r l' r' : Node} {words : List (List Bool × Byte)} {part : List Bool} (hr : ready s)
    (hend : atOutEnd s) (htree : s.tree = some (plainTree (.internal l r))) (hwords : codeWords (.internal l r) words)
    (hpart : nodeAt part (.internal l r) = some (.internal l' r'))
    (hbits : readerBits s = wordBits words ++ (part ++ rest)) (hlt : (wordBits words).length < s.db)
    (hdb : (wordBits words).length + part.length ≤ s.db) :
    ∃ t, (∀ w, walkSymbol (plainTree (.internal l' r')) (s.rdBitcnt + s.db) t = .halted w →
        decodePayload s = .halted w) ∧
      reads (wordBits words ++ part) s t ∧ outBytes t = outBytes s ++ words.map Prod.snd := by
  have hle : s.rdBitcnt + (wordBits words).length ≤ s.rdBitcnt + s.db := Nat.add_le_add_left hlt.le _
  obtain ⟨v, j, hloop, hpay, hj⟩ := payloadLoop_along (k := s.db) (s := { s with payEnd := s.rdBitcnt + s.db }) hr hend
    htree (codeWords_plainTree hwords) hbits hle le_rfl
  have hvpay : v.payEnd = s.rdBitcnt + s.db := hpay.payEnd
  obtain ⟨hread, hout, -, hvtree⟩ := hpay
  have hvcnt : v.rdBitcnt = s.rdBitcnt + (wordBits words).length := hread.rdBitcnt
  obtain ⟨j, rfl⟩ : ∃ i, j = i + 1 := ⟨j - 1, by omega⟩
  have hpart' : nodeAt part (.internal (plainTree l) (plainTree r)) = some (plainTree (.internal l' r')) := by
    rw [← plainTree, nodeAt_plainTree, hpart]
    rfl
  obtain ⟨t, hsym, hread', ho⟩ := rdsym_along (limit := v.payEnd) hread.ready (hvtree.trans htree) hpart'
    (hread.remaining hbits) (by omega) (by omega)
  have hleaf : ¬ (s.db ≠ 0 ∧ rootIsLeaf s) := fun h => by
    rw [rootIsLeaf, htree] at h
    exact Bool.false_ne_true h.2
  have hbytes : outBytes t = outBytes v := by rw [ho]; rfl
  refine ⟨t, fun w hw => ?_, hread.trans hread', hbytes.trans hout.1⟩
  rw [decodePayload, if_neg hleaf, hloop, payloadLoop, if_pos (by omega), hsym, hvpay, hw, Res.bind_halted,
    Res.bind_halted]

/-- The walk on an internal node at the end of the payload (R117, R153 (d)). -/
theorem walkSymbol_at_limit {limit : Nat} {l r : Node} (h : s.rdBitcnt = limit) :
    walkSymbol (plainTree (.internal l r)) limit s = .halted (s.faultEntry .invalidHeader) := by
  rw [plainTree, walkSymbol_internal, if_pos h, raise_eq_halted]

/-- The walk on an internal node with no bit of `IN` left (R117, R152). -/
theorem walkSymbol_at_end {limit : Nat} {l r : Node} (hr : ready s) (h : s.rdBitcnt ≠ limit)
    (hbits : readerBits s = []) :
    walkSymbol (plainTree (.internal l r)) limit s = .halted (s.popEnv.faultEntry .truncatedContainer) := by
  rw [plainTree, walkSymbol_internal, if_neg h, rbit_at_end hr.1 hr.2 hbits, Res.bind_halted]

/-- `DECODE` of a header, a tree, code words and a part of one ends as the walk does that stands on an internal
node (R143, R117). -/
theorem decodeBody_part {l r l' r' : Node} {words : List (List Bool × Byte)} {part : List Bool} (hf : noFail s)
    (hcap : nodeCount (.internal l r) ≤ s.nodeCap) (hwords : codeWords (.internal l r) words)
    (hpart : nodeAt part (.internal l r) = some (.internal l' r')) (htb : (serialBits (.internal l r)).length < 2 ^ 32)
    (hdb : db < 2 ^ 32) (hlt : (wordBits words).length < db) (hle : (wordBits words ++ part).length ≤ db)
    (hbits : bytesBits (inBytes s) = headerBits (serialBits (.internal l r)).length db ++
      (serialBits (.internal l r) ++ (wordBits words ++ (part ++ rest)))) :
    ∃ t, (∀ w, walkSymbol (plainTree (.internal l' r')) (64 + (serialBits (.internal l r)).length + db) t = .halted w →
        decodeBody (s.begin 1#1) = .halted w) ∧
      reads (headerBits (serialBits (.internal l r)).length db ++ serialBits (.internal l r) ++
        (wordBits words ++ part)) (s.begin 1#1) t ∧
      outBytes t = words.map Prod.snd := by
  have hpos : 0 < (serialBits (.internal l r)).length := Nat.zero_lt_succ _
  obtain ⟨u, hrun, hread, ho⟩ := decodeBody_tree hf hpos htb hdb hcap hbits
  have hucnt := hread.rdBitcnt.trans (Nat.zero_add _)
  rw [List.length_append, length_headerBits] at hucnt
  have hudb : u.db = db := by rw [ho]; rfl
  have hnone : outBytes u = [] := by rw [ho]; rfl
  rw [List.length_append] at hle
  obtain ⟨t, hwalk, hread', hout⟩ := decodePayload_part hread.ready (by rw [ho]; rfl) ho.tree hwords hpart
    (hread.remaining (hbits.trans (List.append_assoc ..).symm)) (hudb.symm ▸ hlt) (hudb.symm ▸ hle)
  rw [hucnt, hudb] at hwalk
  refine ⟨t, fun w hw => ?_, hread.trans hread', by rw [hout, hnone, List.nil_append]⟩
  rw [hrun, if_neg (not_not.2 rfl), hwalk w hw]

theorem exec_decode_halted (hs : s.status ≠ .busy) (hrun : decodeBody (s.begin 1#1) = .halted t) :
    exec .decode s = .next t := by
  rw [exec_decode hs, hrun, Res.toStep_halted]

/-- Settles O41: each header is read, and the check that its fields fail raises the fault. -/
theorem decodeRejectsInconsistentHeaders : Obligations.DecodeRejectsInconsistentHeaders := by
  refine ⟨fun s db rest hs hf hpos hdb hbits => ?noTree, fun s n tb db rest hs hf hpos htb hdb hcap hne hbits => ?length,
    fun s sym db rest hs hf hpos hdb hcap hbits => ?leaf,
    fun s l r l' r' words part rest hs hf hcap hwords hpart hne htb hdb hbits => ?part⟩
  case noTree =>
    obtain ⟨u, hlatched, hread, ho⟩ := decodeBody_header (ready_begin hf 1#1) (Nat.two_pow_pos 32) hdb hbits
    have hcnt := hread.rdBitcnt.trans (Nat.zero_add _)
    have hutb : u.tb = 0 := by rw [ho]; rfl
    have hudb : u.db ≠ 0 := by rw [ho]; exact hpos.ne'
    refine ⟨u.faultEntry .invalidHeader, exec_decode_halted hs ?_, ⟨rfl, rfl, rfl⟩,
      hcnt.trans (length_headerBits 0 db), by rw [ho]; rfl, by rw [ho]; rfl, by rw [ho]; rfl⟩
    rw [hlatched, decodeLatched, if_pos hutb, if_pos hudb, raise_eq_halted]
  case length =>
    obtain ⟨u, hrun, hread, ho⟩ := decodeBody_tree (rest := rest) hf hpos htb hdb hcap
      (hbits.trans (by simp [headerBits]))
    have hcnt := hread.rdBitcnt.trans (Nat.zero_add _)
    rw [List.length_append, length_headerBits] at hcnt
    refine ⟨u.faultEntry .invalidHeader, exec_decode_halted hs ?_, ⟨rfl, rfl, rfl⟩, hcnt, by rw [ho]; rfl,
      by rw [ho]; rfl, by rw [ho]; rfl⟩
    rw [hrun, if_pos hne, raise_eq_halted]
  case leaf =>
    have hlen : (serialBits (.leaf sym false)).length = 9 := serialBits_length _
    obtain ⟨u, hrun, hread, ho⟩ := decodeBody_tree (n := .leaf sym false) (tb := 9) (rest := rest) hf (by decide)
      (by decide) hdb hcap (hbits.trans (by simp [headerBits]))
    have hcnt := hread.rdBitcnt.trans (Nat.zero_add _)
    rw [List.length_append, length_headerBits, hlen] at hcnt
    have hudb : u.db ≠ 0 := by rw [ho]; exact hpos.ne'
    have hleaf : rootIsLeaf u = true := by
      rw [rootIsLeaf, ho.tree]
      rfl
    refine ⟨u.faultEntry .invalidHeader, exec_decode_halted hs ?_, ⟨rfl, rfl, rfl⟩, hcnt, by rw [ho]; rfl⟩
    rw [hrun, if_neg (not_not.2 hlen), decodePayload, if_pos ⟨hudb, hleaf⟩, raise_eq_halted]
  case part =>
    have hlt : (wordBits words).length < (wordBits words ++ part).length := by
      have := List.length_pos_of_ne_nil hne
      rw [List.length_append]
      omega
    obtain ⟨t, hwalk, hread, hout⟩ := decodeBody_part (rest := rest) hf hcap hwords hpart htb hdb hlt le_rfl
      (hbits.trans (by simp [headerBits]))
    have hcnt := hread.rdBitcnt.trans (Nat.zero_add _)
    rw [List.length_append, List.length_append, length_headerBits] at hcnt
    exact ⟨_, exec_decode_halted hs (hwalk _ (walkSymbol_at_limit hcnt)), ⟨rfl, rfl, rfl⟩, hout, hcnt⟩

/-- A header cut short is consumed, and no field is latched but the first in `tb` (R141, R152). -/
theorem decodeBody_short (hr : ready s) (hlt : (readerBits s).length < 64) :
    ∃ t, decodeBody s = .halted (t.faultEntry .truncatedContainer) ∧ reads (readerBits s) s t ∧
      readOnly { s with tb := t.tb } t := by
  have hcount : countOk Config.lenW := by decide
  rcases lt_or_ge (readerBits s).length 32 with h32 | h32
  · obtain ⟨t, hrun, hread, ho⟩ := rbitsFrom_runs_out (n := Config.lenW) (v := 0) hr h32
    have htb : t.tb = s.tb := by rw [ho]
    refine ⟨t, ?_, hread, by rw [htb]; exact ho⟩
    rw [decodeBody_eq, rbits_eq hcount, hrun, Res.bind_halted]
  · obtain ⟨t, hrun, hread, ho⟩ := rbits_runs hcount hr (List.take_append_drop 32 (readerBits s)).symm
      (List.length_take_of_le h32)
    have hbits := hread.bits
    have hleft : (readerBits t).length < 32 := by
      have hlen := congrArg List.length hbits
      rw [List.length_append, List.length_take_of_le h32] at hlen
      omega
    generalize bitsVal ((readerBits s).take 32) = tb at hrun
    obtain ⟨u, hrun', hread', ho'⟩ := rbitsFrom_runs_out (n := Config.lenW) (v := 0) (s := { t with tb := tb })
      hread.ready hleft
    have hutb : u.tb = tb := by rw [ho']
    refine ⟨u, ?_, ?_, ?_⟩
    · rw [decodeBody_eq, hrun, Res.bind_ok, rbits_eq hcount, hrun', Res.bind_halted]
    · rw [hbits]
      exact hread.trans hread'
    · rw [hutb]
      have h := congrArg (fun x : State => { x with tb := tb }) ho
      exact readOnly.trans h ho'

theorem length_bytesBits (bs : List Byte) : (bytesBits bs).length = 8 * bs.length := by
  induction bs with
  | nil => rfl
  | cons v bs ih =>
    rw [bytesBits_cons, List.length_append, byteBits_length, ih, List.length_cons]
    omega

/-- Settles O42: the header, or the walk inside a code word, asks for a bit that `IN` does not have. -/
theorem decodeOfATruncatedContainer : Obligations.DecodeOfATruncatedContainer := by
  refine ⟨fun s hs hf hlen => ?header,
    fun s l r l' r' words part db hs hf hcap hwords hpart htb hdb hlt hbits => ?payload⟩
  case header =>
    have hbits : (readerBits (s.begin 1#1)).length = 8 * s.inLen :=
      (length_bytesBits _).trans (congrArg (8 * ·) (inBytes_length s))
    obtain ⟨t, hrun, hread, ho⟩ := decodeBody_short (ready_begin hf 1#1) (by omega)
    exact ⟨_, exec_decode_halted hs hrun, ⟨rfl, rfl, rfl⟩,
      hread.rdBitcnt.trans ((Nat.zero_add _).trans hbits), by rw [ho]; rfl, by rw [ho]; rfl, by rw [ho]; rfl⟩
  case payload =>
    have hle := hlt
    rw [List.length_append] at hle
    obtain ⟨t, hwalk, hread, hout⟩ := decodeBody_part (rest := []) hf hcap hwords hpart htb hdb (by omega) hlt.le
      (hbits.trans (by simp [headerBits]))
    have hcnt := hread.rdBitcnt.trans (Nat.zero_add _)
    have hall := congrArg List.length hbits
    rw [length_bytesBits, inBytes_length] at hall
    have hempty : readerBits t = [] := hread.remaining (rest := []) (hbits.trans (by simp [headerBits]))
    have hne : t.rdBitcnt ≠ 64 + (serialBits (.internal l r)).length + db := by
      rw [hcnt, List.length_append, List.length_append, length_headerBits]
      omega
    refine ⟨_, exec_decode_halted hs (hwalk _ (walkSymbol_at_end hread.ready hne hempty)), ⟨rfl, rfl, rfl⟩, hout, ?_⟩
    rw [hall]
    simpa [headerBits, Nat.add_assoc] using hcnt

end

end Sys2Proof.Machine

/-! ### Two runs compared

Several statements compare two runs of the same operations: a run with failing accesses and one without, the
sequencer's run and the command as one transition, runs from blocks that held different values before. What an
operation does to two states that are alike is proved here once, for every likeness that the primitive operations
keep. A property of one run is the likeness of the run to itself. -/

namespace Sys2Proof.Machine

/-- What two runs are compared by. -/
structure Likeness where
  /-- The states while both runs go on. -/
  run : State → State → Prop
  /-- The states after both ended in the same fault. -/
  ended : State → State → Prop
  /-- The first run ended in a fault that the second does not have. -/
  lost : State → Prop

/-- Two results are alike: the same value with states that `R` compares, or the same kind of end. -/
inductive Res.Alike {α : Type} (L : Likeness) (R : State → State → Prop) : Res α → Res α → Prop where
  | ok {a : α} {s t : State} (h : R s t) : Alike L R (.ok a s) (.ok a t)
  | ended {s t : State} (h : L.ended s t) : Alike L R (.halted s) (.halted t)
  | lost {s : State} (q : Res α) (h : L.lost s) : Alike L R (.halted s) q
  | fault (e : Fault) : Alike L R (.fault e) (.fault e)
  | refused (e : Refusal) : Alike L R (.refused e) (.refused e)

/-- Alike results, with states that may go on alike. -/
abbrev Likeness.alike {α : Type} (L : Likeness) (r q : Res α) : Prop := Res.Alike L L.run r q

theorem Res.Alike.bind {α β : Type} {L : Likeness} {R R' : State → State → Prop} {r q : Res α}
    {f g : α → State → Res β} (h : Res.Alike L R r q) (hf : ∀ a s t, R s t → Res.Alike L R' (f a s) (g a t)) :
    Res.Alike L R' (r.bind f) (q.bind g) := by
  cases h with
  | ok h => exact hf _ _ _ h
  | ended h => exact .ended h
  | lost q h => exact .lost _ h
  | fault e => exact .fault e
  | refused e => exact .refused e

theorem Res.Alike.ite {α : Type} {L : Likeness} {R : State → State → Prop} {p p' : Prop} [Decidable p]
    [Decidable p'] {r r' q q' : Res α} (hp : p ↔ p') (h : p → Res.Alike L R r q) (h' : ¬ p → Res.Alike L R r' q') :
    Res.Alike L R (if p then r else r') (if p' then q else q') := by
  by_cases hc : p
  · rw [if_pos hc, if_pos (hp.1 hc)]
    exact h hc
  · rw [if_neg hc, if_neg (mt hp.2 hc)]
    exact h' hc

theorem Res.Alike.mono {α : Type} {L L' : Likeness} {R R' : State → State → Prop} {r q : Res α}
    (h : Res.Alike L R r q) (hrun : ∀ s t, R s t → R' s t) (hended : ∀ s t, L.ended s t → L'.ended s t)
    (hlost : ∀ s, L.lost s → L'.lost s) : Res.Alike L' R' r q := by
  cases h with
  | ok h => exact .ok (hrun _ _ h)
  | ended h => exact .ended (hended _ _ h)
  | lost q h => exact .lost q (hlost _ h)
  | fault e => exact .fault e
  | refused e => exact .refused e

/-- The state with what the walk of `DESERIALIZE` writes. -/
def State.setWalk (s : State) (stack : List Frame) (cnt : Nat) (tree : Option Node) : State :=
  { s with stack := stack, nodeCnt := cnt, tree := tree }

/-- The primitive operations keep the likeness. -/
structure Likeness.Sound (L : Likeness) : Prop where
  inbyte : ∀ {s t}, L.run s t → L.alike (inbyte s) (inbyte t)
  outbyte : ∀ v {s t}, L.run s t → L.alike (outbyte v s) (outbyte v t)
  rbit : ∀ {s t}, L.run s t → L.alike (rbit s) (rbit t)
  wbit : ∀ b {s t}, L.run s t → L.alike (wbit b s) (wbit b t)
  raise : ∀ {k s t}, k ≠ .none → L.run s t → L.ended (s.faultEntry k) (t.faultEntry k)
  clear : ∀ {s t}, L.run s t → L.run s.clearAcc t.clearAcc
  freq : ∀ v {s t}, L.run s t → L.run { s with freq := v } { t with freq := v }
  cur : ∀ n {s t}, L.run s t → L.run { s with cur := n } { t with cur := n }
  walk : ∀ st k n {s t}, L.run s t → L.run (s.setWalk st k n) (t.setWalk st k n)
  shared : ∀ {s t}, L.run s t →
    s.wrAcc = t.wrAcc ∧ s.rdBitcnt = t.rdBitcnt ∧ s.nodeCap = t.nodeCap ∧ s.tree = t.tree

section
variable {L : Likeness} (S : L.Sound) {s t : State}
include S

theorem Likeness.Sound.raised {α : Type} {R : State → State → Prop} {k : Err} (hk : k ≠ .none) (h : L.run s t) :
    Res.Alike (α := α) L R (Machine.raise k s) (Machine.raise k t) :=
  .ended (S.raise hk h)

/-! The bit reader. -/

theorem Likeness.Sound.rbitsFrom (n v : Nat) (h : L.run s t) : L.alike (rbitsFrom n v s) (rbitsFrom n v t) := by
  induction n generalizing v s t with
  | zero => exact .ok h
  | succ n ih => exact (S.rbit h).bind fun b _ _ h => ih _ h

theorem Likeness.Sound.rbits (n : Nat) (h : L.run s t) : L.alike (rbits n s) (rbits n t) :=
  .ite .rfl (fun _ => S.rbitsFrom n 0 h) fun _ => .refused _

theorem Likeness.Sound.skipBits (n : Nat) (h : L.run s t) : L.alike (skipBits n s) (skipBits n t) := by
  induction n generalizing s t with
  | zero => exact .ok h
  | succ n ih => exact (S.rbit h).bind fun _ _ _ => ih

/-! The bit writer. -/

theorem Likeness.Sound.wbitAll (bs : List Bool) (h : L.run s t) : L.alike (wbitAll bs s) (wbitAll bs t) := by
  induction bs generalizing s t with
  | nil => exact .ok h
  | cons b bs ih => exact (S.wbit b h).bind fun _ _ _ => ih

theorem Likeness.Sound.wbits (v n : Nat) (h : L.run s t) : L.alike (wbits v n s) (wbits v n t) :=
  .ite .rfl (fun _ => S.wbitAll _ h) fun _ => .refused _

theorem Likeness.Sound.wflush (h : L.run s t) : L.alike (wflush s) (wflush t) := by
  obtain ⟨hacc, -⟩ := S.shared h
  rw [Machine.wflush, Machine.wflush, hacc]
  exact .ite (by rw [State.wrNbits_eq, State.wrNbits_eq, hacc]) (fun _ => .ok h) fun _ =>
    (S.outbyte _ h).bind fun _ _ _ h => .ok (S.clear h)

/-- `WSEEK` to an address that both cursors may be set to. -/
theorem Likeness.Sound.wseek {a : Nat}
    (hseek : ∀ {s t}, L.run s t → L.run { s with outPos := a } { t with outPos := a }) (h : L.run s t) :
    L.alike (wseek a s) (wseek a t) := by
  obtain ⟨hacc, -⟩ := S.shared h
  exact .ite (by rw [State.wrNbits_eq, State.wrNbits_eq, hacc]) (fun _ => .ok (hseek h)) fun _ => .refused _

theorem Likeness.Sound.serialize (n : Node) (h : L.run s t) : L.alike (serialize n s) (serialize n t) := by
  rw [serialize_eq, serialize_eq]
  exact S.wbitAll _ h

theorem Likeness.Sound.patch {tb tb' db db' : Nat} (htb : tb = tb') (hdb : db = db')
    (hseek : ∀ {s t}, L.run s t → L.run { s with outPos := 0 } { t with outPos := 0 }) (h : L.run s t) :
    L.alike (patch tb db s) (patch tb' db' t) := by
  subst htb hdb
  exact (S.wflush h).bind fun _ _ _ h => (S.wseek hseek h).bind fun _ _ _ h => (S.wbits tb _ h).bind fun _ _ _ h =>
    (S.wbits db _ h).bind fun _ _ _ => S.wflush

/-! `COUNT` and `EMIT`. -/

theorem Likeness.Sound.countLoop (hfreq : ∀ {s t}, L.run s t → s.freq = t.freq) (n : Nat) (h : L.run s t) :
    L.alike (countLoop n s) (countLoop n t) := by
  induction n generalizing s t with
  | zero => exact .ok h
  | succ n ih =>
    refine (S.inbyte h).bind fun r s t h => ?_
    cases r with
    | none => exact .ok h
    | some v =>
      have htally := S.freq (s.freq.put v (s.freq.get v + 1)) h
      refine ih ?_
      rw [State.tally, State.tally, ← hfreq h]
      exact htally

/-- Two entries of `CODE` that do alike in `EMIT`: the code word of one that is not valid is not read (R23). -/
def codeAlike (e e' : CodeEntry) : Prop := e.valid = e'.valid ∧ (e.valid = true → e.bits = e'.bits)

theorem Likeness.Sound.emitLoop (hcode : ∀ {s t}, L.run s t → ∀ v, codeAlike (s.code.get v) (t.code.get v)) (n : Nat)
    (h : L.run s t) : L.alike (emitLoop n s) (emitLoop n t) := by
  induction n generalizing s t with
  | zero => exact .ok h
  | succ n ih =>
    refine (S.inbyte h).bind fun r s t h => ?_
    cases r with
    | none => exact .ok h
    | some v =>
      obtain ⟨hvalid, hbits⟩ := hcode h v
      refine .bind (R := L.run) ?_ fun _ _ _ => ih
      refine .ite (by rw [hvalid]) (fun hv => ?_) fun _ => .refused _
      rw [hbits hv]
      exact S.wbitAll _ h

/-! `DESERIALIZE` and `RDSYM`. -/

section
variable (hwalk : ∀ {s t}, L.run s t → s.stack = t.stack ∧ s.nodeCnt = t.nodeCnt)
include hwalk

theorem Likeness.Sound.countNode (h : L.run s t) : L.run s.countNode t.countNode := by
  obtain ⟨hstack, hcnt⟩ := hwalk h
  obtain ⟨-, -, -, htree⟩ := S.shared h
  have hs : s.countNode = s.setWalk t.stack t.countNode.nodeCnt t.tree := by
    rw [State.countNode, State.countNode, ← hstack, ← hcnt, ← htree]
    rfl
  rw [hs]
  exact S.walk _ _ _ h

theorem Likeness.Sound.openNode (h : L.run s t) : L.run s.openNode t.openNode := by
  obtain ⟨hstack, hcnt⟩ := hwalk h
  obtain ⟨-, -, -, htree⟩ := S.shared h
  have hs : s.openNode = s.setWalk (.needLeft :: t.stack) t.nodeCnt t.tree := by
    rw [State.openNode, ← hstack, ← hcnt, ← htree]
    rfl
  rw [hs]
  exact S.walk _ _ _ h

theorem Likeness.Sound.closeNode (n : Node) (h : L.run s t) : L.run (s.closeNode n) (t.closeNode n) := by
  obtain ⟨hstack, hcnt⟩ := hwalk h
  obtain ⟨-, -, -, htree⟩ := S.shared h
  have hs : s.closeNode n = s.setWalk (t.closeNode n).stack t.nodeCnt (t.closeNode n).tree := by
    rw [State.closeNode, State.closeNode, ← hstack, ← hcnt, ← htree]
    rfl
  rw [hs]
  exact S.walk _ _ _ h

theorem Likeness.Sound.nodeFlag (h : L.run s t) : L.alike (nodeFlag s) (nodeFlag t) := by
  refine (S.rbit h).bind fun b s t h => ?_
  have hc := S.countNode hwalk h
  obtain ⟨-, -, hcap, -⟩ := S.shared hc
  exact .ite (by rw [hcap, (hwalk hc).2]) (fun _ => S.raised (by decide) hc) fun _ => .ok hc

theorem Likeness.Sound.nodeRecords (n : Nat) (h : L.run s t) : L.alike (nodeRecords n s) (nodeRecords n t) := by
  induction n generalizing s t with
  | zero => exact .ok h
  | succ n ih =>
    refine (S.nodeFlag hwalk h).bind fun b s t h => .ite .rfl (fun _ => ih (S.openNode hwalk h)) fun _ => ?_
    refine (S.rbits _ h).bind fun v s t h => ?_
    have hc := S.closeNode hwalk (.leaf (BitVec.ofNat 8 v) false) h
    exact .ite (by rw [(hwalk hc).1]) (fun _ => .ok hc) fun _ => ih hc

end

theorem Likeness.Sound.walkSymbol (n : Node) (limit : Nat) (h : L.run s t) :
    L.alike (walkSymbol n limit s) (walkSymbol n limit t) := by
  induction n generalizing s t with
  | leaf sym flag => exact .ok h
  | internal l r ihl ihr =>
    obtain ⟨-, hcnt, -⟩ := S.shared h
    refine .ite (by rw [hcnt]) (fun _ => S.raised (by decide) h) fun _ => (S.rbit h).bind fun b s t h => ?_
    exact .ite .rfl (fun _ => ihr (S.cur r h)) fun _ => ihl (S.cur l h)

theorem Likeness.Sound.rdsym (limit : Nat) (h : L.run s t) : L.alike (rdsym limit s) (rdsym limit t) := by
  obtain ⟨-, hcnt, -, htree⟩ := S.shared h
  by_cases hroot : ∃ l r, s.tree = some (.internal l r)
  · obtain ⟨l, r, hroot⟩ := hroot
    rw [rdsym_of_internal hroot, rdsym_of_internal (htree ▸ hroot)]
    exact .ite (by rw [hcnt]) (fun _ => S.walkSymbol _ limit (S.cur _ h)) fun _ => .refused _
  · rw [rdsym_of_not_internal fun l r e => hroot ⟨l, r, e⟩,
      rdsym_of_not_internal fun l r e => hroot ⟨l, r, htree.trans e⟩]
    exact .refused _

theorem Likeness.Sound.payloadLoop (hpay : ∀ {s t}, L.run s t → s.payEnd = t.payEnd) (n : Nat) (h : L.run s t) :
    L.alike (payloadLoop n s) (payloadLoop n t) := by
  induction n generalizing s t with
  | zero => exact .ok h
  | succ n ih =>
    obtain ⟨-, hcnt, -⟩ := S.shared h
    rw [Machine.payloadLoop, Machine.payloadLoop, ← hpay h]
    exact .ite (by rw [hcnt])
      (fun _ => (S.rdsym _ h).bind fun v _ _ h => (S.outbyte v h).bind fun _ _ _ => ih) fun _ => .ok h

end

end Sys2Proof.Machine

/-! ### The primitives from states with the same ports -/

namespace Sys2Proof.Machine

/-- The second run may be given an equal argument in another form. -/
theorem Res.Alike.at {α β : Type} {L : Likeness} {R : State → State → Prop} {f : β → State → Res α} {x y : β}
    {s t : State} (hxy : x = y) (h : Res.Alike L R (f x s) (f x t)) : Res.Alike L R (f x s) (f y t) :=
  hxy ▸ h

/-- What the primitives look at to choose what they do, and the byte or bit they answer. -/
def State.ports (s : State) : List Bool × Mem × Nat × Nat × Byte × Nat × List Bool :=
  (s.envFail, s.inp, s.inLen, s.inPos, s.rdByte, s.rdNbits, s.wrAcc)

section
variable {L : Likeness} {R : State → State → Prop} {s t : State}

theorem Res.Alike.inbyte (hports : s.ports = t.ports)
    (hfail : L.ended (s.popEnv.faultEntry .ioError) (t.popEnv.faultEntry .ioError)) (hend : R s.popEnv t.popEnv)
    (hbyte : R { s.popEnv with inPos := s.inPos + 1 } { t.popEnv with inPos := t.inPos + 1 }) :
    Res.Alike L R (inbyte s) (inbyte t) := by
  simp only [State.ports, Prod.mk.injEq] at hports
  obtain ⟨henv, hinp, hlen, hpos, -⟩ := hports
  refine .ite (by rw [State.envFails, State.envFails, henv]) (fun _ => .ended hfail) fun _ => ?_
  refine .ite (by rw [hpos, hlen]) (fun _ => .ok hend) fun _ => ?_
  refine .ite (by rw [hpos, hlen]) (fun _ => .fault _) fun _ => ?_
  rw [show s.inp.read s.inPos = t.inp.read t.inPos by rw [hinp, hpos]]
  exact .ok hbyte

theorem Res.Alike.outbyte {v : Byte} (hports : s.ports = t.ports)
    (hfail : L.ended (s.popEnv.faultEntry .ioError) (t.popEnv.faultEntry .ioError))
    (hstore : R (s.popEnv.storeOut v) (t.popEnv.storeOut v)) : Res.Alike L R (outbyte v s) (outbyte v t) := by
  simp only [State.ports, Prod.mk.injEq] at hports
  obtain ⟨henv, -⟩ := hports
  exact .ite (by rw [State.envFails, State.envFails, henv]) (fun _ => .ended hfail) fun _ => .ok hstore

/-- `RBIT` took a byte of `IN` and its first bit (R81). -/
def State.fetchBit (s : State) : State :=
  { s.popEnv with
    inPos := s.inPos + 1, rdByte := s.inp.read s.inPos, rdNbits := 7, rdBitcnt := s.rdBitcnt + 1 }

theorem Res.Alike.rbit (hports : s.ports = t.ports)
    (hfail : ∀ k, k ≠ .none → L.ended (s.popEnv.faultEntry k) (t.popEnv.faultEntry k))
    (hheld : 0 < s.rdNbits → R s.takeBit t.takeBit) (hfetch : R s.fetchBit t.fetchBit) :
    Res.Alike L R (rbit s) (rbit t) := by
  simp only [State.ports, Prod.mk.injEq] at hports
  obtain ⟨henv, hinp, hlen, hpos, hbyte, hbits, -⟩ := hports
  have henv : s.envFails = t.envFails := by rw [State.envFails, State.envFails, henv]
  rcases rbit_cases s with ⟨h0, e⟩ | ⟨h0, hf, e⟩ | ⟨h0, hf, hend, e⟩ | ⟨h0, hf, hlt, e⟩ | ⟨h0, hf, hlt, e⟩
  · rw [e, rbit_held (hbits ▸ h0), hbyte, hbits]
    exact .ok (hheld h0)
  · rw [e, rbit_fails (hbits ▸ h0) (henv ▸ hf)]
    exact .ended (hfail _ (by decide))
  · rw [e, rbit_end (hbits ▸ h0) (henv ▸ hf) (by rw [← hpos, ← hlen, hend])]
    exact .ended (hfail _ (by decide))
  · rw [e, rbit_fetches (hbits ▸ h0) (henv ▸ hf) (by rw [← hpos, ← hlen]; exact hlt)]
    rw [show bitOf (s.inp.read s.inPos) 7 = bitOf (t.inp.read t.inPos) 7 by rw [hinp, hpos]]
    exact .ok hfetch
  · rw [e, show Machine.rbit t = .fault .inBeyondEnd by
      simpa [← hbits, h0, ← henv, hf, ← hpos, ← hlen, hlt.ne', hlt.not_gt, hlt] using rbit_cases t]
    exact .fault _

theorem Res.Alike.wbit {b : Bool} (hports : s.ports = t.ports)
    (hfail : L.ended ((s.appendBit b).popEnv.faultEntry .ioError) ((t.appendBit b).popEnv.faultEntry .ioError))
    (hpend : s.wrAcc.length ≠ 7 → R (s.appendBit b) (t.appendBit b))
    (hstore : ∀ v, R ((s.appendBit b).popEnv.storeOut v).clearAcc ((t.appendBit b).popEnv.storeOut v).clearAcc) :
    Res.Alike L R (wbit b s) (wbit b t) := by
  simp only [State.ports, Prod.mk.injEq] at hports
  obtain ⟨henv, -, -, -, -, -, hacc⟩ := hports
  have henv : s.envFails = t.envFails := by rw [State.envFails, State.envFails, henv]
  rcases wbit_cases b s with ⟨h7, e⟩ | ⟨h7, hf, e⟩ | ⟨h7, hf, e⟩
  · rw [e, wbit_pending b (hacc ▸ h7)]
    exact .ok (hpend h7)
  · rw [e, wbit_fails b (hacc ▸ h7) (henv ▸ hf)]
    exact .ended hfail
  · rw [e, wbit_stores b (hacc ▸ h7) (henv ▸ hf), hacc]
    exact .ok (hstore _)

end

/-! ### The commands from states with the same latches -/

/-- The registers that no primitive reads. -/
structure Latches where
  tree : Option Node
  forest : List ForestEntry
  nextOrd : Nat
  freq : Table Nat
  code : Table CodeEntry
  cur : Node
  stack : List Frame
  nodeCnt : Nat
  hdrTree : Word32
  hdrData : Word32
  t0 : Nat
  d0 : Nat
  tb : Nat
  db : Nat
  payEnd : Nat
  inPos : Nat
  outPos : Nat
  rdBitcnt : Nat
  wrBitcnt : Nat

/-- What the latches hold. -/
def State.latches (s : State) : Latches :=
  ⟨s.tree, s.forest, s.nextOrd, s.freq, s.code, s.cur, s.stack, s.nodeCnt, s.hdrTree, s.hdrData, s.t0, s.d0, s.tb, s.db,
    s.payEnd, s.inPos, s.outPos, s.rdBitcnt, s.wrBitcnt⟩

/-- The state with these latches. -/
def State.setLatches (s : State) (l : Latches) : State :=
  { s with
    tree := l.tree, forest := l.forest, nextOrd := l.nextOrd, freq := l.freq, code := l.code, cur := l.cur
    stack := l.stack, nodeCnt := l.nodeCnt, hdrTree := l.hdrTree, hdrData := l.hdrData, t0 := l.t0, d0 := l.d0
    tb := l.tb, db := l.db, payEnd := l.payEnd, inPos := l.inPos, outPos := l.outPos, rdBitcnt := l.rdBitcnt
    wrBitcnt := l.wrBitcnt }

/-- `f` changes latches only, and by the latches alone. -/
def latching (f : State → State) : Prop :=
  ∀ s, f s = s.setLatches (f (State.reset.setLatches s.latches)).latches

theorem latching_build : latching State.build := by
  intro s
  have hfreq : (State.reset.setLatches s.latches).freq = s.freq := rfl
  rcases s.build_cases with ⟨h, e⟩ | ⟨_, h, e⟩ | ⟨_, _, _, _, _, h, hm, e⟩
  · rw [e, State.build, hfreq, h]
    rfl
  · rw [e, State.build, hfreq, h]
    rfl
  · rw [e, State.build, hfreq, h]
    simp only [List.length_cons, hm]
    rfl

theorem derive_of_none {s : State} (h : s.tree = none) : derive s = .refused .deriveWithoutTree := by
  rw [derive, h]

theorem derive_of_some {s : State} {root : Node} (h : s.tree = some root) :
    derive s = .ok () { s with code := walkCodes root [] (clearCodes s.code) } := by
  unfold derive
  split <;> simp_all

/-- A likeness of states that have the same latches. -/
structure Likeness.Full (L : Likeness) : Prop extends L.Sound where
  same : ∀ {s t}, L.run s t → s.latches = t.latches ∧ s.inLen = t.inLen
  set : ∀ l {s t}, L.run s t → L.run (s.setLatches l) (t.setLatches l)

/-- The states after both completed. -/
def Likeness.completed (L : Likeness) (s t : State) : Prop :=
  ∃ s' t', L.run s' t' ∧ s = s'.complete ∧ t = t'.complete

section
variable {L : Likeness} (F : L.Full) {s t : State}
include F

theorem Likeness.Full.latching {f : State → State} (hf : latching f) (h : L.run s t) : L.run (f s) (f t) := by
  rw [hf s, hf t, (F.same h).1]
  exact F.set _ h

theorem Likeness.Full.field {α : Type} (f : Latches → α) (h : L.run s t) : f s.latches = f t.latches :=
  congrArg f (F.same h).1

omit F in
theorem Likeness.completes (h : L.run s t) :
    Res.Alike L L.completed (.ok () s.complete) (.ok () t.complete) :=
  .ok ⟨s, t, h, rfl, rfl⟩

theorem Likeness.Full.countIn (h : L.run s t) : L.alike (countIn s) (countIn t) := by
  refine .at (f := Machine.countLoop) (by rw [(F.same h).2]) (F.countLoop (F.field Latches.freq) _ ?_)
  exact F.latching (f := fun s => { s with freq := tableOf 0, inPos := 0 }) (fun _ => rfl) h

theorem Likeness.Full.derive (h : L.run s t) : L.alike (derive s) (derive t) := by
  have htree : s.tree = t.tree := F.field Latches.tree h
  cases hs : s.tree with
  | none =>
    rw [derive_of_none hs, derive_of_none (htree ▸ hs)]
    exact .refused _
  | some root =>
    rw [derive_of_some hs, derive_of_some (htree ▸ hs)]
    exact .ok (F.latching (f := fun s => { s with code := walkCodes root [] (clearCodes s.code) }) (fun _ => rfl) h)

theorem Likeness.Full.emit (h : L.run s t) : L.alike (emit s) (emit t) := by
  refine .at (f := Machine.emitLoop) (by rw [(F.same h).2]) (F.emitLoop (fun {s t} h v => ?_) _ ?_)
  · rw [show s.code = t.code from F.field Latches.code h]
    exact ⟨rfl, fun _ => rfl⟩
  · exact F.latching (f := fun s => { s with inPos := 0 }) (fun _ => rfl) h

theorem Likeness.Full.wseek (a : Nat) (h : L.run s t) : L.alike (wseek a s) (wseek a t) :=
  F.toSound.wseek (F.latching (f := fun s => { s with outPos := a }) fun _ => rfl) h

theorem Likeness.Full.patch {tb tb' db db' : Nat} (htb : tb = tb') (hdb : db = db') (h : L.run s t) :
    L.alike (patch tb db s) (patch tb' db' t) :=
  F.toSound.patch htb hdb (F.latching (f := fun s => { s with outPos := 0 }) fun _ => rfl) h

theorem Likeness.Full.nodeFlag (h : L.run s t) : L.alike (nodeFlag s) (nodeFlag t) :=
  F.toSound.nodeFlag (fun h => ⟨F.field Latches.stack h, F.field Latches.nodeCnt h⟩) h

theorem Likeness.Full.deserialize (h : L.run s t) : L.alike (deserialize s) (deserialize t) := by
  obtain ⟨-, -, hcap, -⟩ := F.shared h
  refine .at (f := Machine.nodeRecords) (by rw [hcap])
    (F.nodeRecords (fun h => ⟨F.field Latches.stack h, F.field Latches.nodeCnt h⟩) _ ?_)
  exact F.latching (f := fun s => { s with stack := [], nodeCnt := 0 }) (fun _ => rfl) h

/-! `ENCODE`. -/

theorem Likeness.Full.encodeEmpty (h : L.run s t) : Res.Alike L L.completed (encodeEmpty s) (encodeEmpty t) :=
  (F.wbits 0 _ h).bind fun _ _ _ h => (F.wbits 0 _ h).bind fun _ _ _ h => (F.wflush h).bind fun _ _ _ => L.completes

theorem Likeness.Full.encodePatch (h : L.run s t) : Res.Alike L L.completed (encodePatch s) (encodePatch t) := by
  have htb : s.tb = t.tb := F.field Latches.tb h
  have hdb : s.db = t.db := F.field Latches.db h
  refine .ite (by rw [hdb]) (fun _ => F.raised (by decide) h) fun _ => .bind (R := L.run) ?_ fun _ _ _ => L.completes
  exact F.patch htb hdb (F.latching (f := fun s => { s with hdrData := BitVec.ofNat 32 s.db }) (fun _ => rfl) h)

theorem Likeness.Full.encodeBody (h : L.run s t) : Res.Alike L L.completed (encodeBody s) (encodeBody t) := by
  refine (F.countIn h).bind fun _ s t h => ?_
  have hb := F.latching latching_build h
  dsimp only
  rw [show s.build.tree = t.build.tree from F.field Latches.tree hb]
  cases t.build.tree with
  | none => exact F.encodeEmpty hb
  | some root =>
    refine (F.wseek _ hb).bind fun _ s t h => ?_
    refine (F.serialize root (F.latching (f := fun s => { s with t0 := s.wrBitcnt }) (fun _ => rfl) h)).bind
      fun _ s t h => ?_
    refine (F.derive (F.latching (f := fun s => s.latchTree s.wrBitcnt) (fun _ => rfl) h)).bind fun _ s t h => ?_
    refine (F.emit (F.latching (f := fun s => { s with d0 := s.wrBitcnt }) (fun _ => rfl) h)).bind fun _ s t h => ?_
    exact F.encodePatch (F.latching (f := fun s => s.latchData s.wrBitcnt) (fun _ => rfl) h)

/-! `DECODE`. -/

theorem Likeness.Full.decodePayload (h : L.run s t) :
    Res.Alike L L.completed (decodePayload s) (decodePayload t) := by
  have hdb : s.db = t.db := F.field Latches.db h
  have htree : s.tree = t.tree := F.field Latches.tree h
  have hrun := F.latching (f := fun s => { s with payEnd := s.rdBitcnt + s.db }) (fun _ => rfl) h
  refine .ite (by rw [hdb, rootIsLeaf, rootIsLeaf, htree]) (fun _ => F.raised (by decide) h) fun _ => ?_
  exact ((F.payloadLoop (F.field Latches.payEnd) _ hrun).at (f := Machine.payloadLoop) hdb).bind
    fun _ _ _ => L.completes

theorem Likeness.Full.decodeTree (h : L.run s t) : Res.Alike L L.completed (decodeTree s) (decodeTree t) := by
  refine (F.deserialize (F.latching (f := fun s => { s with t0 := s.rdBitcnt }) (fun _ => rfl) h)).bind
    fun _ s t h => ?_
  have hlatches := (F.same h).1
  refine .ite ?_ (fun _ => F.raised (by decide) h) fun _ => F.decodePayload h
  rw [show s.rdBitcnt - s.t0 ≠ s.tb ↔ s.latches.rdBitcnt - s.latches.t0 ≠ s.latches.tb from .rfl, hlatches]
  exact .rfl

theorem Likeness.Full.decodeBody (h : L.run s t) : Res.Alike L L.completed (decodeBody s) (decodeBody t) := by
  refine (F.rbits _ h).bind fun tb s t h => ?_
  refine (F.rbits _ (F.latching (f := fun s => { s with tb := tb }) (fun _ => rfl) h)).bind fun db s t h => ?_
  have hl := F.latching (f := fun s => s.latchHeader db) (fun _ => rfl) h
  have htb : (s.latchHeader db).tb = (t.latchHeader db).tb := F.field Latches.tb h
  refine .ite (by rw [htb]) (fun _ => ?_) fun _ => F.decodeTree hl
  exact .ite .rfl (fun _ => F.raised (by decide) hl) fun _ => L.completes hl

end

end Sys2Proof.Machine

/-! ### What every step keeps (O52, O54, O55)

The run of an operation is compared with itself: what holds of the likeness `keeps z` holds between the state `z`
the operation began in and the one it goes on or ends in. -/

namespace Sys2Proof.Machine

/-- What no operation of the block changes. -/
def State.inputs (s : State) : Mem × Nat × Nat × List HostAct := (s.inp, s.inLen, s.nodeCap, s.hostQ)

/-- The inputs stay, and so do the canonical form of `OUT` and the bound of `RD_NBITS` (R18, R25). -/
def tidy (z s : State) : Prop :=
  s.inputs = z.inputs ∧ (z.out.wf → s.out.wf) ∧ (z.rdNbits ≤ 7 → s.rdNbits ≤ 7)

/-- The command goes on: `STATUS` and `ERR` stay, and the bound of `WR_NBITS` (R19). -/
def goesOn (z s : State) : Prop :=
  tidy z s ∧ (s.status, s.err) = (z.status, z.err) ∧ (z.wrAcc.length ≤ 7 → s.wrAcc.length ≤ 7)

/-- An operation went on: it leaves the phase and the sequencer's place too. -/
def kept (z s : State) : Prop := goesOn z s ∧ (s.phase, s.useq, s.ir) = (z.phase, z.useq, z.ir)

/-- The command ended in a fault. -/
def faulted (z s : State) : Prop := tidy z s ∧ s.ir = z.ir ∧ s.status = .fault ∧ s.err ≠ .none ∧ s.phase = .halt

/-- The likeness of a run to itself, from the state `z` on. -/
def keeps (z : State) : Likeness where
  run s t := s = t ∧ kept z s
  ended s t := s = t ∧ faulted z s
  lost _ := False

theorem kept.refl (z : State) : kept z z := ⟨⟨⟨rfl, id, id⟩, rfl, id⟩, rfl⟩

theorem kept.self {z s : State} (h : kept z s) : (keeps z).run s s := ⟨rfl, h⟩

/-! The primitives. -/

theorem tidy.storeOut {z s : State} (v : Byte) (h : tidy z s) : tidy z (s.popEnv.storeOut v) := by
  obtain ⟨hinputs, hout, hbits⟩ := h
  exact ⟨hinputs, fun hz => Mem.write_wf (hout hz) _ _, hbits⟩

theorem kept.storeOut {z s : State} (v : Byte) (h : kept z s) : kept z (s.popEnv.storeOut v) := by
  obtain ⟨⟨htidy, hrest⟩, hplace⟩ := h
  exact ⟨⟨htidy.storeOut v, hrest⟩, hplace⟩

theorem kept.clearAcc {z s : State} (h : kept z s) : kept z s.clearAcc := by
  obtain ⟨⟨htidy, hstatus, -⟩, hplace⟩ := h
  exact ⟨⟨htidy, hstatus, fun _ => Nat.zero_le 7⟩, hplace⟩

theorem kept.takeBit {z s : State} (h : kept z s) : kept z s.takeBit := by
  obtain ⟨⟨⟨hinputs, hout, hbits⟩, hrest⟩, hplace⟩ := h
  exact ⟨⟨⟨hinputs, hout, fun hz => (Nat.sub_le _ 1).trans (hbits hz)⟩, hrest⟩, hplace⟩

theorem kept.fetchBit {z s : State} (h : kept z s) : kept z s.fetchBit := by
  obtain ⟨⟨⟨hinputs, hout, -⟩, hrest⟩, hplace⟩ := h
  exact ⟨⟨⟨hinputs, hout, fun _ => le_refl 7⟩, hrest⟩, hplace⟩

theorem kept.appendBit {z s : State} (b : Bool) (h : kept z s) (h7 : s.wrAcc.length ≠ 7) : kept z (s.appendBit b) := by
  obtain ⟨⟨htidy, hstatus, hacc⟩, hplace⟩ := h
  refine ⟨⟨htidy, hstatus, fun hz => ?_⟩, hplace⟩
  have := hacc hz
  simp only [State.appendBit, List.length_append, List.length_singleton]
  omega

theorem kept.faultEntry {z s : State} {k : Err} (hk : k ≠ .none) (h : kept z s) : faulted z (s.faultEntry k) := by
  obtain ⟨⟨htidy, -⟩, hplace⟩ := h
  simp only [Prod.mk.injEq] at hplace
  obtain ⟨-, -, hir⟩ := hplace
  exact ⟨htidy, hir, rfl, hk, rfl⟩

/-- The eighth bit joins the buffer for a moment; the store or the fault that follows says what is kept. -/
theorem kept.eighthBit {z s : State} (b : Bool) (v : Byte) (h : kept z s) :
    kept z ((s.appendBit b).popEnv.storeOut v).clearAcc := by
  obtain ⟨⟨htidy, hstatus, -⟩, hplace⟩ := h
  exact ⟨⟨tidy.storeOut (s := s.appendBit b) v htidy, hstatus, fun _ => Nat.zero_le 7⟩, hplace⟩

theorem keeps_full (z : State) : (keeps z).Full where
  inbyte := by
    rintro s _ ⟨rfl, h⟩
    exact .inbyte rfl ⟨rfl, h.faultEntry (by decide)⟩ ⟨rfl, h⟩ ⟨rfl, h⟩
  outbyte := by
    rintro v s _ ⟨rfl, h⟩
    exact .outbyte rfl ⟨rfl, h.faultEntry (by decide)⟩ (h.storeOut v).self
  rbit := by
    rintro s _ ⟨rfl, h⟩
    exact .rbit rfl (fun k hk => ⟨rfl, h.faultEntry hk⟩) (fun _ => h.takeBit.self) h.fetchBit.self
  wbit := by
    rintro b s _ ⟨rfl, h⟩
    have hfault := h.faultEntry (k := .ioError) (by decide)
    exact .wbit rfl ⟨rfl, hfault⟩ (fun h7 => (h.appendBit b h7).self) fun v => (h.eighthBit b v).self
  raise := by
    rintro k s _ hk ⟨rfl, h⟩
    exact ⟨rfl, h.faultEntry hk⟩
  clear := by
    rintro s _ ⟨rfl, h⟩
    exact h.clearAcc.self
  freq := by
    rintro v s _ ⟨rfl, h⟩
    exact ⟨rfl, h⟩
  cur := by
    rintro n s _ ⟨rfl, h⟩
    exact ⟨rfl, h⟩
  walk := by
    rintro st k n s _ ⟨rfl, h⟩
    exact ⟨rfl, h⟩
  shared := by
    rintro s _ ⟨rfl, -⟩
    exact ⟨rfl, rfl, rfl, rfl⟩
  same := by
    rintro s _ ⟨rfl, -⟩
    exact ⟨rfl, rfl⟩
  set := by
    rintro l s _ ⟨rfl, h⟩
    exact ⟨rfl, h⟩

/-! ### Operations as steps -/

/-- What a step of an operation leaves: it went on, or ended the command in a fault. -/
def ran (z t : State) : Prop := kept z t ∨ faulted z t

theorem ran_of_toStep {α : Type} {z t : State} {r : Res α} {k : α → State → State} (h : r.toStep k = .next t)
    (hr : (keeps z).alike r r) (hk : ∀ a u, kept z u → kept z (k a u)) : ran z t := by
  rcases Res.toStep_eq_next.1 h with ⟨a, u, rfl, rfl⟩ | rfl
  · cases hr with
    | ok hu => exact .inl (hk a u hu.2)
  · cases hr with
    | ended hu => exact .inr hu.2
    | lost _ hu => exact hu.elim

theorem keeps_pathStep {z s : State} (b : Bool) (h : kept z s) : (keeps z).alike (pathStep b s) (pathStep b s) := by
  have S := (keeps_full z).toSound
  unfold pathStep
  cases pathNode s with
  | none => exact .refused _
  | some n =>
    refine .ite .rfl (fun _ => S.raised (by decide) h.self) fun _ => (S.rbit h.self).bind fun _ s t h => .ok ?_
    exact S.cur _ h

/-- What a command run as one transition leaves: it began, and completed or ended in a fault. -/
def commanded (z t : State) : Prop :=
  z.status ≠ .busy ∧ ∃ op, faulted (z.begin op) t ∨ ∃ u, kept (z.begin op) u ∧ t = u.complete

theorem commanded_of_toStep {z t : State} {op : BitVec 1} {r : Res Unit} (hb : z.status ≠ .busy)
    (hr : Res.Alike (keeps (z.begin op)) (keeps (z.begin op)).completed r r)
    (h : r.toStep (fun _ s => s) = .next t) : commanded z t := by
  rcases Res.toStep_eq_next.1 h with ⟨a, u, rfl, rfl⟩ | rfl
  · cases hr with
    | ok hu =>
      obtain ⟨v, w, ⟨rfl, hv⟩, rfl, -⟩ := hu
      exact ⟨hb, op, .inr ⟨v, hv, rfl⟩⟩
  · cases hr with
    | ended hu => exact ⟨hb, op, .inl hu.2⟩
    | lost _ hu => exact hu.elim

theorem exec_encode_of_busy {s : State} (h : s.status = .busy) : exec .encode s = .next s := if_pos h

theorem exec_decode_of_busy {s : State} (h : s.status = .busy) : exec .decode s = .next s := if_pos h

/-- What any operation leaves of the state it runs in. -/
theorem ran_or_commanded_of_exec {z t : State} {i : Instr} (h : exec i z = .next t) : ran z t ∨ commanded z t := by
  have F := keeps_full z
  have hz := kept.refl z
  cases i with
  | encode =>
    by_cases hb : z.status = .busy
    · cases (exec_encode_of_busy hb).symm.trans h
      exact .inl (.inl hz)
    · rw [exec_encode hb] at h
      exact .inr (commanded_of_toStep hb ((keeps_full _).encodeBody (kept.refl _).self) h)
  | decode =>
    by_cases hb : z.status = .busy
    · cases (exec_decode_of_busy hb).symm.trans h
      exact .inl (.inl hz)
    · rw [exec_decode hb] at h
      exact .inr (commanded_of_toStep hb ((keeps_full _).decodeBody (kept.refl _).self) h)
  | rbit => exact .inl (ran_of_toStep h (F.rbit hz.self) fun _ _ h => h)
  | rbits n => exact .inl (ran_of_toStep h (F.rbits n hz.self) fun _ _ h => h)
  | wbit b => exact .inl (ran_of_toStep h (F.wbit b hz.self) fun _ _ h => h)
  | wbits v n => exact .inl (ran_of_toStep h (F.wbits v n hz.self) fun _ _ h => h)
  | wtell =>
    cases h
    exact .inl (.inl hz)
  | wseek a => exact .inl (ran_of_toStep h (F.wseek a hz.self) fun _ _ h => h)
  | wflush => exact .inl (ran_of_toStep h (F.wflush hz.self) fun _ _ h => h)
  | build =>
    cases h
    exact .inl (.inl (F.latching latching_build hz.self).2)
  | serialize n => exact .inl (ran_of_toStep h (F.serialize n hz.self) fun _ _ h => h)
  | deserialize => exact .inl (ran_of_toStep h (F.deserialize hz.self) fun _ _ h => h)
  | derive => exact .inl (ran_of_toStep h (F.derive hz.self) fun _ _ h => h)
  | rdsym e => exact .inl (ran_of_toStep h (F.rdsym e hz.self) fun _ _ h => h)
  | count => exact .inl (ran_of_toStep h (F.countIn hz.self) fun _ _ h => h)
  | emit => exact .inl (ran_of_toStep h (F.emit hz.self) fun _ _ h => h)
  | patch tb db => exact .inl (ran_of_toStep h (F.patch rfl rfl hz.self) fun _ _ h => h)
  | hdrTreebitlen v => exact .inl (ran_of_toStep h (F.skipBits _ hz.self) fun _ _ h => h)
  | hdrDatabitlen v => exact .inl (ran_of_toStep h (F.skipBits _ hz.self) fun _ _ h => h)
  | nodeInternal => exact .inl (ran_of_toStep h (F.nodeFlag hz.self) fun _ _ h => h)
  | nodeLeaf sym =>
    exact .inl (ran_of_toStep h ((F.nodeFlag hz.self).bind fun _ _ _ h => F.skipBits _ h) fun _ _ h => h)
  | pathLeft => exact .inl (ran_of_toStep h (keeps_pathStep false hz) fun _ _ h => h)
  | pathRight => exact .inl (ran_of_toStep h (keeps_pathStep true hz) fun _ _ h => h)
  | pad =>
    cases h
    exact .inl (.inl hz)

/-! ### The sequencer and the block -/

/-- What a step of the block leaves of the state before it. -/
inductive Moved (s t : State) : Prop where
  | stays (h : goesOn s t) (hphase : t.phase = s.phase)
  | moves (h : goesOn s t) (hphase : (s.phase, t.phase) ∈ phaseMoves)
  | completes (u : State) (h : goesOn s u) (ht : t = u.complete) (hphase : s.phase ∈ donePhases)
  | faults (h : tidy s t) (hstatus : t.status = .fault) (herr : t.err ≠ .none) (hphase : t.phase = .halt)
      (hir : t.ir = none)

theorem goesOn.refl (s : State) : goesOn s s := (kept.refl s).1

/-- A move of the sequencer that raises a fault itself. -/
theorem Moved.of_faultEntry {s u : State} {k : Err} (hir : u.ir = none) (hk : k ≠ .none) (h : tidy s u) :
    Moved s (u.faultEntry k) :=
  .faults h rfl hk rfl hir

theorem Moved.of_goTo {s u : State} {p q : Phase} (hphase : s.phase = p) (hm : (p, q) ∈ phaseMoves) (h : goesOn s u) :
    Moved s (u.goTo q) :=
  .moves h (hphase ▸ hm)

theorem Moved.of_complete {s u : State} {p : Phase} (hphase : s.phase = p) (hp : p ∈ donePhases) (h : goesOn s u) :
    Moved s u.complete :=
  .completes u h rfl (hphase ▸ hp)

theorem moved_of_afterBuild {s : State} (hphase : s.phase = .eBuild) : Moved s (afterBuild s) := by
  unfold afterBuild
  split
  · exact .of_goTo hphase (by decide) (goesOn.refl s)
  · exact .of_goTo hphase (by decide) (goesOn.refl s)

theorem moved_of_issuePatch {s : State} (hir : s.ir = none) : Moved s (issuePatch s) := by
  unfold issuePatch
  split
  · exact .of_faultEntry hir (by decide) (goesOn.refl s).1
  · exact .stays (goesOn.refl s) rfl

theorem moved_of_afterHeader {s : State} (hir : s.ir = none) (hphase : s.phase = .dHeader) : Moved s (afterHeader s) := by
  simp only [afterHeader]
  split
  · split
    · exact .of_faultEntry hir (by decide) (goesOn.refl s).1
    · exact .of_complete hphase (by decide) (goesOn.refl s)
  · exact .of_goTo hphase (by decide) (goesOn.refl s)

theorem moved_of_afterTree {s : State} (hir : s.ir = none) (hphase : s.phase = .dTree) : Moved s (afterTree s) := by
  unfold afterTree
  split
  · exact .of_faultEntry hir (by decide) (goesOn.refl s).1
  · exact .of_goTo hphase (by decide) (goesOn.refl s)

theorem moved_of_beforePayload {s : State} (hir : s.ir = none) : Moved s (beforePayload s) := by
  unfold beforePayload
  split
  · exact .of_faultEntry hir (by decide) (goesOn.refl s).1
  · exact .stays (goesOn.refl s) rfl

theorem moved_of_payloadHead {s : State} (hphase : s.phase = .dPayload) : Moved s (payloadHead s) := by
  unfold payloadHead
  split
  · exact .stays (goesOn.refl s) rfl
  · exact .of_complete hphase (by decide) (goesOn.refl s)

theorem moved_of_payloadTail {s t : State} (hir : s.ir = none) (h : payloadTail s = .next t) : Moved s t := by
  rcases Res.toStep_eq_next.1 h with ⟨_, u, hu, rfl⟩ | hu
  all_goals
    have hrun := (keeps_full s).outbyte (BitVec.ofNat 8 s.res) (kept.refl s).self
    rw [hu] at hrun
  · cases hrun with
    | ok hk =>
      obtain ⟨-, hgoes, hplace⟩ := hk
      exact .stays hgoes (Prod.mk.inj hplace).1
  · cases hrun with
    | ended hk =>
      obtain ⟨-, htidy, hir', hstatus, herr, hphase⟩ := hk
      exact .faults htidy hstatus herr hphase (hir'.trans hir)
    | lost _ hk => exact hk.elim

theorem moved_of_issueSerialize {s t : State} (h : issueSerialize s = .next t) : Moved s t := by
  unfold issueSerialize at h
  split at h
  · cases h
    exact .stays (goesOn.refl s) rfl
  · cases h

/-- The table of the sequencer's moves (R148). -/
theorem moved_of_sequence {s t : State} (hir : s.ir = none) (h : sequence s = .next t) : Moved s t := by
  have hgoes := goesOn.refl s
  unfold sequence at h
  split at h
  next => cases h; exact .stays hgoes rfl
  next hphase _ => cases h; exact .of_goTo hphase (by decide) hgoes
  next => cases h; exact .stays hgoes rfl
  next hphase _ => cases h; exact moved_of_afterBuild hphase
  next => cases h; exact .stays hgoes rfl
  next => cases h; exact .stays hgoes rfl
  next => cases h; exact .stays hgoes rfl
  next hphase _ => cases h; exact .of_complete hphase (by decide) hgoes
  next => cases h; exact .stays hgoes rfl
  next hphase _ => cases h; exact .of_goTo hphase (by decide) hgoes
  next => cases h; exact .stays hgoes rfl
  next => exact moved_of_issueSerialize h
  next => cases h; exact .stays hgoes rfl
  next hphase _ => cases h; exact .of_goTo hphase (by decide) hgoes
  next => cases h; exact .stays hgoes rfl
  next hphase _ => cases h; exact .of_goTo hphase (by decide) hgoes
  next => cases h; exact .stays hgoes rfl
  next => cases h; exact .stays hgoes rfl
  next => cases h; exact .stays hgoes rfl
  next hphase _ => cases h; exact .of_goTo hphase (by decide) hgoes
  next => cases h; exact moved_of_issuePatch hir
  next hphase _ => cases h; exact .of_complete hphase (by decide) hgoes
  next => cases h; exact .stays hgoes rfl
  next => cases h; exact .stays hgoes rfl
  next hphase _ => cases h; exact moved_of_afterHeader hir hphase
  next => cases h; exact .stays hgoes rfl
  next hphase _ => cases h; exact moved_of_afterTree hir hphase
  next => cases h; exact moved_of_beforePayload hir
  next hphase _ => cases h; exact moved_of_payloadHead hphase
  next => exact moved_of_payloadTail hir h
  next => cases h

/-- A move of the latched operation, of the sequencer, or none. -/
theorem moved_or_commanded_of_advance {s t : State} (h : advance s = .next t) :
    Moved s t ∨ commanded { s with ir := none } t := by
  unfold advance at h
  split at h
  next w hir =>
    unfold runLatch at h
    split at h
    · rcases ran_or_commanded_of_exec h with (⟨hgoes, hplace⟩ | ⟨htidy, hir, hstatus, herr, hphase⟩) | hcmd
      · exact .inl (.stays hgoes (Prod.mk.inj hplace).1)
      · exact .inl (.faults htidy hstatus herr hphase hir)
      · exact .inr hcmd
    · cases h
  next hir =>
    split at h
    · exact .inl (moved_of_sequence hir h)
    · cases h
      exact .inl (.stays (goesOn.refl s) rfl)

theorem tidy_of_moved {s t : State} (h : Moved s t) : tidy s t := by
  cases h with
  | stays h => exact h.1
  | moves h => exact h.1
  | completes u h ht =>
    subst ht
    exact h.1
  | faults h => exact h

theorem tidy.inputs {s t : State} (h : tidy s t) :
    t.inp = s.inp ∧ t.inLen = s.inLen ∧ t.nodeCap = s.nodeCap := by
  obtain ⟨hinputs, -⟩ := h
  simp only [State.inputs, Prod.mk.injEq] at hinputs
  obtain ⟨hinp, hlen, hcap, -⟩ := hinputs
  exact ⟨hinp, hlen, hcap⟩

theorem inputs_of_commanded {s t : State} (h : commanded s t) :
    t.inp = s.inp ∧ t.inLen = s.inLen ∧ t.nodeCap = s.nodeCap := by
  obtain ⟨-, op, hf | ⟨u, hk, rfl⟩⟩ := h
  · exact hf.1.inputs (s := s.begin op)
  · exact hk.1.1.inputs (s := s.begin op)

theorem inputs_of_advance {s t : State} (h : advance s = .next t) :
    t.inp = s.inp ∧ t.inLen = s.inLen ∧ t.nodeCap = s.nodeCap := by
  rcases moved_or_commanded_of_advance h with hm | hc
  · exact (tidy_of_moved hm).inputs
  · exact inputs_of_commanded hc

/-- While `BUSY` no action of the host that is taken changes the inputs of the run (R181, R30). -/
theorem inputs_of_hostAct {a : HostAct} {s t : State} (hb : s.status = .busy) (h : hostAct a s = .next t) :
    t.inp = s.inp ∧ t.inLen = s.inLen ∧ t.nodeCap = s.nodeCap := by
  cases a with
  | wait => exact inputs_of_advance h
  | reset => cases h; exact ⟨rfl, rfl, rfl⟩
  | readReg r => cases h; exact ⟨rfl, rfl, rfl⟩
  | writeReg r v =>
    by_cases hctrl : r = .ctrl
    · subst hctrl
      cases (writeReg_ctrl v s).symm.trans h
      rw [start, if_pos hb]
      exact ⟨rfl, rfl, rfl⟩
    · by_cases hlen : r = .inLen
      · subst hlen
        cases (if_pos hb : writeInLen v s = _).symm.trans h
      · cases (writeReg_readOnly v s hctrl hlen).symm.trans h
        exact ⟨rfl, rfl, rfl⟩
  | placeIn a v => cases (if_pos hb : placeIn a v s = _).symm.trans h
  | placeOut a v => cases (if_pos hb : placeOut a v s = _).symm.trans h
  | readOut a => cases (if_pos hb : readOut a s = _).symm.trans h

/-- Settles O54: the block's own moves keep the inputs, and so does the host while `BUSY`. -/
theorem blockNeverChangesItsInput : Obligations.BlockNeverChangesItsInput := by
  intro s t h hs
  cases hq : s.hostQ with
  | nil => exact inputs_of_advance ((step_of_silent hq).symm.trans h)
  | cons a q =>
    have hb : s.status = .busy := hs.resolve_left (by simp [hq])
    exact inputs_of_hostAct (s := { s with hostQ := q }) hb ((step_of_hostQ_cons hq).symm.trans h)

/-- Settles O55: the moves of a running command, one by one (R148). -/
theorem phaseMovesByTheTable : Obligations.PhaseMovesByTheTable := by
  intro s t hb hq h
  rcases moved_or_commanded_of_advance ((step_of_silent hq).symm.trans h) with hm | ⟨hnot, -⟩
  · cases hm with
    | stays hgoes hphase => exact .inl ⟨(Prod.mk.inj hgoes.2.1).1.trans hb, .inl hphase⟩
    | moves hgoes hphase => exact .inl ⟨(Prod.mk.inj hgoes.2.1).1.trans hb, .inr hphase⟩
    | completes u hgoes ht hphase =>
      subst ht
      exact .inr (.inl ⟨rfl, rfl, hphase⟩)
    | faults _ hstatus herr hphase => exact .inr (.inr ⟨hstatus, hphase, herr⟩)
  · exact absurd hb hnot

/-! ### The invariant (R12, R13, R17, R18, R19) -/

theorem runs_of_phaseMoves : ∀ m ∈ phaseMoves, m.1.runs = true ∧ m.2.runs = true := by decide

theorem runs_of_donePhases : ∀ p ∈ donePhases, p.runs = true := by decide

/-- In a phase that runs, `STATUS` is `BUSY`. -/
theorem statusOk.busy {s : State} (h : statusOk s) (hruns : s.phase.runs = true) : s.status = .busy ∧ s.err = .none := by
  unfold statusOk at h
  cases hs : s.status <;> rw [hs] at h
  · rw [h.2] at hruns; cases hruns
  · exact ⟨rfl, h.1⟩
  · rw [h.2] at hruns; cases hruns
  · rw [h.2] at hruns; cases hruns

/-- What is tidy keeps the parts of the invariant that are not about `STATUS` and the writer. -/
theorem Inv.of_tidy {s t : State} (hs : Inv s) (h : tidy s t) (hstatus : statusOk t) (hwriter : writerOk t) : Inv t := by
  obtain ⟨hinp, hout, -, -, hbits⟩ := hs
  have hsame := h.inputs.1
  obtain ⟨-, hout', hbits'⟩ := h
  exact ⟨hsame ▸ hinp, hout' hout, hstatus, hwriter, hbits' hbits⟩

theorem statusOk_congr {s t : State} (h : (t.status, t.err) = (s.status, s.err)) (hphase : t.phase = s.phase)
    (hs : statusOk s) : statusOk t := by
  obtain ⟨hstatus, herr⟩ := Prod.mk.inj h
  unfold statusOk at hs ⊢
  rw [hstatus, herr, hphase]
  exact hs

theorem statusOk_of_faulted {t : State} (hstatus : t.status = .fault) (herr : t.err ≠ .none) (hphase : t.phase = .halt) :
    statusOk t := by
  unfold statusOk
  rw [hstatus]
  exact ⟨herr, hphase⟩

theorem Inv.of_complete {s u : State} (hs : Inv s) (herr : s.err = .none) (hacc : s.wrAcc.length ≤ 7)
    (h : goesOn s u) : Inv u.complete := by
  obtain ⟨htidy, hstatus, hwriter⟩ := h
  exact hs.of_tidy htidy ⟨(Prod.mk.inj hstatus).2.trans herr, rfl⟩ (.inl (hwriter hacc))

theorem Inv.of_moved {s t : State} (hs : Inv s) (hacc : s.wrAcc.length ≤ 7) (h : Moved s t) : Inv t := by
  have htidy := tidy_of_moved h
  obtain ⟨-, -, hstatus, -, -⟩ := id hs
  cases h with
  | stays hgoes hphase => exact hs.of_tidy htidy (statusOk_congr hgoes.2.1 hphase hstatus) (.inl (hgoes.2.2 hacc))
  | moves hgoes hphase =>
    obtain ⟨hruns, hruns'⟩ := runs_of_phaseMoves _ hphase
    obtain ⟨hb, herr⟩ := hstatus.busy hruns
    obtain ⟨-, hsame, hwriter⟩ := hgoes
    obtain ⟨hst, her⟩ := Prod.mk.inj hsame
    refine hs.of_tidy htidy ?_ (.inl (hwriter hacc))
    unfold statusOk
    rw [hst, hb]
    exact ⟨her.trans herr, hruns'⟩
  | completes u hgoes ht hphase =>
    subst ht
    exact hs.of_complete (hstatus.busy (runs_of_donePhases _ hphase)).2 hacc hgoes
  | faults _ hst herr hphase hir => exact hs.of_tidy htidy (statusOk_of_faulted hst herr hphase) (.inr ⟨hst, hir⟩)

/-- Command start puts `STATUS`, `ERR` and `PHASE` in agreement and empties both bit buffers (R130). -/
theorem Inv.begin {s : State} (hs : Inv s) (op : BitVec 1) : Inv (s.begin op) := by
  obtain ⟨hinp, hout, -, -, -⟩ := hs
  refine ⟨hinp, hout, ⟨rfl, ?_⟩, .inl (Nat.zero_le 7), Nat.zero_le 7⟩
  unfold State.begin
  split <;> rfl

theorem Inv.start {s : State} (hs : Inv s) (op : BitVec 1) : Inv (start op s) := by
  unfold Machine.start
  split
  · exact hs
  · exact hs.begin op

theorem Inv.of_commanded {s t : State} (hs : Inv s) (h : commanded s t) : Inv t := by
  obtain ⟨-, op, hf | ⟨u, hk, rfl⟩⟩ := h
  · obtain ⟨htidy, hir, hstatus, herr, hphase⟩ := hf
    exact (hs.begin op).of_tidy htidy (statusOk_of_faulted hstatus herr hphase) (.inr ⟨hstatus, hir⟩)
  · exact (hs.begin op).of_complete rfl (Nat.zero_le 7) hk.1

theorem Inv.of_advance {s t : State} (hs : Inv s) (h : advance s = .next t) : Inv t := by
  obtain ⟨hinp, hout, hstatus, hwriter, hbits⟩ := id hs
  rcases hwriter with hacc | ⟨hst, hir⟩
  · rcases moved_or_commanded_of_advance h with hm | hc
    · exact hs.of_moved hacc hm
    · exact Inv.of_commanded ⟨hinp, hout, hstatus, .inl hacc, hbits⟩ hc
  · rw [advance, hir] at h
    simp only [hst, reduceCtorEq, if_false, Host.Outcome.next.injEq] at h
    exact h ▸ hs

theorem Inv.of_hostAct {a : HostAct} {s t : State} (hs : Inv s) (h : hostAct a s = .next t) : Inv t := by
  obtain ⟨hinp, hout, hstatus, hwriter, hbits⟩ := id hs
  cases a with
  | wait => exact hs.of_advance h
  | reset =>
    cases h
    exact ⟨hinp, hout, ⟨rfl, rfl⟩, .inl (Nat.zero_le 7), Nat.zero_le 7⟩
  | readReg r =>
    cases h
    exact hs
  | writeReg r v =>
    by_cases hctrl : r = .ctrl
    · subst hctrl
      cases (writeReg_ctrl v s).symm.trans h
      exact hs.start _
    · by_cases hlen : r = .inLen
      · subst hlen
        change writeInLen v s = .next t at h
        unfold writeInLen at h
        split at h <;> cases h
        exact hs
      · cases (writeReg_readOnly v s hctrl hlen).symm.trans h
        exact hs
  | placeIn a v =>
    change placeIn a v s = .next t at h
    unfold placeIn at h
    split at h <;> cases h
    exact ⟨Mem.write_wf hinp a v, hout, hstatus, hwriter, hbits⟩
  | placeOut a v =>
    change placeOut a v s = .next t at h
    unfold placeOut at h
    split at h <;> cases h
    exact ⟨hinp, Mem.write_wf hout a v, hstatus, hwriter, hbits⟩
  | readOut a =>
    change readOut a s = .next t at h
    unfold readOut at h
    split at h
    · cases h
    · split at h <;> cases h
      exact hs

/-- Settles O52: the block's moves and the host's actions, one by one. -/
theorem everyStepKeepsTheInvariant : Obligations.EveryStepKeepsTheInvariant := by
  intro s t hs h
  cases hq : s.hostQ with
  | nil => exact hs.of_advance ((step_of_silent hq).symm.trans h)
  | cons a q => exact Inv.of_hostAct (s := { s with hostQ := q }) hs ((step_of_hostQ_cons hq).symm.trans h)

end Sys2Proof.Machine

/-! ### Every command ends (O37)

`ENCODE` does what it does where no access fails, or ends in `IoError`; `DECODE` is followed operation by
operation, from a reader within `IN`. -/

namespace Sys2Proof.Machine

/-- A run with failing accesses, beside the run in which none fails. -/
def quieted : Likeness where
  run s t := t = s.quiet
  ended s t := t = s.quiet
  lost s := endedIn .ioError s

theorem inbyte_beyond {s : State} (hf : s.envFails = false) (h : s.inLen < s.inPos) :
    inbyte s = .fault .inBeyondEnd := by
  simpa [hf, h, h.ne', h.not_gt] using inbyte_cases s

theorem rbit_beyond {s : State} (h : s.rdNbits = 0) (hf : s.envFails = false) (hlt : s.inLen < s.inPos) :
    rbit s = .fault .inBeyondEnd := by
  simp [rbit, h, inbyte_beyond hf hlt]

theorem quieted_full : quieted.Full where
  inbyte := by
    rintro s _ rfl
    have hq := (noFail_quiet s).envFails
    rcases inbyte_cases s with ⟨-, e⟩ | ⟨-, hend, e⟩ | ⟨-, hlt, e⟩ | ⟨-, hlt, e⟩ <;> rw [e]
    · exact .lost _ ⟨rfl, rfl, rfl⟩
    · rw [inbyte_end hq hend]
      exact .ok rfl
    · rw [inbyte_byte hq hlt]
      exact .ok rfl
    · rw [inbyte_beyond hq hlt]
      exact .fault _
  outbyte := by
    rintro v s _ rfl
    rcases outbyte_cases v s with ⟨-, e⟩ | ⟨-, e⟩ <;> rw [e]
    · exact .lost _ ⟨rfl, rfl, rfl⟩
    · rw [outbyte_stores v (noFail_quiet s).envFails]
      exact .ok rfl
  rbit := by
    rintro s _ rfl
    have hq := (noFail_quiet s).envFails
    rcases rbit_cases s with ⟨h0, e⟩ | ⟨-, -, e⟩ | ⟨h0, -, hend, e⟩ | ⟨h0, -, hlt, e⟩ | ⟨h0, -, hlt, e⟩ <;> rw [e]
    · rw [rbit_held (s := s.quiet) h0]
      exact .ok rfl
    · exact .lost _ ⟨rfl, rfl, rfl⟩
    · rw [rbit_end (s := s.quiet) h0 hq hend]
      exact .ended rfl
    · rw [rbit_fetches (s := s.quiet) h0 hq hlt]
      exact .ok rfl
    · rw [rbit_beyond (s := s.quiet) h0 hq hlt]
      exact .fault _
  wbit := by
    rintro b s _ rfl
    rcases wbit_cases b s with ⟨h7, e⟩ | ⟨-, -, e⟩ | ⟨h7, -, e⟩ <;> rw [e]
    · rw [wbit_pending (s := s.quiet) b h7]
      exact .ok rfl
    · exact .lost _ ⟨rfl, rfl, rfl⟩
    · rw [wbit_stores (s := s.quiet) b h7 (noFail_quiet s).envFails]
      exact .ok rfl
  raise := by
    rintro k s _ - rfl
    rfl
  clear := by
    rintro s _ rfl
    rfl
  freq := by
    rintro v s _ rfl
    rfl
  cur := by
    rintro n s _ rfl
    rfl
  walk := by
    rintro st k n s _ rfl
    rfl
  shared := by
    rintro s _ rfl
    exact ⟨rfl, rfl, rfl, rfl⟩
  same := by
    rintro s _ rfl
    exact ⟨rfl, rfl⟩
  set := by
    rintro l s _ rfl
    rfl

/-- `ENCODE` ends without a fault, in `IoError` or in `LengthOverflow` (R150). -/
theorem encode_ends (s : State) : ∃ t, (encodeBody (s.begin 0#1)).toStep (fun _ s => s) = .next t ∧
    (endedOk t ∨ endedIn .ioError t ∨ endedIn .lengthOverflow t) := by
  have halike := quieted_full.encodeBody (s := s.begin 0#1) (t := s.quiet.begin 0#1) rfl
  have hq : (∃ t, encodeBody (s.quiet.begin 0#1) = .ok () t ∧ endedOk t) ∨
      ∃ t, encodeBody (s.quiet.begin 0#1) = .halted t ∧ endedIn .lengthOverflow t := by
    rcases lt_or_ge (inputPayload s.quiet).length (2 ^ 32) with hdata | hdata
    · obtain ⟨t, hrun, ht⟩ := encodeBody_encoded (noFail_quiet s) hdata
      exact .inl ⟨t, hrun, ht.endedOk⟩
    · obtain ⟨u, hrun, -⟩ := encodeBody_overflow (noFail_quiet s) hdata
      exact .inr ⟨_, hrun, rfl, rfl, rfl⟩
  generalize encodeBody (s.begin 0#1) = r at halike
  rcases hq with ⟨t, hrun, ht⟩ | ⟨t, hrun, ht⟩ <;> rw [hrun] at halike
  · cases halike with
    | ok h =>
      obtain ⟨u, _, rfl, rfl, rfl⟩ := h
      exact ⟨_, rfl, .inl ht⟩
    | lost _ h => exact ⟨_, rfl, .inr (.inl h)⟩
  · cases halike with
    | ended h =>
      obtain rfl : t = State.quiet _ := h
      exact ⟨_, rfl, .inr (.inr ht)⟩
    | lost _ h => exact ⟨_, rfl, .inr (.inl h)⟩

/-! `DECODE`. -/

/-- The faults of `DECODE`'s column (R150). -/
def decodeFault (t : State) : Prop :=
  endedIn .ioError t ∨ endedIn .truncatedContainer t ∨ endedIn .invalidHeader t ∨ endedIn .capacityExceeded t

/-- An operation goes on in a state of `P`, or ends the command in a fault of `DECODE`'s column. -/
def ends {α : Type} (P : State → Prop) : Res α → Prop
  | .ok _ t => P t
  | .halted t => decodeFault t
  | .fault _ => False
  | .refused _ => False

section
variable {α β : Type} {P Q : State → Prop} {s : State}

theorem ends.bind {r : Res α} {f : α → State → Res β} (h : ends P r)
    (hf : ∀ a t, r = .ok a t → P t → ends Q (f a t)) : ends Q (r.bind f) := by
  cases r with
  | ok a t => exact hf a t rfl h
  | halted t => exact h
  | fault e => exact h
  | refused e => exact h

theorem ends.mono {r : Res α} (h : ends P r) (hPQ : ∀ t, P t → Q t) : ends Q r := by
  cases r with
  | ok a t => exact hPQ t h
  | halted t => exact h
  | fault e => exact h
  | refused e => exact h

theorem ends.ite {p : Prop} [Decidable p] {r r' : Res α} (h : p → ends P r) (h' : ¬ p → ends P r') :
    ends P (if p then r else r') := by
  split
  next hp => exact h hp
  next hp => exact h' hp

/-- `DECODE` goes on, with the reader within `IN` and the tree `T`. -/
def goesWith (T : Option Node) (s : State) : Prop := readerOk s ∧ s.err = .none ∧ s.tree = T

theorem ends_rbit {T : Option Node} (h : goesWith T s) : ends (goesWith T) (rbit s) := by
  obtain ⟨⟨hbits, hpos⟩, hrest⟩ := h
  rcases rbit_cases s with ⟨h0, e⟩ | ⟨-, -, e⟩ | ⟨-, -, -, e⟩ | ⟨-, -, hlt, e⟩ | ⟨-, -, hlt, -⟩
  · rw [e]
    exact ⟨⟨(Nat.sub_le _ 1).trans hbits, hpos⟩, hrest⟩
  · rw [e]
    exact .inl ⟨rfl, rfl, rfl⟩
  · rw [e]
    exact .inr (.inl ⟨rfl, rfl, rfl⟩)
  · rw [e]
    exact ⟨⟨le_refl 7, hlt⟩, hrest⟩
  · exact absurd hpos (not_le.2 hlt)

theorem ends_rbitsFrom {T : Option Node} (n v : Nat) (h : goesWith T s) : ends (goesWith T) (rbitsFrom n v s) := by
  induction n generalizing v s with
  | zero => exact h
  | succ n ih => exact (ends_rbit h).bind fun b t _ ht => ih _ ht

theorem ends_rbits {T : Option Node} {n : Nat} (hn : countOk n) (h : goesWith T s) : ends (goesWith T) (rbits n s) := by
  rw [rbits_eq hn]
  exact ends_rbitsFrom n 0 h

theorem ends_nodeFlag {T : Option Node} (h : goesWith T s) : ends (goesWith T) (nodeFlag s) :=
  (ends_rbit h).bind fun _ _ _ ht => .ite (fun _ => .inr (.inr (.inr ⟨rfl, rfl, rfl⟩))) fun _ => ht

theorem ends_nodeRecords (n : Nat) (h : readerOk s ∧ s.err = .none) :
    ends (fun t => readerOk t ∧ t.err = .none) (nodeRecords n s) := by
  induction n generalizing s with
  | zero => exact h
  | succ n ih =>
    refine (ends_nodeFlag ⟨h.1, h.2, rfl⟩).bind fun b t _ ht => .ite (fun _ => ih ⟨ht.1, ht.2.1⟩) fun _ => ?_
    exact (ends_rbits (by decide) ht).bind fun v u _ hu => .ite (fun _ => ⟨hu.1, hu.2.1⟩) fun _ => ih ⟨hu.1, hu.2.1⟩

theorem ends_walkSymbol {T : Option Node} (n : Node) (limit : Nat) (h : goesWith T s) :
    ends (goesWith T) (walkSymbol n limit s) := by
  induction n generalizing s with
  | leaf sym flag => exact h
  | internal l r ihl ihr =>
    refine .ite (fun _ => .inr (.inr (.inl ⟨rfl, rfl, rfl⟩))) fun _ => (ends_rbit h).bind fun b t _ ht => ?_
    exact .ite (fun _ => ihr ht) fun _ => ihl ht

theorem ends_payloadLoop {l r : Node} (n : Nat) (h : goesWith (some (.internal l r)) s) :
    ends (goesWith (some (.internal l r))) (payloadLoop n s) := by
  induction n generalizing s with
  | zero => exact h
  | succ n ih =>
    refine .ite (fun hlt => ?_) fun _ => h
    have hsym : ends (goesWith (some (.internal l r))) (rdsym s.payEnd s) := by
      rw [rdsym_of_internal h.2.2, if_pos hlt]
      exact ends_walkSymbol _ _ h
    refine hsym.bind fun v t _ ht => ?_
    rcases outbyte_cases v t with ⟨-, e⟩ | ⟨-, e⟩ <;> rw [e]
    · exact .inl ⟨rfl, rfl, rfl⟩
    · exact ih ht

/-- `DESERIALIZE` that completes left a tree, whatever accesses were to fail (R112). -/
theorem tree_of_deserialize_ok {t : State} (h : readerOk s) (hrun : deserialize s = .ok () t) :
    ∃ root, t.tree = some root := by
  have hq := quieted_full.deserialize (s := s) rfl
  rw [hrun] at hq
  generalize hquiet : deserialize s.quiet = q at hq
  cases hq with
  | ok ht =>
    obtain ⟨root, htree, -⟩ := tree_of_deserialize (s := s.quiet) ⟨noFail_quiet s, h⟩ hquiet
    obtain rfl : _ = t.quiet := ht
    exact ⟨root, htree⟩

theorem ends_decodePayload {root : Node} (h : goesWith (some root) s) : ends endedOk (decodePayload s) := by
  refine .ite (fun _ => .inr (.inr (.inl ⟨rfl, rfl, rfl⟩))) fun hleaf => ?_
  cases root with
  | leaf sym flag =>
    have hdb : s.db = 0 := by simpa [rootIsLeaf, h.2.2] using hleaf
    rw [hdb]
    exact ⟨rfl, h.2.1, rfl⟩
  | internal l r =>
    refine (ends_payloadLoop (l := l) (r := r) (s := { s with payEnd := s.rdBitcnt + s.db }) _ h).bind fun _ t _ ht => ?_
    exact ⟨rfl, ht.2.1, rfl⟩

theorem ends_decodeTree (h : readerOk s ∧ s.err = .none) : ends endedOk (decodeTree s) := by
  refine (ends_nodeRecords (s.nodeCap + 1) (s := { s with t0 := s.rdBitcnt, stack := [], nodeCnt := 0 }) h).bind
    fun _ t hrun ht => .ite (fun _ => .inr (.inr (.inl ⟨rfl, rfl, rfl⟩))) fun _ => ?_
  obtain ⟨root, htree⟩ := tree_of_deserialize_ok (s := { s with t0 := s.rdBitcnt }) h.1 hrun
  exact ends_decodePayload ⟨ht.1, ht.2, htree⟩

theorem ends_decodeBody (h : goesWith none s) : ends endedOk (decodeBody s) := by
  refine (ends_rbits (by decide) h).bind fun tb t _ ht =>
    (ends_rbits (s := { t with tb := tb }) (by decide) ht).bind fun db u _ hu => ?_
  refine .ite (fun _ => .ite (fun _ => .inr (.inr (.inl ⟨rfl, rfl, rfl⟩))) fun _ => ⟨rfl, hu.2.1, rfl⟩) fun _ => ?_
  exact ends_decodeTree ⟨hu.1, hu.2.1⟩

end

/-- Settles O37: `ENCODE` beside its run without failing accesses, `DECODE` operation by operation. -/
theorem everyCommandEnds : Obligations.EveryCommandEnds := by
  intro s hs
  rw [exec_encode hs, exec_decode hs]
  refine ⟨encode_ends s, ?_⟩
  have h := ends_decodeBody (s := s.begin 1#1) ⟨⟨Nat.zero_le 7, Nat.zero_le _⟩, rfl, rfl⟩
  cases hrun : decodeBody (s.begin 1#1) with
  | ok _ t =>
    rw [hrun] at h
    exact ⟨t, rfl, .inl h⟩
  | halted t =>
    rw [hrun] at h
    exact ⟨t, rfl, .inr h⟩
  | fault e =>
    rw [hrun] at h
    exact h.elim
  | refused e =>
    rw [hrun] at h
    exact h.elim

end Sys2Proof.Machine

/-! ### A command forgets what the block held before (O44)

The two runs agree on every register the command sets, from where it sets it on: the likeness `shows f k` hides the
registers that command start leaves as they were, but for what `f` takes from them, and the bytes of `OUT` below `k`
and above what the command wrote. -/

namespace Sys2Proof.Machine

/-- The registers that command start leaves and a command reads only after it has set them. -/
structure Staged where
  freq : Table Nat
  code : Table CodeEntry
  stack : List Frame
  nodeCnt : Nat
  t0 : Nat
  d0 : Nat
  tb : Nat
  db : Nat
  payEnd : Nat

def State.staged (s : State) : Staged := ⟨s.freq, s.code, s.stack, s.nodeCnt, s.t0, s.d0, s.tb, s.db, s.payEnd⟩

/-- The state without what command start leaves as it was and the command does not take as its input. -/
def State.hide (s : State) : State :=
  { s with
    freq := tableOf 0, code := tableOf ⟨false, []⟩, stack := [], nodeCnt := 0, t0 := 0, d0 := 0, tb := 0, db := 0
    payEnd := 0, forest := [], nextOrd := 0, cur := .leaf 0 false, out := [], res := 0, opnd := noOperands
    hostQ := [], hostRd := 0 }

/-- The same bytes of `OUT` below `OUT_LEN`, those below `k` apart, and the write cursor at most there. -/
def outAlike (k : Nat) (s t : State) : Prop :=
  (∀ a, k ≤ a → a < s.outLen → s.out.read a = t.out.read a) ∧ s.outPos ≤ max s.outLen k

/-- The two runs look the same from outside. -/
def looksAlike (k : Nat) (s t : State) : Prop := s.hide = t.hide ∧ outAlike k s t

/-- Two runs that look the same, and of which `f` sees the same of the registers hidden. -/
def shows {β : Type} (f : Staged → β) (k : Nat) : Likeness where
  run s t := looksAlike k s t ∧ f s.staged = f t.staged
  ended := looksAlike k
  lost _ := False

/-- A register in sight holds the same. -/
theorem looksAlike.field {α : Type} {k : Nat} {s t : State} (f : State → α) (hf : ∀ u, f u.hide = f u)
    (h : looksAlike k s t) : f s = f t :=
  (hf s).symm.trans ((congrArg f h.1).trans (hf t))

theorem outAlike.storeOut {k : Nat} {s t : State} (v : Byte) (hpos : s.outPos = t.outPos) (h : outAlike k s t) :
    outAlike k (s.popEnv.storeOut v) (t.popEnv.storeOut v) := by
  obtain ⟨hout, hcur⟩ := h
  refine ⟨fun a hk ha => ?_, by simp only [State.storeOut]; omega⟩
  have ha : a < max s.outLen (s.outPos + 1) := ha
  change (s.out.write s.outPos v).read a = (t.out.write t.outPos v).read a
  rw [← hpos]
  by_cases hne : a = s.outPos
  · rw [hne, Mem.read_write_same, Mem.read_write_same]
  · rw [Mem.read_write_other _ _ hne, Mem.read_write_other _ _ hne]
    exact hout a hk (by omega)

theorem looksAlike.storeOut {k : Nat} {s t : State} (v : Byte) (h : looksAlike k s t) :
    looksAlike k (s.popEnv.storeOut v) (t.popEnv.storeOut v) := by
  refine ⟨?_, h.2.storeOut v (h.field State.outPos fun _ => rfl)⟩
  exact congrArg (fun u : State =>
    { u.popEnv with outLen := max u.outLen (u.outPos + 1), outPos := u.outPos + 1 }) h.1

theorem looksAlike.faultEntry {k : Nat} {s t : State} (e : Err) (h : looksAlike k s t) :
    looksAlike k (s.faultEntry e) (t.faultEntry e) :=
  ⟨congrArg (State.faultEntry · e) h.1, h.2⟩

theorem looksAlike.complete {k : Nat} {s t : State} (h : looksAlike k s t) : looksAlike k s.complete t.complete :=
  ⟨congrArg State.complete h.1, h.2⟩

theorem looksAlike.popEnv {k : Nat} {s t : State} (h : looksAlike k s t) : looksAlike k s.popEnv t.popEnv :=
  ⟨congrArg State.popEnv h.1, h.2⟩

theorem looksAlike.appendBit {k : Nat} {s t : State} (b : Bool) (h : looksAlike k s t) :
    looksAlike k (s.appendBit b) (t.appendBit b) :=
  ⟨congrArg (State.appendBit · b) h.1, h.2⟩

theorem shows_sound {β : Type} {f : Staged → β} (k : Nat)
    (hfreq : ∀ a b v, f a = f b → f { a with freq := v } = f { b with freq := v })
    (hwalk : ∀ a b st n, f a = f b → f { a with stack := st, nodeCnt := n } = f { b with stack := st, nodeCnt := n }) :
    (shows f k).Sound where
  inbyte := by
    rintro s t ⟨h, hf⟩
    exact .inbyte (h.field State.ports fun _ => rfl) (h.popEnv.faultEntry _) ⟨h.popEnv, hf⟩
      ⟨⟨congrArg (fun u : State => { u.popEnv with inPos := u.inPos + 1 }) h.1, h.2⟩, hf⟩
  outbyte := by
    rintro v s t ⟨h, hf⟩
    exact .outbyte (h.field State.ports fun _ => rfl) (h.popEnv.faultEntry _) ⟨h.storeOut v, hf⟩
  rbit := by
    rintro s t ⟨h, hf⟩
    exact .rbit (h.field State.ports fun _ => rfl) (fun _ _ => h.popEnv.faultEntry _)
      (fun _ => ⟨⟨congrArg State.takeBit h.1, h.2⟩, hf⟩) ⟨⟨congrArg State.fetchBit h.1, h.2⟩, hf⟩
  wbit := by
    rintro b s t ⟨h, hf⟩
    exact .wbit (h.field State.ports fun _ => rfl) ((h.appendBit b).popEnv.faultEntry _) (fun _ => ⟨h.appendBit b, hf⟩)
      fun v => ⟨⟨congrArg State.clearAcc ((h.appendBit b).storeOut v).1, ((h.appendBit b).storeOut v).2⟩, hf⟩
  raise := by
    rintro e s t - ⟨h, -⟩
    exact h.faultEntry e
  clear := by
    rintro s t ⟨h, hf⟩
    exact ⟨⟨congrArg State.clearAcc h.1, h.2⟩, hf⟩
  freq := by
    rintro v s t ⟨h, hf⟩
    exact ⟨h, hfreq _ _ v hf⟩
  cur := by
    rintro n s t ⟨h, hf⟩
    exact ⟨h, hf⟩
  walk := by
    rintro st n root s t ⟨h, hf⟩
    exact ⟨⟨congrArg (fun u : State => { u with tree := root }) h.1, h.2⟩, hwalk _ _ st n hf⟩
  shared := by
    rintro s t ⟨h, -⟩
    exact ⟨h.field State.wrAcc fun _ => rfl, h.field State.rdBitcnt fun _ => rfl, h.field State.nodeCap fun _ => rfl,
      h.field State.tree fun _ => rfl⟩

/-- With the hidden registers out of sight altogether. -/
abbrev unseen (k : Nat) : Likeness := shows (fun _ => ()) k

/-- Results alike with `f` in sight, as a part of a run whose other parts see other registers. -/
theorem shows_at {α β : Type} {f : Staged → β} {k : Nat} {r q : Res α} (h : (shows f k).alike r q) :
    Res.Alike (unseen k) (shows f k).run r q :=
  h.mono (fun _ _ h => h) (fun _ _ h => h) fun _ h => h

theorem shows_raised {α : Type} {R : State → State → Prop} {k : Nat} {s t : State} (e : Err) (h : looksAlike k s t) :
    Res.Alike (α := α) (unseen k) R (raise e s) (raise e t) :=
  .ended (h.faultEntry e)

theorem looksAlike.seek {k a : Nat} (ha : a ≤ k) {s t : State} (h : looksAlike k s t) :
    looksAlike k { s with outPos := a } { t with outPos := a } :=
  ⟨congrArg (fun u : State => { u with outPos := a }) h.1, h.2.1, le_max_of_le_right ha⟩

section
variable {k : Nat} {s t : State}

/-! `ENCODE`. -/

/-- What `EMIT` reads of `CODE`: the code word of an entry that is not valid is not read (R23). -/
def codeRead (c : Table CodeEntry) (v : Byte) : Bool × List Bool :=
  ((c.get v).valid, if (c.get v).valid then (c.get v).bits else [])

theorem codeAlike_of_codeRead {c d : Table CodeEntry} (h : codeRead c = codeRead d) (v : Byte) :
    codeAlike (c.get v) (d.get v) := by
  obtain ⟨hvalid, hbits⟩ := Prod.mk.inj (congrFun h v)
  refine ⟨hvalid, fun hv => ?_⟩
  rwa [if_pos hv, if_pos (hvalid ▸ hv)] at hbits

theorem codeRead_put {c d : Table CodeEntry} (h : codeRead c = codeRead d) (b : Byte) (e : CodeEntry) :
    codeRead (c.put b e) = codeRead (d.put b e) := by
  funext v
  by_cases hv : v = b
  · simp [codeRead, hv]
  · simpa [codeRead, Table.get_put_other _ _ hv] using congrFun h v

theorem codeRead_walkCodes {c d : Table CodeEntry} (n : Node) (p : List Bool) (h : codeRead c = codeRead d) :
    codeRead (walkCodes n p c) = codeRead (walkCodes n p d) := by
  induction n generalizing p c d with
  | leaf sym flag =>
    cases flag with
    | false => exact codeRead_put h sym _
    | true => exact h
  | internal l r ihl ihr => exact ihr _ (ihl _ h)

theorem codeRead_clearCodes (c d : Table CodeEntry) : codeRead (clearCodes c) = codeRead (clearCodes d) := by
  funext v
  simp [codeRead, clearCodes]

theorem shows_encodeEmpty (h : looksAlike k s t) :
    Res.Alike (unseen k) (looksAlike k) (encodeEmpty s) (encodeEmpty t) := by
  have S := shows_sound (f := fun _ => ()) k (fun _ _ _ _ => rfl) fun _ _ _ _ _ => rfl
  exact (S.wbits 0 _ ⟨h, rfl⟩).bind fun _ _ _ h => (S.wbits 0 _ h).bind fun _ _ _ h => (S.wflush h).bind
    fun _ _ _ h => .ok h.1.complete

theorem shows_encodePatch (h : looksAlike k s t) (htb : s.tb = t.tb) (hdb : s.db = t.db) :
    Res.Alike (unseen k) (looksAlike k) (encodePatch s) (encodePatch t) := by
  have S := shows_sound (f := fun _ => ()) k (fun _ _ _ _ => rfl) fun _ _ _ _ _ => rfl
  refine .ite (by rw [hdb]) (fun _ => shows_raised _ h) fun _ => .bind (R := (unseen k).run) ?_ fun _ _ _ h => .ok h.1.complete
  refine S.patch htb hdb (fun h => ⟨h.1.seek (Nat.zero_le k), rfl⟩) ⟨⟨?_, h.2⟩, rfl⟩
  rw [← hdb]
  exact congrArg (fun u : State => { u with hdrData := BitVec.ofNat 32 s.db }) h.1

theorem looksAlike.build (h : looksAlike k s t) (hfreq : s.freq = t.freq) : looksAlike k s.build t.build := by
  have hbuild : ∀ u : State, u.build =
      { u with forest := u.build.forest, nextOrd := u.build.nextOrd, tree := u.build.tree } := by
    intro u
    rcases u.build_cases with ⟨-, e⟩ | ⟨_, -, e⟩ | ⟨_, _, _, _, _, -, -, e⟩ <;> rw [e]
  rw [hbuild s, hbuild t, build_tree_congr hfreq]
  exact ⟨congrArg (fun u : State => { u with tree := t.build.tree }) h.1, h.2⟩

theorem shows_countIn (h : looksAlike k s t) :
    Res.Alike (unseen k) (shows Staged.freq k).run (countIn s) (countIn t) := by
  have S := shows_sound (f := Staged.freq) k (fun _ _ _ _ => rfl) fun _ _ _ _ h => h
  refine shows_at (.at (f := countLoop) (by rw [h.field State.inLen fun _ => rfl]) (S.countLoop (fun h => h.2) _ ?_))
  exact ⟨⟨congrArg (fun u : State => { u with inPos := 0 }) h.1, h.2⟩, rfl⟩

theorem shows_serialize (root : Node) (h : looksAlike k s t) (ht0 : s.t0 = t.t0) :
    Res.Alike (unseen k) (shows Staged.t0 k).run (serialize root s) (serialize root t) := by
  have S := shows_sound (f := Staged.t0) k (fun _ _ _ h => h) fun _ _ _ _ h => h
  exact shows_at (S.serialize root ⟨h, ht0⟩)

/-- What `EMIT` and the step after it take from before: `tb`, `d0`, and the code words. -/
def Staged.emitting (l : Staged) : Nat × Nat × (Byte → Bool × List Bool) := (l.tb, l.d0, codeRead l.code)

theorem shows_emit (h : looksAlike k s t) (hf : s.staged.emitting = t.staged.emitting) :
    Res.Alike (unseen k) (shows Staged.emitting k).run (emit s) (emit t) := by
  have S := shows_sound (f := Staged.emitting) k (fun _ _ _ h => h) fun _ _ _ _ h => h
  refine shows_at (.at (f := emitLoop) (by rw [h.field State.inLen fun _ => rfl]) (S.emitLoop (fun h => ?_) _ ?_))
  · exact codeAlike_of_codeRead (congrArg (fun p => p.2.2) h.2)
  · exact ⟨⟨congrArg (fun u : State => { u with inPos := 0 }) h.1, h.2⟩, hf⟩

/-- `DERIVE` after the tree length is latched (R131). -/
theorem shows_derive (h : looksAlike k s t) (htb : s.tb = t.tb) :
    Res.Alike (unseen k) (shows (fun l => (l.tb, codeRead l.code)) k).run (derive s) (derive t) := by
  have htree : s.tree = t.tree := h.field State.tree fun _ => rfl
  cases hs : s.tree with
  | none =>
    rw [derive_of_none hs, derive_of_none (htree ▸ hs)]
    exact .refused _
  | some root =>
    rw [derive_of_some hs, derive_of_some (htree ▸ hs)]
    exact .ok ⟨h, Prod.ext htb (codeRead_walkCodes root [] (codeRead_clearCodes _ _))⟩

theorem looksAlike.latchTree {n m : Nat} (hn : n - s.t0 = m - t.t0) (h : looksAlike k s t) :
    looksAlike k (s.latchTree n) (t.latchTree m) := by
  refine ⟨?_, h.2⟩
  rw [State.latchTree, State.latchTree, hn]
  exact congrArg (fun u : State => { u with hdrTree := BitVec.ofNat 32 (m - t.t0) }) h.1

theorem shows_encodeBody (h : looksAlike 8 s t) :
    Res.Alike (unseen 8) (looksAlike 8) (encodeBody s) (encodeBody t) := by
  have S := shows_sound (f := fun _ => ()) 8 (fun _ _ _ _ => rfl) fun _ _ _ _ _ => rfl
  refine (shows_countIn h).bind fun _ s t h => ?_
  obtain ⟨h, hfreq⟩ := h
  have hb := h.build hfreq
  dsimp only
  rw [hb.field State.tree fun _ => rfl]
  cases t.build.tree with
  | none => exact shows_encodeEmpty hb
  | some root =>
    refine (S.wseek (fun h => ⟨h.1.seek (le_refl 8), rfl⟩) ⟨hb, rfl⟩).bind fun _ s t h => ?_
    obtain ⟨h, -⟩ := h
    refine (shows_serialize root (s := { s with t0 := s.wrBitcnt }) (t := { t with t0 := t.wrBitcnt }) h
      (h.field State.wrBitcnt fun _ => rfl)).bind fun _ s t h => ?_
    obtain ⟨h, ht0⟩ := h
    have htb : s.wrBitcnt - s.t0 = t.wrBitcnt - t.t0 := by
      rw [h.field State.wrBitcnt fun _ => rfl, show s.t0 = t.t0 from ht0]
    refine (shows_derive (h.latchTree htb) htb).bind fun _ s t h => ?_
    obtain ⟨h, hcode⟩ := h
    obtain ⟨htb, hcode⟩ := Prod.mk.inj hcode
    refine (shows_emit (s := { s with d0 := s.wrBitcnt }) (t := { t with d0 := t.wrBitcnt }) h
      (Prod.ext htb (Prod.ext (h.field State.wrBitcnt fun _ => rfl) hcode))).bind fun _ s t h => ?_
    obtain ⟨h, hemit⟩ := h
    have hd0 : s.d0 = t.d0 := congrArg (fun p => p.2.1) hemit
    refine shows_encodePatch (s := s.latchData s.wrBitcnt) (t := t.latchData t.wrBitcnt) h (congrArg Prod.fst hemit) ?_
    change s.wrBitcnt - s.d0 = t.wrBitcnt - t.d0
    rw [h.field State.wrBitcnt fun _ => rfl, hd0]

/-! `DECODE`. -/

theorem shows_decodePayload (h : looksAlike k s t) (hdb : s.db = t.db) :
    Res.Alike (unseen k) (looksAlike k) (decodePayload s) (decodePayload t) := by
  have S := shows_sound (f := Staged.payEnd) k (fun _ _ _ h => h) fun _ _ _ _ h => h
  have htree : s.tree = t.tree := h.field State.tree fun _ => rfl
  have hcnt : s.rdBitcnt = t.rdBitcnt := h.field State.rdBitcnt fun _ => rfl
  refine .ite (by rw [hdb, rootIsLeaf, rootIsLeaf, htree]) (fun _ => shows_raised _ h) fun _ => ?_
  have hloop := S.payloadLoop (fun h => h.2) s.db (s := { s with payEnd := s.rdBitcnt + s.db })
    (t := { t with payEnd := t.rdBitcnt + t.db }) ⟨h, by rw [State.staged, State.staged, hcnt, hdb]⟩
  exact (shows_at (hloop.at (f := payloadLoop) hdb)).bind fun _ _ _ h => .ok h.1.complete

/-- What `D_TREE` takes from before and what its walk writes. -/
def Staged.walking (l : Staged) : Nat × Nat × Nat × List Frame × Nat := (l.tb, l.db, l.t0, l.stack, l.nodeCnt)

theorem shows_deserialize (h : looksAlike k s t) (htb : s.tb = t.tb) (hdb : s.db = t.db) (ht0 : s.t0 = t.t0) :
    Res.Alike (unseen k) (shows Staged.walking k).run (deserialize s) (deserialize t) := by
  have S := shows_sound (f := Staged.walking) k (fun _ _ _ h => h) fun a b st n h => by
    obtain ⟨htb, hdb, ht0, -⟩ := by simpa only [Staged.walking, Prod.mk.injEq] using h
    simp only [Staged.walking, htb, hdb, ht0]
  refine shows_at (.at (f := nodeRecords) (by rw [h.field State.nodeCap fun _ => rfl]) (S.nodeRecords (fun h => ?_) _ ?_))
  · exact ⟨congrArg (fun p => p.2.2.2.1) h.2, congrArg (fun p => p.2.2.2.2) h.2⟩
  · exact ⟨h, by simp only [Staged.walking, State.staged, htb, hdb, ht0]⟩

theorem shows_decodeTree (h : looksAlike k s t) (htb : s.tb = t.tb) (hdb : s.db = t.db) :
    Res.Alike (unseen k) (looksAlike k) (decodeTree s) (decodeTree t) := by
  refine (shows_deserialize (s := { s with t0 := s.rdBitcnt }) (t := { t with t0 := t.rdBitcnt }) h htb hdb
    (h.field State.rdBitcnt fun _ => rfl)).bind fun _ s t h => ?_
  obtain ⟨h, hwalk⟩ := h
  have htb : s.tb = t.tb := congrArg Prod.fst hwalk
  have hdb : s.db = t.db := congrArg (fun p => p.2.1) hwalk
  have ht0 : s.t0 = t.t0 := congrArg (fun p => p.2.2.1) hwalk
  have hcnt : s.rdBitcnt = t.rdBitcnt := h.field State.rdBitcnt fun _ => rfl
  exact .ite (by rw [hcnt, ht0, htb]) (fun _ => shows_raised _ h) fun _ => shows_decodePayload h hdb

theorem shows_decodeBody (h : looksAlike k s t) :
    Res.Alike (unseen k) (looksAlike k) (decodeBody s) (decodeBody t) := by
  have S := shows_sound (f := fun _ => ()) k (fun _ _ _ _ => rfl) fun _ _ _ _ _ => rfl
  have S' := shows_sound (f := Staged.tb) k (fun _ _ _ h => h) fun _ _ _ _ h => h
  refine (S.rbits _ ⟨h, rfl⟩).bind fun tb s t h => ?_
  refine (shows_at (S'.rbits _ (s := { s with tb := tb }) (t := { t with tb := tb }) ⟨h.1, rfl⟩)).bind fun db s t h => ?_
  obtain ⟨h, htb⟩ := h
  have htb : s.tb = t.tb := htb
  have hl : looksAlike k (s.latchHeader db) (t.latchHeader db) := by
    refine ⟨?_, h.2⟩
    rw [State.latchHeader, State.latchHeader, htb]
    exact congrArg (fun u : State =>
      { u with hdrTree := BitVec.ofNat 32 t.tb, hdrData := BitVec.ofNat 32 db }) h.1
  refine .ite (by rw [State.latchHeader_tb, State.latchHeader_tb, htb]) (fun _ => ?_) fun _ => shows_decodeTree hl htb rfl
  exact .ite .rfl (fun _ => shows_raised _ hl) fun _ => .ok hl.complete

/-! The commands. -/

/-- Two commands of the same kind started on the same input look the same from outside. -/
theorem looksAlike_begin (op : BitVec 1) (hinp : s.inp = t.inp) (hlen : s.inLen = t.inLen) (henv : s.envFail = t.envFail)
    (hcap : s.nodeCap = t.nodeCap) : looksAlike k (s.begin op) (t.begin op) := by
  refine ⟨?_, fun a _ ha => absurd ha (Nat.not_lt_zero a), Nat.zero_le _⟩
  simp only [State.hide, State.begin, hinp, hlen, henv, hcap]

/-- Of two runs that look the same, both make a step if the first does. -/
theorem steps_of_alike {r q : Res Unit} (h : Res.Alike (unseen k) (looksAlike k) r q)
    (hr : ∃ u, r.toStep (fun _ s => s) = .next u) :
    ∃ u v, r.toStep (fun _ s => s) = .next u ∧ q.toStep (fun _ s => s) = .next v ∧ looksAlike k u v := by
  cases h with
  | ok h => exact ⟨_, _, rfl, rfl, h⟩
  | ended h => exact ⟨_, _, rfl, rfl, h⟩
  | lost _ h => exact h.elim
  | fault e =>
    obtain ⟨_, hr⟩ := hr
    cases hr
  | refused e =>
    obtain ⟨_, hr⟩ := hr
    cases hr

/-- The registers the host reads, and `IN_POS`. -/
theorem looksAlike.registers {u v : State} (h : looksAlike k u v) :
    u.status = v.status ∧ u.err = v.err ∧ u.hdrTree = v.hdrTree ∧ u.hdrData = v.hdrData ∧ u.outLen = v.outLen ∧
      u.inPos = v.inPos :=
  ⟨h.field State.status fun _ => rfl, h.field State.err fun _ => rfl, h.field State.hdrTree fun _ => rfl,
    h.field State.hdrData fun _ => rfl, h.field State.outLen fun _ => rfl, h.field State.inPos fun _ => rfl⟩

/-- From the first byte on, the output is the same (R15). -/
theorem looksAlike.outBytes {u v : State} (h : looksAlike 0 u v) : outBytes u = outBytes v := by
  rw [Machine.outBytes, Machine.outBytes, ← h.field State.outLen fun _ => rfl]
  exact List.map_congr_left fun a ha => h.2.1 a (Nat.zero_le a) (List.mem_range.1 ha)

/-- The container depends on the input alone (R139). -/
theorem Encoded.outBytes_congr {u v : State} (hinp : s.inp = t.inp) (hlen : s.inLen = t.inLen) (hu : Encoded s u)
    (hv : Encoded t v) : outBytes u = outBytes v := by
  have hbytes : inBytes s = inBytes t := by rw [inBytes, inBytes, hinp, hlen]
  have htree : inputTree s = inputTree t := build_tree_congr (congrArg freqOf hbytes)
  have hbits : inputTreeBits s = inputTreeBits t := by rw [inputTreeBits, inputTreeBits, htree]
  have hpayload : inputPayload s = inputPayload t := by rw [inputPayload, inputPayload, htree, hbytes]
  have houtLen : u.outLen = v.outLen := by rw [hu.outLen, hv.outLen, hbits, hpayload]
  rw [Machine.outBytes, Machine.outBytes, ← houtLen]
  refine List.map_congr_left fun a ha => ?_
  have ha := List.mem_range.1 ha
  rw [hu.container a ha, hv.container a (houtLen ▸ ha), hbits, hpayload]

end

/-- Settles O44: both runs of a command look the same from outside, and a container is its input's. -/
theorem commandsForgetWhatWasBefore : Obligations.CommandsForgetWhatWasBefore := by
  intro s s' hs hs' hinp hlen henv hcap
  obtain ⟨⟨u, hu, -⟩, ⟨v, hv, -⟩⟩ := everyCommandEnds s hs
  constructor
  · rw [exec_encode hs] at hu
    obtain ⟨t, t', ht, ht', h⟩ := steps_of_alike (shows_encodeBody (looksAlike_begin 0#1 hinp hlen henv hcap)) ⟨u, hu⟩
    rw [← exec_encode hs] at ht
    rw [← exec_encode hs'] at ht'
    obtain ⟨hstatus, herr, htree, hdata, hout, hpos⟩ := h.registers
    refine ⟨t, t', ht, ht', hstatus, herr, htree, hdata, hout, hpos, fun hdone => ?_, h.2.1⟩
    exact Encoded.outBytes_congr hinp hlen (encoded_of_done hs ht hdone).1
      (encoded_of_done hs' ht' (hstatus.symm.trans hdone)).1
  · rw [exec_decode hs] at hv
    obtain ⟨t, t', ht, ht', h⟩ :=
      steps_of_alike (shows_decodeBody (k := 0) (looksAlike_begin 1#1 hinp hlen henv hcap)) ⟨v, hv⟩
    rw [← exec_decode hs] at ht
    rw [← exec_decode hs'] at ht'
    obtain ⟨hstatus, herr, htree, hdata, hout, hpos⟩ := h.registers
    exact ⟨t, t', ht, ht', hstatus, herr, htree, hdata, hout, hpos, h.outBytes⟩

end Sys2Proof.Machine

/-! ### The sequencer's run is the command (O45)

The sequencer's state and the state of the command run as one transition go along together: `placed p k x` says where
the sequencer stands, `x.bare = y.bare` that the two differ in the model's own latches and `PHASE` only. -/

namespace Sys2Proof.Machine

/-! The likeness of the two runs. -/

/-- The state without the model's own latches and `PHASE`, which the sequencer alone moves. -/
def State.bare (s : State) : State := { s.block with phase := .idle }

theorem State.block_eq (s : State) : s.block = { s.bare with phase := s.phase } := rfl

/-- Two runs in the same state but for the model's own latches and `PHASE`. -/
def twin : Likeness where
  run s t := s.bare = t.bare
  ended s t := s.block = t.block
  lost _ := False

theorem bare_field {α : Type} {s t : State} (f : State → α) (hf : ∀ u, f u.bare = f u) (h : s.bare = t.bare) :
    f s = f t :=
  (hf s).symm.trans ((congrArg f h).trans (hf t))

theorem block_faultEntry {s t : State} (k : Err) (h : s.bare = t.bare) : (s.faultEntry k).block = (t.faultEntry k).block :=
  congrArg (State.faultEntry · k) h

theorem block_complete {s t : State} (h : s.bare = t.bare) : s.complete.block = t.complete.block :=
  congrArg State.complete h

theorem twin_full : twin.Full where
  inbyte := fun {s t} (h : s.bare = t.bare) =>
    .inbyte (bare_field State.ports (fun _ => rfl) h) (congrArg (fun u : State => u.popEnv.faultEntry .ioError) h)
      (congrArg State.popEnv h)
      (by exact congrArg (fun u : State => { u.popEnv with inPos := u.inPos + 1 }) h)
  outbyte := fun v {s t} (h : s.bare = t.bare) =>
    .outbyte (bare_field State.ports (fun _ => rfl) h) (congrArg (fun u : State => u.popEnv.faultEntry .ioError) h)
      (congrArg (fun u : State => u.popEnv.storeOut v) h)
  rbit := fun {s t} (h : s.bare = t.bare) =>
    .rbit (bare_field State.ports (fun _ => rfl) h) (fun k _ => congrArg (fun u : State => u.popEnv.faultEntry k) h)
      (fun _ => congrArg State.takeBit h) (congrArg State.fetchBit h)
  wbit := fun b {s t} (h : s.bare = t.bare) =>
    .wbit (bare_field State.ports (fun _ => rfl) h)
      (congrArg (fun u : State => (u.appendBit b).popEnv.faultEntry .ioError) h)
      (fun _ => congrArg (State.appendBit · b) h)
      fun v => congrArg (fun u : State => ((u.appendBit b).popEnv.storeOut v).clearAcc) h
  raise := fun {k s t} _ (h : s.bare = t.bare) => block_faultEntry k h
  clear := fun {s t} (h : s.bare = t.bare) => congrArg State.clearAcc h
  freq := fun v {s t} (h : s.bare = t.bare) => by
    exact congrArg (fun u : State => { u with freq := v }) h
  cur := fun n {s t} (h : s.bare = t.bare) => by
    exact congrArg (fun u : State => { u with cur := n }) h
  walk := fun st k n {s t} (h : s.bare = t.bare) => congrArg (fun u : State => u.setWalk st k n) h
  shared := fun {s t} (h : s.bare = t.bare) =>
    ⟨bare_field State.wrAcc (fun _ => rfl) h, bare_field State.rdBitcnt (fun _ => rfl) h,
      bare_field State.nodeCap (fun _ => rfl) h, bare_field State.tree (fun _ => rfl) h⟩
  same := fun {s t} (h : s.bare = t.bare) =>
    ⟨bare_field State.latches (fun _ => rfl) h, bare_field State.inLen (fun _ => rfl) h⟩
  set := fun l {s t} (h : s.bare = t.bare) => congrArg (fun u : State => u.setLatches l) h

/-! Where the sequencer stands, and what it reaches from there. -/

/-- The sequencer stands at the place `k` of the phase `p`, with nothing latched and the host silent. -/
def placed (p : Phase) (k : Nat) (s : State) : Prop :=
  s.status = .busy ∧ s.ir = none ∧ s.hostQ = [] ∧ s.phase = p ∧ s.useq = k

/-- The run of the sequencer from `x` ends as `r` does, if `r` makes a step. -/
def reaches (x : State) (r : Res Unit) : Prop :=
  ∀ t, r.toStep (fun _ s => s) = .next t → ∃ n u, steps n x = .next u ∧ u.block = t.block

section
variable {α : Type} {p q : Phase} {j k : Nat} {x y z : State} {i : Instr}

theorem placed.phase (h : placed p k x) : x.phase = p := h.2.2.2.1

theorem placed.useq (h : placed p k x) : x.useq = k := h.2.2.2.2

theorem placed.step_eq (h : placed p k x) : step x = sequence x := by
  obtain ⟨hb, hir, hq, -⟩ := h
  exact step_eq_sequence hb hir hq

theorem placed.of_kept (h : placed p k x) (hk : kept x z) : placed p k z := by
  obtain ⟨hb, hir, hq, hp, hu⟩ := h
  obtain ⟨⟨⟨hinputs, -⟩, hstatus, -⟩, hplace⟩ := hk
  simp only [State.inputs, Prod.mk.injEq] at hinputs hstatus hplace
  obtain ⟨-, -, -, hq'⟩ := hinputs
  obtain ⟨hp', hu', hir'⟩ := hplace
  exact ⟨hstatus.1.trans hb, hir'.trans hir, hq'.trans hq, hp'.trans hp, hu'.trans hu⟩

theorem placed.goTo (h : placed p k x) (q : Phase) : placed q 0 (x.goTo q) := by
  obtain ⟨hb, hir, hq, -⟩ := h
  exact ⟨hb, hir, hq, rfl, rfl⟩

/-- The state the operation issued at a place runs in. -/
def State.issued (s : State) (i : Instr) (k : Nat) : State :=
  { s with opnd := (encode i).opnd, useq := k, ir := none }

theorem placed.issued (h : placed p j x) (i : Instr) (k : Nat) : placed p k (x.issued i k) := by
  obtain ⟨hb, -, hq, hp, -⟩ := h
  exact ⟨hb, rfl, hq, hp, rfl⟩

theorem reaches.here {t : State} (h : x.block = t.block) : reaches x (.ok () t) := by
  intro u hu
  cases hu
  exact ⟨0, x, rfl, h⟩

theorem reaches.halted {t : State} (h : x.block = t.block) : reaches x (.halted t) := by
  intro u hu
  cases hu
  exact ⟨0, x, rfl, h⟩

theorem reaches.after {r : Res Unit} (hmove : step x = .next z) (h : reaches z r) : reaches x r := by
  intro t ht
  obtain ⟨n, u, hn, hu⟩ := h t ht
  exact ⟨n + 1, u, by rw [steps, hmove]; exact hn, hu⟩

/-- A move of the sequencer between two micro-operations. -/
theorem reaches.move {r : Res Unit} (hx : placed p k x) (hmove : sequence x = .next z) (h : reaches z r) :
    reaches x r :=
  .after (hx.step_eq.trans hmove) h

/-- A step that does `op` in `z`, as the command does in `y`. -/
theorem reaches.op {op : State → Res α} {g : α → State → State} {f : α → State → Res Unit} (hz : placed p k z)
    (hzy : z.bare = y.bare) (hstep : step x = (op z).toStep g)
    (hop : ∀ {L : Likeness}, L.Full → ∀ {s t}, L.run s t → L.alike (op s) (op t))
    (hnext : ∀ a u v, op y = .ok a v → placed p k u → u.bare = v.bare → reaches (g a u) (f a v)) :
    reaches x ((op y).bind f) := by
  have hkept := hop (keeps_full z) (kept.refl z).self
  have htwin := hop twin_full hzy
  generalize op z = r at hkept htwin hstep
  generalize hq : op y = q at htwin
  cases htwin with
  | ok h =>
    cases hkept with
    | ok hk => exact .after hstep (hnext _ _ _ hq (hz.of_kept hk.2) h)
  | ended h => exact .after hstep (.halted h)
  | lost _ h => exact h.elim
  | fault e => intro t ht; cases ht
  | refused e => intro t ht; cases ht

/-- A micro-operation decodes to itself, whatever its operands (R69, R73). -/
theorem decode_issued_uop (h : i.format = .uop) : decode (encode i).word (encode i).opnd = .ok i [] := by
  cases i with
  | encode | decode | hdrTreebitlen | hdrDatabitlen | nodeInternal | nodeLeaf | pathLeft | pathRight | pad => cases h
  | rbit | rbits | wbit | wbits | wtell | wseek | wflush | build | serialize | deserialize | derive | rdsym | count
  | emit | patch => rfl

/-- The block runs what the sequencer issued (D18). -/
theorem placed.step_issue (hz : placed p j z) (k : Nat) (hi : i.format = .uop) :
    step (z.issue i k) = exec i (z.issued i k) := by
  obtain ⟨-, -, hq, -⟩ := hz
  rw [step_of_silent (s := z.issue i k) hq, advance_of_latched (State.issue_ir z i k) (decode_issued_uop hi)]
  rfl

/-- The sequencer issues a micro-operation, with what it latches before, and the block runs it. -/
theorem reaches.issue {op : State → Res α} {g : α → State → State} {f : α → State → Res Unit} (hx : placed p j x)
    (hz : placed p j z) (hmove : sequence x = .next (z.issue i k)) (hzy : z.bare = y.bare) (hi : i.format = .uop)
    (hexec : ∀ s, exec i s = (op s).toStep g)
    (hop : ∀ {L : Likeness}, L.Full → ∀ {s t}, L.run s t → L.alike (op s) (op t))
    (hnext : ∀ a u v, op y = .ok a v → placed p k u → u.bare = v.bare → reaches (g a u) (f a v)) :
    reaches x ((op y).bind f) :=
  .move hx hmove (.op (hz.issued i k) hzy ((hz.step_issue k hi).trans (hexec _)) hop hnext)

/-- `WTELL` between two micro-operations: the bit cursor goes to the result latch (R86). -/
theorem reaches.wtell {r : Res Unit} (hx : placed p j x) (hmove : sequence x = .next (x.issue .wtell k))
    (hnext : ∀ u, placed p k u → u.bare = x.bare → u.res = x.wrBitcnt → reaches u r) : reaches x r :=
  .move hx hmove (.after (hx.step_issue k rfl) (hnext _ (hx.issued .wtell k) rfl rfl))

end

/-! `ENCODE`. -/

section
variable {x y : State}

theorem reaches_encodeEmpty (hx : placed .eEmpty 0 x) (h : x.bare = y.bare) : reaches x (encodeEmpty y) := by
  refine .issue (i := .wbits 0 Config.lenW) (op := wbits 0 Config.lenW) (k := 1) hx hx
    (by simp only [sequence, hx.phase, hx.useq]) h rfl (fun _ => rfl) (fun F _ _ => F.wbits 0 _) fun _ x y _ hx h => ?_
  refine .issue (i := .wbits 0 Config.lenW) (op := wbits 0 Config.lenW) (k := 2) hx hx
    (by simp only [sequence, hx.phase, hx.useq]) h rfl (fun _ => rfl) (fun F _ _ => F.wbits 0 _) fun _ x y _ hx h => ?_
  refine .issue (i := .wflush) (op := wflush) (k := 3) hx hx
    (by simp only [sequence, hx.phase, hx.useq]) h rfl (fun _ => rfl) (fun F _ _ => F.wflush) fun _ x y _ hx h => ?_
  exact .move hx (by simp only [sequence, hx.phase, hx.useq]) (.here (block_complete h))

theorem issuePatch_of_lt {s : State} (h : s.db < 2 ^ 32) :
    issuePatch s = { s with hdrData := BitVec.ofNat 32 s.db }.issue (.patch s.tb s.db) 1 :=
  if_neg (not_le.2 h)

theorem reaches_encodePatch (hx : placed .ePatch 0 x) (h : x.bare = y.bare) : reaches x (encodePatch y) := by
  have htb : x.tb = y.tb := bare_field State.tb (fun _ => rfl) h
  have hdb : x.db = y.db := bare_field State.db (fun _ => rfl) h
  rcases lt_or_ge y.db (2 ^ 32) with hlt | hge
  · rw [encodePatch_of_lt hlt]
    refine .issue (i := .patch y.tb y.db) (op := patch y.tb y.db) (k := 1) hx
      (z := { x with hdrData := BitVec.ofNat 32 y.db }) hx ?_ ?_ rfl (fun _ => rfl) (fun F _ _ => F.patch rfl rfl)
      fun _ x y _ hx h => ?_
    · rw [sequence_patch hx.phase hx.useq, issuePatch_of_lt (hdb ▸ hlt), htb, hdb]
    · exact congrArg (fun u : State => { u with hdrData := BitVec.ofNat 32 y.db }) h
    · exact .move hx (by simp only [sequence, hx.phase, hx.useq]) (.here (block_complete h))
  · rw [encodePatch_of_le hge]
    refine .move hx ?_ (.halted (block_faultEntry .lengthOverflow h))
    rw [sequence_patch hx.phase hx.useq, issuePatch_of_le (hdb ▸ hge)]

/-- `ENCODE` from `E_EMIT` on (R131). -/
def encodeEmitting (s : State) : Res Unit :=
  (emit { s with d0 := s.wrBitcnt }).bind fun _ s => encodePatch (s.latchData s.wrBitcnt)

theorem reaches_encodeEmitting (hx : placed .eEmit 0 x) (h : x.bare = y.bare) : reaches x (encodeEmitting y) := by
  refine .wtell hx (k := 1) (by simp only [sequence, hx.phase, hx.useq]) fun u hu hux hres => ?_
  have hcnt : u.res = y.wrBitcnt := hres.trans (bare_field State.wrBitcnt (fun _ => rfl) h)
  refine .issue (i := .emit) (op := emit) (k := 2) hu (z := { u with d0 := y.wrBitcnt }) hu ?_ ?_ rfl (fun _ => rfl)
    (fun F _ _ => F.emit) fun _ x y _ hx h => ?_
  · simp only [sequence, hu.phase, hu.useq, hcnt]
  · exact congrArg (fun u : State => { u with d0 := y.wrBitcnt }) (hux.trans h)
  refine .wtell hx (k := 3) (by simp only [sequence, hx.phase, hx.useq]) fun u hu hux hres => ?_
  have hcnt : u.res = y.wrBitcnt := hres.trans (bare_field State.wrBitcnt (fun _ => rfl) h)
  refine .move hu (z := (u.latchData y.wrBitcnt).goTo .ePatch) (by simp only [sequence, hu.phase, hu.useq, hcnt]) ?_
  exact reaches_encodePatch (placed.goTo hu _) (congrArg (State.latchData · y.wrBitcnt) (hux.trans h))

/-- `ENCODE` from `E_DERIVE` on (R131). -/
def encodeDeriving (s : State) : Res Unit := (derive s).bind fun _ s => encodeEmitting s

theorem reaches_encodeDeriving (hx : placed .eDerive 0 x) (h : x.bare = y.bare) : reaches x (encodeDeriving y) := by
  refine .issue (i := .derive) (op := derive) (k := 1) hx hx (by simp only [sequence, hx.phase, hx.useq]) h rfl (fun _ => rfl)
    (fun F _ _ => F.derive) fun _ x y _ hx h => ?_
  exact .move hx (by simp only [sequence, hx.phase, hx.useq]) (reaches_encodeEmitting (hx.goTo _) h)

/-- `ENCODE` from `E_TREE` on (R131). -/
def encodeTreeing (root : Node) (s : State) : Res Unit :=
  (serialize root { s with t0 := s.wrBitcnt }).bind fun _ s => encodeDeriving (s.latchTree s.wrBitcnt)

theorem reaches_encodeTreeing {root : Node} (hx : placed .eTree 0 x) (h : x.bare = y.bare) (htree : y.tree = some root) :
    reaches x (encodeTreeing root y) := by
  refine .wtell hx (k := 1) (by simp only [sequence, hx.phase, hx.useq]) fun u hu hux hres => ?_
  have hcnt : u.res = y.wrBitcnt := hres.trans (bare_field State.wrBitcnt (fun _ => rfl) h)
  have hroot : u.tree = some root := (bare_field State.tree (fun _ => rfl) (hux.trans h)).trans htree
  refine .issue (i := .serialize root) (op := serialize root) (k := 2) hu (z := { u with t0 := y.wrBitcnt }) hu ?_ ?_ rfl
    (fun _ => rfl) (fun F _ _ => F.serialize root) fun _ x y _ hx h => ?_
  · simp only [sequence, hu.phase, hu.useq, issueSerialize, hroot, hcnt]
  · exact congrArg (fun u : State => { u with t0 := y.wrBitcnt }) (hux.trans h)
  refine .wtell hx (k := 3) (by simp only [sequence, hx.phase, hx.useq]) fun u hu hux hres => ?_
  have hcnt : u.res = y.wrBitcnt := hres.trans (bare_field State.wrBitcnt (fun _ => rfl) h)
  refine .move hu (z := (u.latchTree y.wrBitcnt).goTo .eDerive) (by simp only [sequence, hu.phase, hu.useq, hcnt]) ?_
  exact reaches_encodeDeriving (placed.goTo hu _) (congrArg (State.latchTree · y.wrBitcnt) (hux.trans h))

/-- `ENCODE` after `BUILD` (R131). -/
def encodeBuilt (s : State) : Res Unit :=
  match s.tree with
  | none => encodeEmpty s
  | some root => (wseek Config.hdrBytes s).bind fun _ s => encodeTreeing root s

theorem tree_of_wseek {s t : State} {a : Nat} (h : wseek a s = .ok () t) : t.tree = s.tree := by
  unfold wseek at h
  split at h <;> cases h
  rfl

theorem reaches_encodeBuilt (hx : placed .eBuild 1 x) (h : x.bare = y.bare) : reaches x (encodeBuilt y) := by
  have htree : x.tree = y.tree := bare_field State.tree (fun _ => rfl) h
  cases hy : y.tree with
  | none =>
    rw [encodeBuilt, hy]
    refine .move hx (z := x.goTo .eEmpty) ?_ (reaches_encodeEmpty (hx.goTo _) h)
    simp only [sequence, hx.phase, hx.useq, afterBuild, htree, hy]
  | some root =>
    rw [encodeBuilt, hy]
    refine .move hx (z := x.goTo .eReserve) ?_ ?_
    · simp only [sequence, hx.phase, hx.useq, afterBuild, htree, hy]
    have hx' := hx.goTo .eReserve
    refine .issue (i := .wseek Config.hdrBytes) (op := wseek Config.hdrBytes) (k := 1) hx' hx' rfl h rfl (fun _ => rfl)
      (fun F _ _ => F.wseek _) fun _ x z hz hx h => ?_
    exact .move hx (by simp only [sequence, hx.phase, hx.useq])
      (reaches_encodeTreeing (hx.goTo _) h ((tree_of_wseek hz).trans hy))

theorem encodeBody_eq (s : State) :
    encodeBody s = (countIn s).bind fun _ s => (Res.ok () s.build).bind fun _ s => encodeBuilt s := rfl

theorem reaches_encodeBody (hx : placed .eCount 0 x) (h : x.bare = y.bare) : reaches x (encodeBody y) := by
  rw [encodeBody_eq]
  refine .issue (i := .count) (op := countIn) (k := 1) hx hx (by simp only [sequence, hx.phase, hx.useq]) h rfl (fun _ => rfl)
    (fun F _ _ => F.countIn) fun _ x y _ hx h => ?_
  refine .move hx (z := x.goTo .eBuild) (by simp only [sequence, hx.phase, hx.useq]) ?_
  have hx' := hx.goTo .eBuild
  exact .issue (i := .build) (op := fun s => .ok () s.build) (g := fun _ s => s) (k := 1) hx' hx' rfl h rfl (fun _ => rfl)
    (fun F _ _ h => .ok (F.latching latching_build h)) fun _ x y _ hx h => reaches_encodeBuilt hx h

end

/-! `DECODE`. -/

section
variable {x y : State}

theorem readerFields_of_rbit {s t : State} {b : Bool} (h : rbit s = .ok b t) :
    s.rdBitcnt + 1 = t.rdBitcnt ∧ t.payEnd = s.payEnd := by
  rcases rbit_cases s with ⟨-, e⟩ | ⟨-, -, e⟩ | ⟨-, -, -, e⟩ | ⟨-, -, -, e⟩ | ⟨-, -, -, e⟩ <;> cases e.symm.trans h
  · exact ⟨rfl, rfl⟩
  · exact ⟨rfl, rfl⟩

/-- A walk from an internal node takes a bit at least, and `end` stays (R117). -/
theorem readerFields_of_walkSymbol {n : Node} {limit : Nat} {v : Byte} {s t : State}
    (h : walkSymbol n limit s = .ok v t) : s.rdBitcnt + min 1 (depth n) ≤ t.rdBitcnt ∧ t.payEnd = s.payEnd := by
  induction n generalizing s with
  | leaf sym flag =>
    cases h
    exact ⟨le_refl _, rfl⟩
  | internal l r ihl ihr =>
    rw [walkSymbol] at h
    split at h
    · cases h
    obtain ⟨b, u, hbit, h⟩ := Res.bind_eq_ok.1 h
    obtain ⟨hcnt, hend⟩ := readerFields_of_rbit hbit
    split at h
    · obtain ⟨hle, hend'⟩ := ihr h
      exact ⟨by dsimp only at hle; omega, hend'.trans hend⟩
    · obtain ⟨hle, hend'⟩ := ihl h
      exact ⟨by dsimp only at hle; omega, hend'.trans hend⟩

theorem readerFields_of_rdsym {limit : Nat} {v : Byte} {s t : State} (h : rdsym limit s = .ok v t) :
    s.rdBitcnt < t.rdBitcnt ∧ t.payEnd = s.payEnd := by
  by_cases hroot : ∃ l r, s.tree = some (.internal l r)
  · obtain ⟨l, r, hroot⟩ := hroot
    rw [rdsym_of_internal hroot] at h
    split at h
    · obtain ⟨hle, hend⟩ := readerFields_of_walkSymbol h
      have hone : min 1 (depth (.internal l r)) = 1 := by simp only [depth]; omega
      rw [hone] at hle
      exact ⟨hle, hend⟩
    · cases h
  · cases (rdsym_of_not_internal (fun l r e => hroot ⟨l, r, e⟩) limit).symm.trans h

theorem readerFields_of_outbyte {v : Byte} {s t : State} (h : outbyte v s = .ok () t) :
    t.rdBitcnt = s.rdBitcnt ∧ t.payEnd = s.payEnd := by
  rcases outbyte_cases v s with ⟨-, e⟩ | ⟨-, e⟩ <;> cases e.symm.trans h
  exact ⟨rfl, rfl⟩

/-- Where the symbol loop goes on, and where it ends the command (R143). -/
theorem sequence_payloadHead (hx : placed .dPayload 1 x) (h : x.bare = y.bare) : sequence x = .next
    (if y.rdBitcnt < y.payEnd then x.issue (.rdsym y.payEnd) 2 else x.complete) := by
  have hcnt : x.rdBitcnt = y.rdBitcnt := bare_field State.rdBitcnt (fun _ => rfl) h
  have hend : x.payEnd = y.payEnd := bare_field State.payEnd (fun _ => rfl) h
  simp only [sequence, hx.phase, hx.useq, payloadHead, hcnt, hend]

theorem reaches_payloadEnd (hx : placed .dPayload 1 x) (h : x.bare = y.bare) (hge : ¬ y.rdBitcnt < y.payEnd) :
    reaches x (.ok () y.complete) :=
  .move hx ((sequence_payloadHead hx h).trans (by rw [if_neg hge])) (.here (block_complete h))

/-- After `RDSYM` the sequencer stores the symbol (R140, R143). -/
theorem step_payloadTail {v : Byte} (hx : placed .dPayload 2 x) (hres : x.res = v.toNat) :
    step x = (outbyte v x).toStep fun _ s => { s with useq := 1 } := by
  have hv : BitVec.ofNat 8 x.res = v := by simp [hres]
  rw [hx.step_eq]
  simp only [sequence, hx.phase, hx.useq, payloadTail, hv]

theorem reaches_payloadLoop (n : Nat) (hx : placed .dPayload 1 x) (h : x.bare = y.bare)
    (hn : y.payEnd ≤ y.rdBitcnt + n) :
    reaches x ((payloadLoop n y).bind fun _ s => .ok () s.complete) := by
  induction n generalizing x y with
  | zero => exact reaches_payloadEnd hx h (not_lt.2 hn)
  | succ n ih =>
    rw [payloadLoop]
    split
    next hlt =>
      rw [Res.bind_assoc]
      refine .issue (i := .rdsym y.payEnd) (op := rdsym y.payEnd) (k := 2) hx hx
        ((sequence_payloadHead hx h).trans (by rw [if_pos hlt])) h rfl (fun _ => rfl)
        (fun F _ _ => F.rdsym _) fun v x z hz hx h => ?_
      obtain ⟨hzcnt, hzend⟩ := readerFields_of_rdsym hz
      have hx2 : placed .dPayload 2 (x.setRes v.toNat) := hx
      rw [Res.bind_assoc]
      refine .op hx2 h (step_payloadTail hx2 rfl) (fun F _ _ => F.outbyte v) fun _ x w hw hx h => ?_
      obtain ⟨hwcnt, hwend⟩ := readerFields_of_outbyte hw
      obtain ⟨hb, hir, hq, hp, -⟩ := hx
      exact ih (x := { x with useq := 1 }) ⟨hb, hir, hq, hp, rfl⟩ h (by omega)
    next hge => exact reaches_payloadEnd hx h hge

/-- The payload, from the check of the root on (R143). -/
theorem reaches_decodePayload (hx : placed .dPayload 0 x) (h : x.bare = y.bare) : reaches x (decodePayload y) := by
  have hcheck : (x.db ≠ 0 ∧ rootIsLeaf x) = (y.db ≠ 0 ∧ rootIsLeaf y) :=
    bare_field (fun u : State => u.db ≠ 0 ∧ rootIsLeaf u) (fun _ => rfl) h
  unfold decodePayload
  split
  next hc =>
    refine .move hx ?_ (.halted (block_faultEntry .invalidHeader h))
    simp only [sequence, hx.phase, hx.useq, beforePayload, if_pos (hcheck ▸ hc)]
  next hc =>
    have hstart := twin_full.latching (f := fun u => { u with payEnd := u.rdBitcnt + u.db }) (fun _ => rfl) h
    refine .move hx (z := { x with payEnd := x.rdBitcnt + x.db, useq := 1 }) ?_ ?_
    · simp only [sequence, hx.phase, hx.useq, beforePayload, if_neg (hcheck ▸ hc)]
    · obtain ⟨hb, hir, hq, hp, -⟩ := hx
      exact reaches_payloadLoop y.db ⟨hb, hir, hq, hp, rfl⟩ hstart (le_refl _)

theorem reaches_decodeTree (hx : placed .dTree 0 x) (h : x.bare = y.bare) : reaches x (decodeTree y) := by
  have hcnt : x.rdBitcnt = y.rdBitcnt := bare_field State.rdBitcnt (fun _ => rfl) h
  refine .issue (i := .deserialize) (op := deserialize) (k := 1) hx (z := { x with t0 := y.rdBitcnt }) hx ?_ ?_ rfl
    (fun _ => rfl) (fun F _ _ => F.deserialize) fun _ x y _ hx h => ?_
  · simp only [sequence, hx.phase, hx.useq, hcnt]
  · exact congrArg (fun u : State => { u with t0 := y.rdBitcnt }) h
  have hcnt : x.rdBitcnt = y.rdBitcnt := bare_field State.rdBitcnt (fun _ => rfl) h
  have ht0 : x.t0 = y.t0 := bare_field State.t0 (fun _ => rfl) h
  have htb : x.tb = y.tb := bare_field State.tb (fun _ => rfl) h
  have hmove : sequence x = .next (afterTree x) := by simp only [sequence, hx.phase, hx.useq]
  rw [afterTree, hcnt, ht0, htb] at hmove
  split
  next hc =>
    rw [if_pos hc] at hmove
    exact .move hx hmove (.halted (block_faultEntry _ h))
  next hc =>
    rw [if_neg hc] at hmove
    exact .move hx hmove (reaches_decodePayload (hx.goTo _) h)

/-- The checks of the header, with both fields latched (R141). -/
theorem reaches_decodeLatched {db : Nat} (hx : placed .dHeader 2 x) (h : x.bare = y.bare) (hres : x.res = db) :
    reaches x (decodeLatched (y.latchHeader db)) := by
  have htb : x.tb = y.tb := bare_field State.tb (fun _ => rfl) h
  have hl : (x.latchHeader db).bare = (y.latchHeader db).bare :=
    twin_full.latching (f := fun u => u.latchHeader db) (fun _ => rfl) h
  have hmove : sequence x = .next (afterHeader x) := by simp only [sequence, hx.phase, hx.useq]
  rw [afterHeader, hres] at hmove
  by_cases hzero : y.tb = 0
  · by_cases hdb : db = 0
    · refine .move hx (z := (x.latchHeader db).complete) ?_ ?_
      · simpa [htb, hzero, hdb] using hmove
      · simpa [decodeLatched, hzero, hdb] using reaches.here (block_complete hl)
    · refine .move hx (z := (x.latchHeader db).faultEntry .invalidHeader) ?_ ?_
      · simpa [htb, hzero, hdb] using hmove
      · simpa [decodeLatched, hzero, hdb, raise] using reaches.halted (block_faultEntry .invalidHeader hl)
  · refine .move hx (z := (x.latchHeader db).goTo .dTree) ?_ ?_
    · simpa [htb, hzero] using hmove
    · simpa [decodeLatched, hzero] using reaches_decodeTree (placed.goTo (x := x.latchHeader db) hx _) hl

theorem reaches_decodeBody (hx : placed .dHeader 0 x) (h : x.bare = y.bare) : reaches x (decodeBody y) := by
  rw [decodeBody_eq]
  refine .issue (i := .rbits Config.lenW) (op := rbits Config.lenW) (g := fun n s => s.setRes n) (k := 1) hx hx
    (by simp only [sequence, hx.phase, hx.useq]) h rfl (fun _ => rfl) (fun F _ _ => F.rbits _) fun tb x y _ hx h => ?_
  have hx1 : placed .dHeader 1 (x.setRes tb) := hx
  refine .issue (i := .rbits Config.lenW) (op := rbits Config.lenW) (g := fun n s => s.setRes n) (k := 2) hx1
    (z := { x.setRes tb with tb := (x.setRes tb).res }) hx (by simp only [sequence, hx1.phase, hx1.useq]) ?_ rfl (fun _ => rfl)
    (fun F _ _ => F.rbits _) fun db x y _ hx h => ?_
  · exact congrArg (fun u : State => { u with tb := tb }) h
  exact reaches_decodeLatched (x := x.setRes db) hx h rfl

end

theorem placed_begin_encode {s : State} (hq : s.hostQ = []) : placed .eCount 0 (s.begin 0#1) := ⟨rfl, rfl, hq, rfl, rfl⟩

theorem placed_begin_decode {s : State} (hq : s.hostQ = []) : placed .dHeader 0 (s.begin 1#1) := ⟨rfl, rfl, hq, rfl, rfl⟩

/-- Settles O45: from command start on, the sequencer reaches what the command as one transition leaves. -/
theorem stepByStepRunIsTheCommand : Obligations.StepByStepRunIsTheCommand := by
  intro s t hs hq
  rw [exec_encode hs, exec_decode hs, start, start, if_neg hs, if_neg hs]
  exact ⟨reaches_encodeBody (placed_begin_encode hq) rfl t, reaches_decodeBody (placed_begin_decode hq) rfl t⟩

end Sys2Proof.Machine
